-- ==== Sys2Proof/Word.lean ====
section
/-! DEFINITION. The word types of the core: the 32-bit word of all its arithmetic (00_scope.md R8, R14;
41_compression.md R100), the byte of the message, of BUF and of DOUT (00_scope.md R8, R12), and the 16-bit
command word (30_encoding.md R70). Addition, exclusive or, and, or, complement are BitVec's own: modulo 2^32,
bitwise, the carry out discarded (00_scope.md R14). All values are unsigned (R13). -/

namespace Sys2Proof

/-- A 32-bit unsigned word (00_scope.md R8, "All arithmetic is modulo 2^32"). -/
abbrev Word := BitVec 32

/-- An 8-bit byte (00_scope.md R8, R12). -/
abbrev Byte := BitVec 8

/-- A command word, a 16-bit number and not a byte sequence (30_encoding.md R70). -/
abbrev CmdWord := BitVec 16

/-- Eight words: the shape of the chaining state `V[0..7]` and of the working registers `R[0..7]`
(10_state.md R21, R22). -/
abbrev Words8 := Vector Word 8

end Sys2Proof
end

