-- ==== Sys2Proof/Syntax.lean ====
section
/-! DEFINITION. The commands as syntax (30_encoding.md R71, R73): one constructor per row of the opcode table. The
internal micro-steps LOADBLK, EXPAND, ROUND, FEED have no encoding and no constructor (R79). -/

namespace Sys2Proof

/-- The six host commands (30_encoding.md R73). -/
inductive Instr where
  /-- NOP, `0x0000`, sub-form C0 (43_commands.md R140). -/
  | nop
  /-- INIT, `0x0100`, sub-form C0 (43_commands.md R141). -/
  | init
  /-- ABSORB data, `0x0200 + data`, sub-form C8: a message byte, any value (43_commands.md R143). -/
  | absorb (data : Byte)
  /-- FINAL, `0x0300`, sub-form C0 (43_commands.md R144). -/
  | final
  /-- RDD idx, `0x0400 + idx`, sub-form C5: a digest address, 0..31 when well formed (43_commands.md R145). -/
  | rdd (idx : Nat)
  /-- RDS, `0x0500`, sub-form C0 (43_commands.md R146). -/
  | rds
  deriving DecidableEq, Repr

/-- Why a word is no command: the three groups of words of 30_encoding.md R78. All behave alike. -/
inductive Reject where
  /-- The opcode byte is `0x06` or more. -/
  | unusedOpcode
  /-- A non-zero operand byte under NOP, INIT, FINAL or RDS. -/
  | operandNotAllowed
  /-- The RDD opcode with an address of 32 or more. -/
  | digestAddressTooLarge
  deriving DecidableEq, Repr

/-- A row of the opcode map (30_encoding.md R73): the words `w` with `w & mask = value`. -/
structure OpcodeRow where
  /-- The row's mnemonic. -/
  mnemonic : String
  /-- The row's match column. -/
  value : CmdWord
  /-- The row's mask column. -/
  mask : CmdWord
  deriving DecidableEq, Repr

end Sys2Proof
end

