-- ==== Sys2Proof/WellFormed.lean ====
section
/-! DEFINITION. Which instruction terms are commands of 30_encoding.md R71: the one operand that can be out of range is
RDD's digest address (sub-form C5). A message byte may have any value (sub-form C8). "An operand out of range is an
assembly error, not an illegal word" (R81): such a term has no encoding. -/

namespace Sys2Proof

/-- The operand ranges of 30_encoding.md R71. -/
def Instr.wellFormed : Instr → Bool
  | .nop => true
  | .init => true
  | .absorb _ => true
  | .final => true
  | .rdd idx => decide (idx ≤ 31)
  | .rds => true

end Sys2Proof
end

