-- ==== Sys2Proof/Decode.lean ====
section
/-! DEFINITION. Decoding (30_encoding.md R71, R72, R73, R78, R83), total on every 16-bit word and rejecting by name, and
the encoder after it, written from the same table. -/

namespace Sys2Proof

/-- The field `op`, bits 15:8 (30_encoding.md R71). -/
def opField (w : CmdWord) : Byte := w.extractLsb' 8 8

/-- The field `imm`, bits 7:0 (30_encoding.md R71). -/
def immField (w : CmdWord) : Byte := w.extractLsb' 0 8

/-- The operand `idx = word[4:0]` (30_encoding.md R72). -/
def idxField (w : CmdWord) : Nat := (w.extractLsb' 0 5).toNat

/-- The opcode map, one row per command (30_encoding.md R73). -/
def opcodeRows : List OpcodeRow :=
  [ { mnemonic := "NOP", value := 0x0000, mask := 0xFFFF },
    { mnemonic := "INIT", value := 0x0100, mask := 0xFFFF },
    { mnemonic := "ABSORB", value := 0x0200, mask := 0xFF00 },
    { mnemonic := "FINAL", value := 0x0300, mask := 0xFFFF },
    { mnemonic := "RDD", value := 0x0400, mask := 0xFFE0 },
    { mnemonic := "RDS", value := 0x0500, mask := 0xFFFF } ]

/-- A word belongs to a row exactly when `(w & mask) = match` (30_encoding.md R73). -/
def rowMatches (row : OpcodeRow) (w : CmdWord) : Bool := w &&& row.mask == row.value

/-- A command without an operand: its `imm` must be zero (30_encoding.md R71, sub-form C0). -/
def noOperand (w : CmdWord) (i : Instr) : Except Reject Instr :=
  if immField w = 0x00 then .ok i else .error .operandNotAllowed

/-- The decoder (30_encoding.md R83); `Illegal` is a rejection with the group of R78 the word falls in. -/
def decode (w : CmdWord) : Except Reject Instr :=
  if opField w = 0x00 then noOperand w .nop
  else if opField w = 0x01 then noOperand w .init
  else if opField w = 0x02 then .ok (.absorb (immField w))
  else if opField w = 0x03 then noOperand w .final
  else if opField w = 0x04 then
    if (immField w).toNat ≤ 31 then .ok (.rdd (idxField w)) else .error .digestAddressTooLarge
  else if opField w = 0x05 then noOperand w .rds
  else .error .unusedOpcode

/-- The encoder (30_encoding.md R83), the inverse of the decoder on well-formed instructions. -/
def encode : Instr → CmdWord
  | .nop => 0x0000
  | .init => 0x0100
  | .absorb data => 0x0200 + data.setWidth 16
  | .final => 0x0300
  | .rdd idx => 0x0400 + BitVec.ofNat 16 idx
  | .rds => 0x0500

/-- The row of an instruction's mnemonic (30_encoding.md R73). -/
def rowOf : Instr → OpcodeRow
  | .nop => { mnemonic := "NOP", value := 0x0000, mask := 0xFFFF }
  | .init => { mnemonic := "INIT", value := 0x0100, mask := 0xFFFF }
  | .absorb _ => { mnemonic := "ABSORB", value := 0x0200, mask := 0xFF00 }
  | .final => { mnemonic := "FINAL", value := 0x0300, mask := 0xFFFF }
  | .rdd _ => { mnemonic := "RDD", value := 0x0400, mask := 0xFFE0 }
  | .rds => { mnemonic := "RDS", value := 0x0500, mask := 0xFFFF }

/-- The command word of a table row's bits: the low `nbits` bits of `w`, and zeros above them, as one 16-bit number
(30_encoding.md R70). DEDUCED, safe: log entry 13. -/
def tableWord (nbits w : Nat) : CmdWord := BitVec.ofNat 16 (w % 2 ^ nbits)

/-- The instruction the decoder reads from a table row's bits; none where it rejects. -/
def decodeTableWord (nbits w : Nat) : Option Instr :=
  match decode (tableWord nbits w) with
  | .ok i => some i
  | .error _ => none

end Sys2Proof
end

