-- ==== Sys2Proof/Config.lean ====
section
/-! DEFINITION. The configuration of one core instance (00_scope.md R9, R10; 10_state.md R32): the initial vector
`IV[0..7]` and the round constants `RC[0..63]`. Both are OPEN parameters of the spec (92_eei_decisions.md D3, D4):
it gives no value, and "every rule of this spec holds for every value". So the functions that read them take a
`Config`, and the machine runs at `Config.hw`, whose two fields are constants without a body: nothing can be proved
of their values. Log entries 1 and 2. -/

namespace Sys2Proof

/-- The read-only configuration (10_state.md R32): a ROM or tied-off wires, written by no command. -/
structure Config where
  /-- `IV[0..7]`, read by reset and INIT (00_scope.md R9). -/
  iv : Vector Word 8
  /-- `RC[0..63]`, `RC[j]` read by ROUND(j) alone (00_scope.md R10). -/
  rc : Vector Word 64
  deriving DecidableEq, Repr

/-- The initial vector of the modelled instance: an open parameter (00_scope.md R9; 92_eei_decisions.md D3).
DESIGN CHOICE of the form (a constant without a body), safe: log entry 1. -/
opaque Config.hwIV : Vector Word 8

/-- The round constants of the modelled instance: an open parameter (00_scope.md R10; 92_eei_decisions.md D4).
DESIGN CHOICE of the form (a constant without a body), safe: log entry 2. -/
opaque Config.hwRC : Vector Word 64

/-- The configuration the machine runs at. -/
def Config.hw : Config := { iv := Config.hwIV, rc := Config.hwRC }

end Sys2Proof
end

