-- ==== Sys2Proof/Machine/State.lean ====
section
/-! DEFINITION. The state of the core, the whole tuple of 10_state.md R20, as plain data; the list of the host's moves
beside it; the reasons a step can stop; and the reset state (10_state.md R36). -/

namespace Sys2Proof.Machine

/-- The phase of the sequencer (10_state.md R31). -/
inductive Phase where
  | idle
  | loadblk
  | expand
  | round
  | feed
  deriving DecidableEq, Repr

/-- The two byte spaces of the core (10_state.md R34; 20_memory.md R50). -/
inductive Space where
  /-- `BUF`, 64 bytes at 0..63. -/
  | buf
  /-- `DIG`, 32 bytes at 0..31, a read-only view of `V`. -/
  | dig
  deriving DecidableEq, Repr

/-- The core's three faults (60_exceptions.md R160, R161, R162). Each is latched in an `ERR` bit and the run goes on,
so these are causes that a command raises (R163), not stops of the machine. -/
inductive Cause where
  /-- ABSORB at `LEN = 2^64 - 8`, bit `ERR.LEN` (60_exceptions.md R160). -/
  | invalidInput
  /-- A word that matches no opcode row, bit `ERR.CMD` (60_exceptions.md R161). -/
  | illegalCommand
  /-- A command in the wrong phase of the life cycle, bit `ERR.SEQ` (60_exceptions.md R162). -/
  | seqError
  deriving DecidableEq, Repr

/-- `ERR`, three sticky fault bits (10_state.md R28). -/
structure Err where
  /-- `ERR.LEN`. -/
  len : Bool
  /-- `ERR.CMD`. -/
  cmd : Bool
  /-- `ERR.SEQ`. -/
  seq : Bool
  deriving DecidableEq, Repr

/-- What the host can do to the core besides sampling `DOUT` (70_reset_and_hazards.md R189). -/
inductive HostInput where
  /-- One command word offered on the command port. -/
  | word (w : CmdWord)
  /-- The reset input asserted, between two commands (70_reset_and_hazards.md R181). -/
  | reset
  deriving DecidableEq, Repr

/-- A byte space as address and byte pairs, addresses strictly rising; an unlisted address has no value. -/
abbrev Memory := List Host.Cell

/-- The complete state of the core (10_state.md R20) and, last, the host's pending moves. -/
structure State where
  /-- `V[0..7]`, the chaining state (10_state.md R21). -/
  v : Words8
  /-- `R[0..7] = A..H`, the working registers in alphabetical order (10_state.md R22). -/
  r : Words8
  /-- `W[0..67]`, the message schedule (10_state.md R24). -/
  w : Vector Word 68
  /-- `BUF[0..63]`, the block buffer (10_state.md R34; 20_memory.md R50). -/
  buf : Memory
  /-- `BUFLEN`, the number of message bytes in `BUF` (10_state.md R25). -/
  bufLen : BitVec 7
  /-- `LEN`, the number of message bits absorbed (10_state.md R26). -/
  len : BitVec 64
  /-- `DV`, digest valid (10_state.md R27). -/
  dv : Bool
  /-- `ERR.LEN`, `ERR.CMD`, `ERR.SEQ` (10_state.md R28). -/
  err : Err
  /-- `DOUT`, the data output register (10_state.md R29). -/
  dout : Byte
  /-- `PHASE` of the sequencer (10_state.md R31). -/
  phase : Phase
  /-- `J` of the sequencer (10_state.md R31). -/
  j : BitVec 7
  /-- The host's moves not yet taken, the next one first. The model's own field: log entry 7. -/
  inputs : List HostInput
  deriving DecidableEq, Repr

/-- Why a step stops without a next state. No reachable state takes one: the core's own faults are latched bits
(`Cause`). All three are safe: the model stops where it has no value or no address, and goes on nowhere. -/
inductive Fault where
  /-- Raised by a read of a `BUF` byte that nothing has written since reset (10_state.md R38, 70_reset_and_hazards.md
  R182: "a read would fault, and none occurs"). Safe: log entry 5. -/
  | unwrittenByte (addr : Nat)
  /-- Raised by an access to an address the spaces do not have (20_memory.md R57). Safe: log entries 11 and 12. -/
  | noSuchAddress (space : Space) (addr : Nat)
  /-- Raised by the micro-step function alone, in a state whose count `J` its phase does not have (10_state.md R31).
  Safe: log entry 9. -/
  | noSuchMicroStep (phase : Phase) (j : Nat)
  deriving DecidableEq, Repr

/-- Why a command has no meaning. -/
inductive Refusal where
  /-- Raised by `exec` for an instruction without a meaning; no arm does. Safe: the model stops. -/
  | notModelled (mnemonic : String)
  deriving DecidableEq, Repr

/-- No `ERR` bit set. -/
def Err.clear : Err := { len := false, cmd := false, seq := false }

/-- The state right after reset (10_state.md R36; 70_reset_and_hazards.md R180): `V = IV`, every count, flag and output
zero, the sequencer idle. The spec leaves `A..H`, `W`, `BUF` unspecified: the registers hold the named value 0 (DESIGN
CHOICE, unsafe, log entries 3 and 4) and `BUF` is unwritten (DESIGN CHOICE, safe, log entry 5). -/
def State.reset : State where
  v := Config.hw.iv
  r := Vector.replicate 8 0
  w := Vector.replicate 68 0
  buf := []
  bufLen := 0
  len := 0
  dv := false
  err := Err.clear
  dout := 0x00
  phase := .idle
  j := 0
  inputs := []

end Sys2Proof.Machine
end

