-- ==== Sys2Proof/Machine/Flags.lean ====
section
/-! DEFINITION. The flags: the three sticky `ERR` bits and the status byte (10_state.md R27, R28, R33). No arithmetic
operation of the core sets a flag (R28). -/

namespace Sys2Proof.Machine

/-- The core is faulted when `ERR != 0` (10_state.md R28). -/
def Err.any (e : Err) : Bool := e.len || e.cmd || e.seq

/-- `ERR` with the bit of a cause set (60_exceptions.md R160, R161, R162). -/
def Err.set (e : Err) : Cause → Err
  | .invalidInput => { e with len := true }
  | .illegalCommand => { e with cmd := true }
  | .seqError => { e with seq := true }

/-- A flag as a status bit. -/
def flagBit (b : Bool) : Byte := if b then 1 else 0

/-- `STATUS = zext_8(DV) | (ERR.LEN << 1) | (ERR.CMD << 2) | (ERR.SEQ << 3)`, bits 7:4 zero (10_state.md R33). -/
def statusByte (dv : Bool) (e : Err) : Byte :=
  flagBit dv ||| (flagBit e.len <<< 1) ||| (flagBit e.cmd <<< 2) ||| (flagBit e.seq <<< 3)

/-- The core is in its faulted state (60_exceptions.md R164). -/
def faulted (s : State) : Bool := s.err.any

/-- The status byte of a state, a read-only view (10_state.md R33). -/
def status (s : State) : Byte := statusByte s.dv s.err

end Sys2Proof.Machine
end

