-- ==== Sys2Proof/Machine/Operands.lean ====
section
/-! DEFINITION. Operand forms and byte order: `byteBE`, `BE32`, `BE64` (00_scope.md R15), the big-endian words of a block
(20_memory.md R51), the length field (R52) and the digest byte at an absolute address (R53, R64). A command's own
operands need no assembly (30_encoding.md R72): a message byte is stored unchanged and a digest address is used
unchanged. -/

namespace Sys2Proof.Machine

/-- Byte `k` of the `n`-byte value `v`, counted from the most significant (00_scope.md R15). -/
def byteBE (v n k : Nat) : Byte := BitVec.ofNat 8 (v >>> (8 * (n - 1 - k)))

/-- The `n` bytes of `v`, most significant first. -/
def bytesBE (v n : Nat) : List Byte := (List.range n).map (byteBE v n)

/-- The big-endian word of four bytes, `b0` the byte at the lowest address (00_scope.md R15). -/
def be32 (b0 b1 b2 b3 : Byte) : Word := b0 ++ b1 ++ b2 ++ b3

/-- The big-endian 64-bit number of eight bytes (00_scope.md R15). -/
def be64 (b0 b1 b2 b3 b4 b5 b6 b7 : Byte) : BitVec 64 := be32 b0 b1 b2 b3 ++ be32 b4 b5 b6 b7

/-- Word `i` of a 64-byte block (20_memory.md R51). A block has 64 bytes and `i` is 0..15, so the default is never
read: log entry 16. -/
def blockWord (blk : List Byte) (i : Nat) : Word :=
  be32 (blk.getD (4 * i) 0) (blk.getD (4 * i + 1) 0) (blk.getD (4 * i + 2) 0) (blk.getD (4 * i + 3) 0)

/-- The sixteen words of a block (20_memory.md R51). -/
def blockWords (blk : List Byte) : List Word := (List.range 16).map (blockWord blk)

/-- The length field: `LEN` as eight big-endian bytes (20_memory.md R52). -/
def lengthField (len : BitVec 64) : List Byte := bytesBE len.toNat 8

/-- The digest byte at address `a`: byte `a mod 4` of word `floor(a / 4)` of `V` (20_memory.md R53;
42_output_and_hash.md R131). -/
def dig (v : Words8) (a : Fin 32) : Byte :=
  byteBE (v[a.val / 4]'(by omega)).toNat 4 (a.val % 4)

end Sys2Proof.Machine
end

