-- ==== Sys2Proof/Machine/Ops.lean ====
section
/-! DEFINITION. The named operations over memory and state: the byte spaces (00_scope.md R15, 20_memory.md R50, R57),
raising a fault and clearing it (60_exceptions.md R163, R166), the host's inputs (70_reset_and_hazards.md R186, R189). -/

namespace Sys2Proof.Machine

/-! ### A list of cells in canonical form -/

/-- The byte listed at an address, if any. -/
def Memory.read (m : Memory) (a : Nat) : Option Byte :=
  match m with
  | [] => none
  | (x, b) :: rest => if x = a then some b else Memory.read rest a

/-- The memory with a byte listed at an address, the list kept in rising order. -/
def Memory.write (m : Memory) (a : Nat) (b : Byte) : Memory :=
  match m with
  | [] => [(a, b)]
  | (x, y) :: rest =>
    if a < x then (a, b) :: (x, y) :: rest
    else if x = a then (a, b) :: rest
    else (x, y) :: Memory.write rest a b

/-- Every address of a list is above `lo` (when there is one) and the addresses rise strictly. -/
def Memory.risesFrom (lo : Option Nat) (m : Memory) : Bool :=
  match m with
  | [] => true
  | (x, _) :: rest => (match lo with | none => true | some l => decide (l < x)) && Memory.risesFrom (some x) rest

/-- The canonical form of `BUF`: addresses strictly rising, every one of 0..63 (20_memory.md R57). An unlisted address
has no value, so no entry equals it. -/
def Memory.wf (m : Memory) : Bool := Memory.risesFrom none m && m.all (fun c => decide (c.1 < 64))

/-! ### The byte spaces -/

/-- One byte of a space (20_memory.md R50, R57). A `BUF` byte that nothing has written has no value (10_state.md R38,
log entry 5); an address a space does not have faults. -/
def readByte (sp : Space) (s : State) (a : Nat) : Except Fault Byte :=
  match sp with
  | .buf =>
    if a < 64 then
      match Memory.read s.buf a with
      | some b => .ok b
      | none => .error (.unwrittenByte a)
    else .error (.noSuchAddress .buf a)
  | .dig => if h : a < 32 then .ok (dig s.v ⟨a, h⟩) else .error (.noSuchAddress .dig a)

/-- `MemRead(space, addr, n)`: `n` bytes, the lowest address first (00_scope.md R15). -/
def memRead (sp : Space) (s : State) (a : Nat) : Nat → Except Fault (List Byte)
  | 0 => .ok []
  | n + 1 =>
    match readByte sp s a with
    | .error f => .error f
    | .ok b =>
      match memRead sp s (a + 1) n with
      | .error f => .error f
      | .ok bs => .ok (b :: bs)

/-- One byte stored to `BUF` (20_memory.md R56, R57). -/
def storeByte (s : State) (a : Nat) (b : Byte) : Except Fault State :=
  if a < 64 then .ok { s with buf := Memory.write s.buf a b } else .error (.noSuchAddress .buf a)

/-- `MemWrite(BUF, addr, n, bytes)`: the bytes of a list at rising addresses (00_scope.md R15). `BUF` is the one space
that is written (10_state.md R34). -/
def memWrite (s : State) (a : Nat) : List Byte → Except Fault State
  | [] => .ok s
  | b :: bs =>
    match storeByte s a b with
    | .error f => .error f
    | .ok t => memWrite t (a + 1) bs

/-! ### Outcomes -/

/-- The outcome of a command whose accesses may stop it. -/
def toOutcome (x : Except Fault State) : Host.Outcome State Fault Refusal :=
  match x with
  | .ok t => .next t
  | .error f => .fault f

/-! ### Taking a fault and leaving the faulted state -/

/-- `raise X`: sets the one `ERR` bit of `X` and writes nothing else (60_exceptions.md R163). There is no vector, no
saved state and no mode. The command ends in a next state: DEDUCED, log entry 6. -/
def raise (x : Cause) (s : State) : State := { s with err := s.err.set x }

/-- The effect of a command that the faulted state ignores (43_commands.md R142; 60_exceptions.md R164): no state
changes when `ERR != 0`, and the command's own effect otherwise. -/
def unlessFaulted (s : State) (effect : Host.Outcome State Fault Refusal) : Host.Outcome State Fault Refusal :=
  if faulted s then .next s else effect

/-- A new message from `IV`, all writes simultaneous (43_commands.md R141): the one way out of the faulted state but
reset (60_exceptions.md R166). `A..H`, `W` and `BUF` are not written. `PHASE` and `J` take the values of the
table of 10_state.md R36, column "value after INIT", which they have between commands anyway (R31). -/
def beginMessage (c : Config) (s : State) : State :=
  { s with v := c.iv, bufLen := 0, len := 0, dv := false, err := Err.clear, dout := 0x00, phase := .idle, j := 0 }

/-- The reset input, taken between two commands (70_reset_and_hazards.md R180, R181): the reset state, the host's later
moves kept. DESIGN CHOICE, unsafe for the unspecified elements: log entry 8. -/
def takeReset (s : State) : State := { State.reset with inputs := s.inputs }

/-! ### The host's side of the command port -/

/-- The host's next move and the state that has taken it; none when the host offers nothing
(70_reset_and_hazards.md R186). -/
def takeInput (s : State) : Option (HostInput × State) :=
  match s.inputs with
  | [] => none
  | m :: rest => some (m, { s with inputs := rest })

/-- The host offers one more word, to be taken next. -/
def offerWord (w : CmdWord) (s : State) : State := { s with inputs := .word w :: s.inputs }

/-- `cmd_ready`: the sequencer is idle (70_reset_and_hazards.md R186; 10_state.md R31). -/
def cmdReady (s : State) : Bool := decide (s.phase = .idle)

end Sys2Proof.Machine
end

