-- ==== Sys2Proof/Machine/Control.lean ====
section
/-! DEFINITION. The commands executed in every state besides RDS: NOP (43_commands.md R140) and INIT (R141). -/

namespace Sys2Proof.Machine

/-- NOP: nothing, in any state (43_commands.md R140). -/
def execNop (s : State) : Host.Outcome State Fault Refusal := .next s

/-- INIT under a configuration (43_commands.md R141). -/
def initWith (c : Config) (s : State) : Host.Outcome State Fault Refusal := .next (beginMessage c s)

/-- INIT: a new message, in every state (43_commands.md R141). -/
def execInit (s : State) : Host.Outcome State Fault Refusal := initWith Config.hw s

end Sys2Proof.Machine
end

