-- ==== Sys2Proof/Machine/Round.lean ====
section
/-! DEFINITION. The compression function as pure functions (41_compression.md): rotation, the four functions, the
schedule, the round, `Compress`. Each numeric literal of the source (rotations 7, 9, 12, 15, 17, 23; schedule offsets)
stands once, in the formula the rule gives (93_implementation_defined.md U17). -/

namespace Sys2Proof.Machine

/-- Left rotation for amounts 0..31 (00_scope.md R14; 41_compression.md R101). -/
def rotl32 (x : Word) (n : Nat) : Word := (x <<< n) ||| (x >>> (32 - n))

/-- Bitwise majority, the same in all 64 rounds (41_compression.md R102). -/
def ff (x y z : Word) : Word := (x &&& y) ||| (x &&& z) ||| (y &&& z)

/-- Bitwise choice, the same in all 64 rounds (41_compression.md R103). -/
def gg (x y z : Word) : Word := (x &&& y) ||| (~~~x &&& z)

/-- The permutation `P0` (41_compression.md R104). -/
def p0 (x : Word) : Word := x ^^^ rotl32 x 9 ^^^ rotl32 x 17

/-- The permutation `P1` (41_compression.md R104). -/
def p1 (x : Word) : Word := x ^^^ rotl32 x 15 ^^^ rotl32 x 23

/-- An element of a register file by index. Every index the rules form is in range (41_compression.md R109: the largest
schedule index is 67), so the default is never read: log entry 16. -/
def at32 {n : Nat} (w : Vector Word n) (i : Nat) : Word := w[i]?.getD 0

/-- The right side of EXPAND(j) on a schedule given by index (41_compression.md R106). -/
def expandWord (w : Nat → Word) (j : Nat) : Word :=
  p1 (w (j - 16) ^^^ w (j - 9) ^^^ p0 (w (j - 15) ^^^ w (j - 1))) ^^^ p0 (w (j - 14) ^^^ w (j - 2))

/-- One word appended to a schedule that holds `W[0..j-1]`. -/
def expandNext (w : List Word) : List Word := w ++ [expandWord (fun i => w.getD i 0) w.length]

/-- `Expand(w0..w15)`: the 68 words of sixteen, for `j = 16, ..., 67` in order (41_compression.md R107). -/
def expand (ws : List Word) : List Word := (List.range 52).foldl (fun w _ => expandNext w) ws

/-- `SS1` (41_compression.md R110), `rc` being `RC[j]`. -/
def ss1 (rc : Word) (r : Words8) : Word := rotl32 (rotl32 r[0] 12 + r[4] + r[5] + rc) 7

/-- `SS2` (41_compression.md R111). -/
def ss2 (rc : Word) (r : Words8) : Word := ss1 rc r ^^^ rotl32 r[0] 12

/-- `TT1`, which reads `W[j]` (41_compression.md R112). -/
def tt1 (rc wj : Word) (r : Words8) : Word := ff r[0] r[1] r[2] + ss2 rc r + gg r[3] r[4] r[5] + wj

/-- `TT2`, which reads `W[j+4]` (41_compression.md R113). -/
def tt2 (rc wj4 : Word) (r : Words8) : Word := gg r[4] r[5] r[6] + ss1 rc r + ff r[3] r[4] r[5] + wj4

/-- `Round(j, (A,B,C,D,E,F,G,H)) = (TT1, A, rotl32(B,9), C, P0(TT2), E, F, G)`, all eight writes simultaneous
(41_compression.md R114); the arguments are `RC[j]`, `W[j]`, `W[j+4]`. `G` receives `F` unrotated, and `H` is not
read (10_state.md R23). -/
def roundFn (rc wj wj4 : Word) (r : Words8) : Words8 :=
  #v[tt1 rc wj r, r[0], rotl32 r[1] 9, r[2], p0 (tt2 rc wj4 r), r[4], r[5], r[6]]

/-- Round `j` of a configuration on a schedule given by index (41_compression.md R114). -/
def roundAt (c : Config) (w : Nat → Word) (j : Nat) (r : Words8) : Words8 := roundFn (at32 c.rc j) (w j) (w (j + 4)) r

/-- The first `n` rounds, in the order 0, 1, ..., n-1. -/
def roundsUpTo (c : Config) (w : Nat → Word) (n : Nat) (r : Words8) : Words8 :=
  (List.range n).foldl (fun r j => roundAt c w j r) r

/-- `Rounds(w, r)`: the 64 rounds (41_compression.md R117). -/
def rounds (c : Config) (w : Nat → Word) (r : Words8) : Words8 := roundsUpTo c w 64 r

/-- The exclusive or of two sets of eight words (41_compression.md R116). -/
def xor8 (v r : Words8) : Words8 := Vector.zipWith (fun x y => x ^^^ y) v r

/-- `Compress(v, blk)` (41_compression.md R118): depends on `RC` and on nothing else of the configuration. -/
def compress (c : Config) (v : Words8) (blk : List Byte) : Words8 :=
  xor8 v (rounds c (fun i => (expand (blockWords blk)).getD i 0) v)

end Sys2Proof.Machine
end

