-- ==== Sys2Proof/Machine/Sequencer.lean ====
section
/-! DEFINITION. The micro-steps on the state and their sequencing (41_compression.md R105, R106, R114, R116, R120;
10_state.md R31): the procedure `COMPRESS` that ABSORB and FINAL invoke, and the sequencer one micro-step at a time. No
micro-step touches `DOUT`, `DV`, `ERR`, `LEN`, `BUFLEN` or `BUF`. -/

namespace Sys2Proof.Machine

/-- `W[0..15]` written with the words of a block, the other words kept (41_compression.md R105). -/
def putBlock (blk : List Byte) (w : Vector Word 68) : Vector Word 68 :=
  Vector.ofFn (fun j : Fin 68 => if j.val < 16 then blockWord blk j.val else w[j.val])

/-- LOADBLK: `W[0..15]` from `BUF[0..63]` big-endian and `A..H` from `V`, all writes simultaneous
(41_compression.md R105). -/
def doLoadBlk (s : State) : Except Fault State :=
  match memRead .buf s 0 64 with
  | .error f => .error f
  | .ok blk => .ok { s with w := putBlock blk s.w, r := s.v }

/-- EXPAND(j) (41_compression.md R106). -/
def doExpand (j : Nat) (s : State) : State := { s with w := s.w.setIfInBounds j (expandWord (at32 s.w) j) }

/-- ROUND(j) (41_compression.md R114). -/
def doRound (c : Config) (j : Nat) (s : State) : State := { s with r := roundAt c (at32 s.w) j s.r }

/-- FEED: `V[i] <- V[i] xor R[i]`, eight simultaneous writes (41_compression.md R116). -/
def doFeed (s : State) : State := { s with v := xor8 s.v s.r }

/-- `J` set to the count of a loop. -/
def setJ (j : Nat) (s : State) : State := { s with j := BitVec.ofNat 7 j }

/-- `for J in 16..67: do EXPAND(J)` (41_compression.md R120). -/
def expandLoop (s : State) : State := (List.range' 16 52).foldl (fun s j => doExpand j (setJ j s)) s

/-- `for J in 0..63: do ROUND(J)` (41_compression.md R120). -/
def roundLoop (c : Config) (s : State) : State := (List.range 64).foldl (fun s j => doRound c j (setJ j s)) s

/-- The procedure `COMPRESS` (41_compression.md R120). -/
def doCompress (c : Config) (s : State) : Except Fault State :=
  match doLoadBlk { s with phase := .loadblk } with
  | .error f => .error f
  | .ok s1 =>
    let s2 := expandLoop { s1 with phase := .expand }
    let s3 := roundLoop c { s2 with phase := .round }
    let s4 := doFeed { s3 with phase := .feed }
    .ok { s4 with phase := .idle, j := 0 }

/-- One micro-step of the sequencer from (`PHASE`, `J`) and the next pair (10_state.md R31; 41_compression.md R120):
LOADBLK; EXPAND with `J = 16..67`; ROUND with `J = 0..63`; FEED; back to IDLE. An idle sequencer does nothing. A count
its phase does not have stops by name: log entry 9. -/
def microStep (c : Config) (s : State) : Except Fault State :=
  match s.phase with
  | .idle => .ok s
  | .loadblk =>
    match doLoadBlk s with
    | .error f => .error f
    | .ok t => .ok { t with phase := .expand, j := 16 }
  | .expand =>
    if 16 ≤ s.j.toNat ∧ s.j.toNat ≤ 67 then
      let t := doExpand s.j.toNat s
      if s.j.toNat = 67 then .ok { t with phase := .round, j := 0 } else .ok { t with j := s.j + 1 }
    else .error (.noSuchMicroStep .expand s.j.toNat)
  | .round =>
    if s.j.toNat ≤ 63 then
      let t := doRound c s.j.toNat s
      if s.j.toNat = 63 then .ok { t with phase := .feed } else .ok { t with j := s.j + 1 }
    else .error (.noSuchMicroStep .round s.j.toNat)
  | .feed => .ok { doFeed s with phase := .idle, j := 0 }

/-- `n` micro-steps. -/
def microSteps (c : Config) : Nat → State → Except Fault State
  | 0, s => .ok s
  | n + 1, s =>
    match microStep c s with
    | .error f => .error f
    | .ok t => microSteps c n t

/-- The sequencer started on the block in `BUF`: `PHASE <- LOADBLK` (41_compression.md R120). -/
def startCompress (s : State) : State := { s with phase := .loadblk, j := 0 }

end Sys2Proof.Machine
end

