-- ==== Sys2Proof/Machine/Message.lean ====
section
/-! DEFINITION. The commands that carry the message: ABSORB (43_commands.md R143) and FINAL (R144). -/

namespace Sys2Proof.Machine

/-- The largest `LEN`, `2^64 - 8` (10_state.md R26). -/
def lenMax : BitVec 64 := 0xFFFFFFFFFFFFFFF8

/-- The pad byte (00_scope.md R8). -/
def padByte : Byte := 0x80

/-- The effect of an ABSORB that raises no fault: the byte appended at `BUFLEN`, the two counts advanced, and the
block compressed as soon as it is full (43_commands.md R143). -/
def appendByte (c : Config) (data : Byte) (s : State) : Except Fault State :=
  match memWrite s s.bufLen.toNat [data] with
  | .error f => .error f
  | .ok s1 =>
    let s2 := { s1 with bufLen := s1.bufLen + 1, len := s1.len + 8 }
    if s2.bufLen = 64 then
      match doCompress c s2 with
      | .error f => .error f
      | .ok s3 => .ok { s3 with bufLen := 0 }
    else .ok s2

/-- ABSORB under a configuration (43_commands.md R143), the tests in the rule's order. -/
def absorbWith (c : Config) (data : Byte) (s : State) : Host.Outcome State Fault Refusal :=
  unlessFaulted s
    (if s.dv then .next (raise .seqError s)
     else if s.len = lenMax then .next (raise .invalidInput s)
     else toOutcome (appendByte c data s))

/-- FINAL's first block when the length bytes do not fit behind the pad byte: zero bytes up to 63, then `COMPRESS`; the
next free address is 0 (43_commands.md R144). Otherwise the block stays as it is and `n` is the next free address. -/
def closeFirstBlock (c : Config) (n : Nat) (s : State) : Except Fault (State × Nat) :=
  if n > 56 then
    match memWrite s n (List.replicate (64 - n) 0x00) with
    | .error f => .error f
    | .ok s1 =>
      match doCompress c s1 with
      | .error f => .error f
      | .ok s2 => .ok (s2, 0)
  else .ok (s, n)

/-- FINAL's last block: zero bytes from `n` up to 55, the length field at 56..63, then `COMPRESS`
(43_commands.md R144). -/
def closeLastBlock (c : Config) (n : Nat) (s : State) : Except Fault State :=
  match memWrite s n (List.replicate (56 - n) 0x00) with
  | .error f => .error f
  | .ok s1 =>
    match memWrite s1 56 (lengthField s1.len) with
    | .error f => .error f
    | .ok s2 => doCompress c s2

/-- The effect of a FINAL that raises no fault (43_commands.md R144). -/
def finishMessage (c : Config) (s : State) : Except Fault State :=
  match memWrite s s.bufLen.toNat [padByte] with
  | .error f => .error f
  | .ok s1 =>
    match closeFirstBlock c (s.bufLen.toNat + 1) s1 with
    | .error f => .error f
    | .ok (s2, n) =>
      match closeLastBlock c n s2 with
      | .error f => .error f
      | .ok s3 => .ok { s3 with bufLen := 0, dv := true }

/-- FINAL under a configuration (43_commands.md R144). -/
def finalWith (c : Config) (s : State) : Host.Outcome State Fault Refusal :=
  unlessFaulted s
    (if s.dv then .next (raise .seqError s) else toOutcome (finishMessage c s))

/-- ABSORB data (43_commands.md R143). -/
def execAbsorb (data : Byte) (s : State) : Host.Outcome State Fault Refusal := absorbWith Config.hw data s

/-- FINAL (43_commands.md R144). -/
def execFinal (s : State) : Host.Outcome State Fault Refusal := finalWith Config.hw s

end Sys2Proof.Machine
end

