-- ==== Sys2Proof/Machine/Readout.lean ====
section
/-! DEFINITION. The commands that write `DOUT`: RDD (43_commands.md R145) and RDS (R146). -/

namespace Sys2Proof.Machine

/-- `DOUT <- DIG[idx]`, one byte read at an absolute address (43_commands.md R145; 20_memory.md R64). -/
def readDigest (idx : Nat) (s : State) : Except Fault State :=
  match readByte .dig s idx with
  | .error f => .error f
  | .ok b => .ok { s with dout := b }

/-- RDD idx (43_commands.md R145): `SeqError` when there is no digest yet. -/
def execRdd (idx : Nat) (s : State) : Host.Outcome State Fault Refusal :=
  unlessFaulted s
    (if s.dv then toOutcome (readDigest idx s) else .next (raise .seqError s))

/-- RDS (43_commands.md R146), executed in every state; reading clears nothing. -/
def execRds (s : State) : Host.Outcome State Fault Refusal := .next { s with dout := status s }

end Sys2Proof.Machine
end

