-- ==== Sys2Proof/Machine/Dispatch.lean ====
section
/-! DEFINITION. One arm per command (43_commands.md R142). The tests of R142 that depend on the state (faulted: ignored)
stand in the meanings of ABSORB, FINAL and RDD; the illegal word is Machine/Command.lean's. -/

namespace Sys2Proof.Machine

def exec (i : Instr) (s : State) : Host.Outcome State Fault Refusal :=
  match i with
  | .nop => Sys2Proof.Machine.execNop s
  | .init => Sys2Proof.Machine.execInit s
  | .absorb data => Sys2Proof.Machine.execAbsorb data s
  | .final => Sys2Proof.Machine.execFinal s
  | .rdd idx => Sys2Proof.Machine.execRdd idx s
  | .rds => Sys2Proof.Machine.execRds s

end Sys2Proof.Machine
end

