-- ==== Sys2Proof/Machine/Command.lean ====
section
/-! DEFINITION. Executing a command word (43_commands.md R142), the host's moves (70_reset_and_hazards.md R189) and runs
of words (R190). -/

namespace Sys2Proof.Machine

/-- An illegal word: `IllegalCommand` unless the core is faulted, when it is ignored (43_commands.md R142;
60_exceptions.md R161, R164, R165). -/
def execIllegal (s : State) : Host.Outcome State Fault Refusal := unlessFaulted s (.next (raise .illegalCommand s))

/-- `exec(w)`: one command word, executed to completion (43_commands.md R142). -/
def execWord (w : CmdWord) (s : State) : Host.Outcome State Fault Refusal :=
  match decode w with
  | .ok i => exec i s
  | .error _ => execIllegal s

/-- One move of the host: a command word taken, or the reset input (70_reset_and_hazards.md R180, R189). -/
def execInput (m : HostInput) (s : State) : Host.Outcome State Fault Refusal :=
  match m with
  | .word w => execWord w s
  | .reset => .next (takeReset s)

/-- The command port: the next move is taken and executed; with nothing offered the core is idle and holds all its
state (60_exceptions.md R176; 70_reset_and_hazards.md R186). -/
def serveHost (s : State) : Host.Outcome State Fault Refusal :=
  match takeInput s with
  | none => .next s
  | some (m, t) => execInput m t

/-- A run: a finite sequence of command words applied to a state (70_reset_and_hazards.md R190). -/
def runWords : List CmdWord → State → Host.Outcome State Fault Refusal
  | [], s => .next s
  | w :: ws, s =>
    match execWord w s with
    | .next t => runWords ws t
    | .fault f => .fault f
    | .refused f => .refused f

/-- The result of a run besides its final state: `DOUT` after each command (70_reset_and_hazards.md R190). -/
def doutTrace : List CmdWord → State → List Byte
  | [], _ => []
  | w :: ws, s =>
    match execWord w s with
    | .next t => t.dout :: doutTrace ws t
    | .fault _ => []
    | .refused _ => []

end Sys2Proof.Machine
end

