-- ==== Sys2Proof/Machine/Step.lean ====
section
/-! DEFINITION. One step of the machine: one move of the host (00_scope.md R19: "the model's step is therefore one
command"). -/

namespace Sys2Proof.Machine

/-- One step: the host's next move, or none. -/
def step (s : State) : Host.Outcome State Fault Refusal := serveHost s

/-- The host offers a table row's word as its next move, so that the next step executes it: how a program reaches the
core, which has no memory of instructions (10_state.md R30; log entry 7). -/
def State.withFetchWord (s : State) (nbits w : Nat) : State := offerWord (tableWord nbits w) s

end Sys2Proof.Machine
end

