-- ==== Sys2Proof/Machine/Assembly.lean ====
section
/-! DEFINITION. Assembler text (30_encoding.md R81), the pseudo-instructions (R82) and disassembly (R84), on lists of
characters. No command reads any of it: "this syntax exists so that `95_test_vectors.md` can list programs" (R81). What
the rules leave to the reader (blanks, the case of digits, the form of a byte list, a line continued by a backslash) is
DESIGN CHOICE, safe: log entry 15. -/

namespace Sys2Proof

/-- Why a text is no program. -/
inductive AsmError where
  /-- A line does not begin with a mnemonic or a pseudo-instruction of the rules. -/
  | unknownMnemonic
  /-- A command has too many or too few operands, or one that is no number, character or string as its rule asks. -/
  | badOperand
  /-- "An operand out of range is an assembly error, not an illegal word" (30_encoding.md R81). -/
  | operandOutOfRange
  /-- A quote that does not close, or a character in it that is not printable. -/
  | badQuote
  deriving DecidableEq, Repr

/-- The pieces of a line. -/
inductive Token where
  /-- A run of characters without a blank: a mnemonic or a number. -/
  | word (cs : List Char)
  /-- One printable character in single quotes. -/
  | quoted (c : Char)
  /-- A string in double quotes. -/
  | text (cs : List Char)
  /-- The end of a line. -/
  | endOfLine
  deriving DecidableEq, Repr

/-- Where the reader of characters stands; the characters of a piece are held last first. -/
inductive LexState where
  | between
  | inWord (rev : List Char)
  | inComment
  | afterQuote
  | closeQuote (c : Char)
  | inText (rev : List Char)
  deriving DecidableEq, Repr

/-- The single quote. -/
def singleQuote : Char := Char.ofNat 39

/-- The double quote. -/
def doubleQuote : Char := Char.ofNat 34

/-- The end of a line. -/
def newLine : Char := Char.ofNat 10

/-- The backslash, which continues a line. -/
def backslash : Char := Char.ofNat 92

/-- A printable ASCII character, from space to tilde: the reading of R81's "printable ASCII character" is DESIGN CHOICE,
log entry 15. -/
def printable (c : Char) : Bool := decide (32 ≤ c.toNat ∧ c.toNat ≤ 126)

/-- A blank within a line. -/
def blank (c : Char) : Bool := c == ' ' || c == Char.ofNat 9 || c == Char.ofNat 13

/-- A backslash at the end of a line continues it: the two characters read as one blank. The joining comes before the
reading of pieces, so it holds inside a comment and inside quotes too: a comment whose line ends in a backslash goes on
over the next line, and a backslash and a line end between quotes read as a blank. R81 ends a comment at "the end of the
line" and speaks of no continuation. DESIGN CHOICE, safe: log entry 15. -/
def joinLines : List Char → List Char
  | [] => []
  | [c] => [c]
  | c :: d :: rest => if c = backslash ∧ d = newLine then ' ' :: joinLines rest else c :: joinLines (d :: rest)

/-- One character read: the new place and the pieces completed (30_encoding.md R81). R82 says "ASCII string" and gives no
character set and no escape: between double quotes the model takes the printable characters but the double quote, and
rejects every other one. DESIGN CHOICE, safe: log entry 15. -/
def lexStep (st : LexState) (c : Char) : Except AsmError (LexState × List Token) :=
  match st with
  | .between =>
    if c = newLine then .ok (.between, [.endOfLine])
    else if blank c then .ok (.between, [])
    else if c = ';' then .ok (.inComment, [])
    else if c = singleQuote then .ok (.afterQuote, [])
    else if c = doubleQuote then .ok (.inText [], [])
    else .ok (.inWord [c], [])
  | .inWord rev =>
    if c = newLine then .ok (.between, [.word rev.reverse, .endOfLine])
    else if blank c then .ok (.between, [.word rev.reverse])
    else if c = ';' then .ok (.inComment, [.word rev.reverse])
    else .ok (.inWord (c :: rev), [])
  | .inComment => if c = newLine then .ok (.between, [.endOfLine]) else .ok (.inComment, [])
  | .afterQuote => if printable c then .ok (.closeQuote c, []) else .error .badQuote
  | .closeQuote q => if c = singleQuote then .ok (.between, [.quoted q]) else .error .badQuote
  | .inText rev =>
    if c = doubleQuote then .ok (.between, [.text rev.reverse])
    else if printable c then .ok (.inText (c :: rev), [])
    else .error .badQuote

/-- The pieces of a text. -/
def lex (st : LexState) : List Char → Except AsmError (List Token)
  | [] =>
    match st with
    | .between => .ok []
    | .inComment => .ok []
    | .inWord rev => .ok [.word rev.reverse]
    | .afterQuote => .error .badQuote
    | .closeQuote _ => .error .badQuote
    | .inText _ => .error .badQuote
  | c :: cs =>
    match lexStep st c with
    | .error e => .error e
    | .ok (st', done) =>
      match lex st' cs with
      | .error e => .error e
      | .ok ts => .ok (done ++ ts)

/-- The value of a digit in base 16, either case. -/
def digitValue (c : Char) : Option Nat :=
  if 48 ≤ c.toNat ∧ c.toNat ≤ 57 then some (c.toNat - 48)
  else if 97 ≤ c.toNat ∧ c.toNat ≤ 102 then some (c.toNat - 87)
  else if 65 ≤ c.toNat ∧ c.toNat ≤ 70 then some (c.toNat - 55)
  else none

/-- Digits read in a base, after `acc`; none where a character is no digit of it. -/
def digitsValue (base acc : Nat) : List Char → Option Nat
  | [] => some acc
  | c :: cs =>
    match digitValue c with
    | none => none
    | some d => if d < base then digitsValue base (base * acc + d) cs else none

/-- Digits in base 16, with or without `0x` before them. -/
def hexNumber : List Char → Option Nat
  | [] => none
  | [c] => digitsValue 16 0 [c]
  | c :: d :: rest =>
    if c = '0' ∧ d = 'x' then
      match rest with
      | [] => none
      | _ :: _ => digitsValue 16 0 rest
    else digitsValue 16 0 (c :: d :: rest)

/-- A number: hexadecimal after `0x`, else decimal (30_encoding.md R81). -/
def number : List Char → Option Nat
  | [] => none
  | [c] => digitsValue 10 0 [c]
  | c :: d :: rest => if c = '0' ∧ d = 'x' then hexNumber (c :: d :: rest) else digitsValue 10 0 (c :: d :: rest)

/-- A byte of a value, or the range error. -/
def toByte (n : Nat) : Except AsmError Byte := if n < 256 then .ok (BitVec.ofNat 8 n) else .error .operandOutOfRange

/-- ABSORB's operand: a number or one printable character in single quotes (30_encoding.md R81). -/
def byteOperand : Token → Except AsmError Byte
  | .word cs =>
    match number cs with
    | some n => toByte n
    | none => .error .badOperand
  | .quoted c => toByte c.toNat
  | .text _ => .error .badOperand
  | .endOfLine => .error .badOperand

/-- RDD's operand, an index 0..31 (30_encoding.md R81). -/
def idxOperand : Token → Except AsmError Nat
  | .word cs =>
    match number cs with
    | some n => if n ≤ 31 then .ok n else .error .operandOutOfRange
    | none => .error .badOperand
  | .quoted _ => .error .badOperand
  | .text _ => .error .badOperand
  | .endOfLine => .error .badOperand

/-- The bytes of an ASCII string, in order (30_encoding.md R82). -/
def stringBytes (cs : List Char) : List Byte := cs.map (fun c => BitVec.ofNat 8 c.toNat)

/-- The bytes of a hexadecimal byte list, in order (30_encoding.md R82). -/
def hexBytes : List Token → Except AsmError (List Byte)
  | [] => .ok []
  | .word cs :: ts =>
    match hexNumber cs with
    | none => .error .badOperand
    | some n =>
      match toByte n with
      | .error e => .error e
      | .ok b =>
        match hexBytes ts with
        | .error e => .error e
        | .ok bs => .ok (b :: bs)
  | .quoted _ :: _ => .error .badOperand
  | .text _ :: _ => .error .badOperand
  | .endOfLine :: _ => .error .badOperand

/-- `ABSORBS`: one ABSORB per byte, in order (30_encoding.md R82). -/
def absorbs (bs : List Byte) : List Instr := bs.map Instr.absorb

/-- `RDDIGEST`: RDD 0, ..., RDD 31 (30_encoding.md R82). -/
def rdDigest : List Instr := (List.range 32).map Instr.rdd

/-- `HASH "s"`: INIT, the ABSORBs, FINAL, RDDIGEST (30_encoding.md R82). -/
def hashCommands (bs : List Byte) : List Instr := [.init] ++ absorbs bs ++ [.final] ++ rdDigest

/-- A command without an operand. -/
def alone (is : List Instr) : List Token → Except AsmError (List Instr)
  | [] => .ok is
  | _ :: _ => .error .badOperand

/-- The commands of one line (30_encoding.md R81, R82). -/
def assembleLine : List Token → Except AsmError (List Instr)
  | [] => .ok []
  | .word m :: ops =>
    if m = "NOP".toList then alone [.nop] ops
    else if m = "INIT".toList then alone [.init] ops
    else if m = "FINAL".toList then alone [.final] ops
    else if m = "RDS".toList then alone [.rds] ops
    else if m = "RDDIGEST".toList then alone rdDigest ops
    else if m = "ABSORB".toList then
      match ops with
      | [op] =>
        match byteOperand op with
        | .ok b => .ok [.absorb b]
        | .error e => .error e
      | _ => .error .badOperand
    else if m = "RDD".toList then
      match ops with
      | [op] =>
        match idxOperand op with
        | .ok i => .ok [.rdd i]
        | .error e => .error e
      | _ => .error .badOperand
    else if m = "HASH".toList then
      match ops with
      | [.text cs] => .ok (hashCommands (stringBytes cs))
      | _ => .error .badOperand
    else if m = "ABSORBS".toList then
      match ops with
      | [.text cs] => .ok (absorbs (stringBytes cs))
      | ops =>
        match hexBytes ops with
        | .ok bs => .ok (absorbs bs)
        | .error e => .error e
    else .error .unknownMnemonic
  | .quoted _ :: _ => .error .unknownMnemonic
  | .text _ :: _ => .error .unknownMnemonic
  | .endOfLine :: _ => .error .unknownMnemonic

/-- The commands of all lines, `rev` being the pieces of the line under way, last first. -/
def assembleLines (rev : List Token) : List Token → Except AsmError (List Instr)
  | [] => assembleLine rev.reverse
  | .endOfLine :: ts =>
    match assembleLine rev.reverse with
    | .error e => .error e
    | .ok is =>
      match assembleLines [] ts with
      | .error e => .error e
      | .ok js => .ok (is ++ js)
  | .word cs :: ts => assembleLines (.word cs :: rev) ts
  | .quoted c :: ts => assembleLines (.quoted c :: rev) ts
  | .text cs :: ts => assembleLines (.text cs :: rev) ts

/-- The command words of a program text (30_encoding.md R81, R82). -/
def assemble (text : List Char) : Except AsmError (List CmdWord) :=
  match lex .between (joinLines text) with
  | .error e => .error e
  | .ok ts =>
    match assembleLines [] ts with
    | .error e => .error e
    | .ok is => .ok (is.map encode)

/-! ### Disassembly -/

/-- A hexadecimal digit, lower case (log entry 15). -/
def hexDigit (n : Nat) : Char := if n < 10 then Char.ofNat (48 + n) else Char.ofNat (87 + n)

/-- The `n` hexadecimal digits of a value, the most significant first. -/
def hexDigits (v n : Nat) : List Char := (List.range n).map (fun k => hexDigit (v / 16 ^ (n - 1 - k) % 16))

/-- The text of a command (30_encoding.md R84). -/
def commandText : Instr → List Char
  | .nop => "NOP".toList
  | .init => "INIT".toList
  | .absorb data => "ABSORB 0x".toList ++ hexDigits data.toNat 2
  | .final => "FINAL".toList
  | .rdd idx => "RDD 0x".toList ++ hexDigits idx 2
  | .rds => "RDS".toList

/-- Disassembly of a word (30_encoding.md R84). -/
def disassemble (w : CmdWord) : List Char :=
  match decode w with
  | .ok i => commandText i
  | .error _ => "ILLEGAL 0x".toList ++ hexDigits w.toNat 4

end Sys2Proof
end

