-- ==== Sys2Proof/Machine/ParameterSets.lean ====
section
/-! DEFINITION. The three named parameter sets of 00_scope.md R11, for the numbers of 95_test_vectors.md. The machine runs
at none of them: "They are not claims about the repository" (R11), and `Config.hw` stays open. -/

namespace Sys2Proof

/-- The initial vector of PS-G and PS-T, `IV[0]` first (00_scope.md R11). -/
def Config.ivG : Words8 :=
  #v[0x7380166F, 0x4914B2B9, 0x172442D7, 0xDA8A0600, 0xA96F30BC, 0x163138AA, 0xE38DEE4D, 0xB0FB0E4E]

/-- `T_j` of PS-T (00_scope.md R11). -/
def Config.tConstant (j : Nat) : Word := if j ≤ 15 then 0x79CC4519 else 0x7A879D8A

/-- PS-Z: every word of `IV` and `RC` zero (00_scope.md R11). -/
def Config.psZ : Config := { iv := Vector.replicate 8 0, rc := Vector.replicate 64 0 }

/-- PS-G: `RC` zero, the document-literal instance (00_scope.md R11, R10). -/
def Config.psG : Config := { iv := Config.ivG, rc := Vector.replicate 64 0 }

/-- PS-T: `RC[j] = rotl32(T_j, j mod 32)` (00_scope.md R11). -/
def Config.psT : Config where
  iv := Config.ivG
  rc := Vector.ofFn (fun j : Fin 64 => Machine.rotl32 (Config.tConstant j.val) (j.val % 32))

end Sys2Proof
end

