-- ==== Sys2Proof/Machine/Hash.lean ====
section
/-! DEFINITION. The function the core computes: padding (40_padding.md), block splitting, `CompressAll`, `Serialize` and
`Hash` (42_output_and_hash.md). Pure functions; no command reads them. -/

namespace Sys2Proof.Machine

/-- A message whose bit length does not fit the length field: `length >= 2^61` bytes (40_padding.md R95). -/
def tooLong (m : List Byte) : Bool := decide (8 * m.length ≥ 2 ^ 64)

/-- The number of zero bytes: the least `k` with `(L + 1 + k) mod 64 = 56`, in its closed form `(55 - L) mod 64`, a
result in 0..63 (40_padding.md R91, R92). -/
def zeroCount (len : Nat) : Nat := (119 - len % 64) % 64

/-- `Pad(M)`, or the failure `InvalidInput` (40_padding.md R90, R91, R95). -/
def pad (m : List Byte) : Except Cause (List Byte) :=
  if tooLong m then .error .invalidInput
  else .ok (m ++ [0x80] ++ List.replicate (zeroCount m.length) 0x00 ++ bytesBE (8 * m.length) 8)

/-- `Blk(n) = P[64n .. 64n + 63]` (40_padding.md R96). -/
def blk (p : List Byte) (n : Nat) : List Byte := (p.drop (64 * n)).take 64

/-- `CompressAll(v, P)`: `Compress` folded over the blocks of `P` in order (42_output_and_hash.md R135). -/
def compressAll (c : Config) (v : Words8) (p : List Byte) : Words8 :=
  (List.range (p.length / 64)).foldl (fun v n => compress c v (blk p n)) v

/-- `Serialize(v)`: the 32 bytes of the eight words, big-endian, word 0 first (42_output_and_hash.md R130). -/
def serialize (v : Words8) : List Byte := v.toList.flatMap (fun x => bytesBE x.toNat 4)

/-- `Hash(M)` (42_output_and_hash.md R134). -/
def hashMessage (c : Config) (m : List Byte) : Except Cause (List Byte) :=
  match pad m with
  | .error f => .error f
  | .ok p => .ok (serialize (compressAll c c.iv p))

end Sys2Proof.Machine
end

