-- ==== Sys2Proof/Safety.lean ====
section
/-! DEFINITION. What counts as a safe state and a safe run, in the terms the claims use: the invariants between commands
(10_state.md R35), the launch premises (70_reset_and_hazards.md R191), a state that has absorbed a message (10_state.md
R35, item 6), a state whose digest is ready (item 7), and what two states share when stale contents do not count (R38). -/

namespace Sys2Proof.Machine

/-- At most one `ERR` bit is set (10_state.md R35, item 4). -/
def Err.atMostOne (e : Err) : Bool := !(e.len && e.cmd) && !(e.len && e.seq) && !(e.cmd && e.seq)

/-- The invariants between commands (10_state.md R35, items 1 to 5 and 8), and what the model's own form of `BUF` adds:
the list is canonical, and every byte below `BUFLEN` has been written (R38). Items 6 and 7, which speak of the absorbed
message, are `Absorbed` and `Finalised`. -/
structure Invariants (s : State) : Prop where
  /-- Item 1: `0 <= BUFLEN <= 63`. -/
  bufLen_le : s.bufLen.toNat ≤ 63
  /-- Item 2: `LEN mod 8 = 0`. -/
  len_mod : s.len.toNat % 8 = 0
  /-- Item 2: `LEN <= 2^64 - 8`. -/
  len_le : s.len.toNat ≤ 2 ^ 64 - 8
  /-- Item 3, while the message is being absorbed. -/
  absorbing : s.dv = false → s.len.toNat % 512 = 8 * s.bufLen.toNat
  /-- Item 3, after FINAL. -/
  finalised : s.dv = true → s.bufLen = 0
  /-- Item 4: at most one `ERR` bit. -/
  err_one : s.err.atMostOne = true
  /-- Item 5: a message that overflowed is never finalised. -/
  err_len : s.err.len = true → s.dv = false
  /-- Item 8: `PHASE = IDLE`. -/
  phase_idle : s.phase = .idle
  /-- Item 8: `J = 0`. -/
  j_zero : s.j = 0
  /-- The canonical form of `BUF`. -/
  buf_wf : Memory.wf s.buf = true
  /-- Every byte of `BUF[0..BUFLEN-1]` has been written. -/
  buf_written : ∀ a, a < s.bufLen.toNat → ∃ b, readByte .buf s a = .ok b

/-- No fault is latched: the launch premise `NoFault` (70_reset_and_hazards.md R191). -/
def NoFault (s : State) : Prop := s.err = Err.clear

/-- The specified elements have their reset values: the launch premise `CleanEntry` (70_reset_and_hazards.md R191;
10_state.md R36). -/
structure CleanEntry (c : Config) (s : State) : Prop where
  v : s.v = c.iv
  bufLen : s.bufLen = 0
  len : s.len = 0
  dv : s.dv = false
  err : s.err = Err.clear
  dout : s.dout = 0x00
  phase : s.phase = .idle
  j : s.j = 0

/-- The state has absorbed the message `m` and nothing else since the last INIT or reset, without a fault, and is not
finalised (10_state.md R35, item 6): `V` is `CompressAll` of the whole blocks of `m`, `BUF` begins with the rest. -/
structure Absorbed (c : Config) (m : List Byte) (s : State) : Prop where
  dv : s.dv = false
  err : s.err = Err.clear
  len : s.len.toNat = 8 * m.length
  bufLen : s.bufLen.toNat = m.length % 64
  v : s.v = compressAll c c.iv (m.take (64 * (m.length / 64)))
  buf : memRead .buf s 0 (m.length % 64) = .ok (m.drop (64 * (m.length / 64)))

/-- The state has finalised the message `m` (10_state.md R35, item 7): `V` is the final chaining state of `Hash(m)` and
the digest space holds `Hash(m)`. -/
structure Finalised (c : Config) (m : List Byte) (s : State) : Prop where
  dv : s.dv = true
  err : s.err = Err.clear
  len : s.len.toNat = 8 * m.length
  bufLen : s.bufLen = 0
  v : ∃ p, pad m = .ok p ∧ s.v = compressAll c c.iv p
  dig : hashMessage c m = .ok ((List.finRange 32).map (dig s.v))

/-- The state holds the message `m`, absorbed since the last INIT or reset, whether or not a fault is latched
(10_state.md R35, items 2, 3, 6 and 7). -/
structure Holds (c : Config) (m : List Byte) (s : State) : Prop where
  len : s.len.toNat = 8 * m.length
  /-- Item 6: not finalised. -/
  absorbing : s.dv = false → s.bufLen.toNat = m.length % 64 ∧
    s.v = compressAll c c.iv (m.take (64 * (m.length / 64))) ∧
    memRead .buf s 0 (m.length % 64) = .ok (m.drop (64 * (m.length / 64)))
  /-- Item 7: finalised. -/
  finalised : s.dv = true → s.bufLen = 0 ∧ (∃ p, pad m = .ok p ∧ s.v = compressAll c c.iv p) ∧
    hashMessage c m = .ok ((List.finRange 32).map (dig s.v))

/-- The message absorbed since the last INIT or reset after one more move of the host: INIT and reset begin an empty one,
an ABSORB that raises no fault and is not ignored appends its byte (43_commands.md R141, R143). -/
def absorbedAfter (x : HostInput) (s : State) (m : List Byte) : List Byte :=
  match x with
  | .reset => []
  | .word w =>
    match decode w with
    | .ok .init => []
    | .ok (.absorb d) => if faulted s = true ∨ s.dv = true ∨ s.len = lenMax then m else m ++ [d]
    | .ok .nop => m
    | .ok .final => m
    | .ok (.rdd _) => m
    | .ok .rds => m
    | .error _ => m

/-- Two states agree on everything but stale contents (10_state.md R38): they may differ in `A..H`, in `W`, in the
bytes of `BUF` at `BUFLEN` and above, and in the idle sequencer's pair. -/
structure AgreeButStale (s t : State) : Prop where
  v : s.v = t.v
  bufLen : s.bufLen = t.bufLen
  len : s.len = t.len
  dv : s.dv = t.dv
  err : s.err = t.err
  dout : s.dout = t.dout
  inputs : s.inputs = t.inputs
  buf : ∃ bs, memRead .buf s 0 s.bufLen.toNat = .ok bs ∧ memRead .buf t 0 s.bufLen.toNat = .ok bs

/-- Two words that may differ only in the message byte they carry: equal, or two ABSORBs (43_commands.md R143). -/
def SameButData (w w' : CmdWord) : Prop :=
  w = w' ∨ ∃ d d' : Byte, decode w = .ok (.absorb d) ∧ decode w' = .ok (.absorb d')

/-- A run is safe when the machine answers a next state at every one of its steps and the last one meets the
invariants. -/
def SafeRun (k : Nat) (s : State) : Prop := ∃ t, Host.Core.run Sys2Proof.core k s = .next t ∧ Invariants t

end Sys2Proof.Machine
end

