-- ==== Sys2Proof/Certificates/Slice0/Obligations.lean ====
section
/-! DEFINITION. The statements for the provers, one definition each, in the order of OBLIGATIONS.json. Each docstring
names the rules of spec/ it formalises. `Config.hw` is the configuration of the instance, two constants without a body,
so a statement about it holds of every `IV` and `RC`. -/

open Sys2Proof Sys2Proof.Machine

/-! ### Encoding (30_encoding.md) -/

/-- 30_encoding.md R83: the encoder's words, and decoding and encoding are inverse on well-formed commands and on legal
words; so every word that is no command's is illegal. -/
def Obligations.DecodeAndEncodeAreInverse : Prop :=
  (encode .nop = 0x0000 ∧ encode .init = 0x0100 ∧ (∀ d : Byte, encode (.absorb d) = 0x0200 + d.setWidth 16) ∧
    encode .final = 0x0300 ∧ (∀ i : Nat, i ≤ 31 → encode (.rdd i) = 0x0400 + BitVec.ofNat 16 i) ∧
    encode .rds = 0x0500) ∧
  (∀ i : Instr, i.wellFormed = true → decode (encode i) = .ok i) ∧
  (∀ (w : CmdWord) (i : Instr), decode w = .ok i → i.wellFormed = true ∧ encode i = w)

/-- 30_encoding.md R73: a word is the command of a row exactly when `(w & mask) = match`; the rows are disjoint; 292
words are legal and the other 65244 are not. -/
def Obligations.LegalWordsAreTheTableRows : Prop :=
  opcodeRows = [⟨"NOP", 0x0000, 0xFFFF⟩, ⟨"INIT", 0x0100, 0xFFFF⟩, ⟨"ABSORB", 0x0200, 0xFF00⟩,
    ⟨"FINAL", 0x0300, 0xFFFF⟩, ⟨"RDD", 0x0400, 0xFFE0⟩, ⟨"RDS", 0x0500, 0xFFFF⟩] ∧
  (∀ (w : CmdWord) (row : OpcodeRow), row ∈ opcodeRows →
    (rowMatches row w = true ↔ ∃ i, decode w = .ok i ∧ rowOf i = row)) ∧
  (∀ w : CmdWord, (∃ e, decode w = .error e) ↔ ∀ row ∈ opcodeRows, rowMatches row w = false) ∧
  opcodeRows.Pairwise (fun a b => ∀ w : CmdWord, ¬ (rowMatches a w = true ∧ rowMatches b w = true)) ∧
  (∃ l : List CmdWord, l.Nodup ∧ l.length = 292 ∧ ∀ w, w ∈ l ↔ ∃ i, decode w = .ok i) ∧
  (∃ l : List CmdWord, l.Nodup ∧ l.length = 65244 ∧ ∀ w, w ∈ l ↔ ∃ e, decode w = .error e)

/-- 30_encoding.md R78: which words are illegal, and that executing any of them raises `IllegalCommand` and changes
nothing else, or is ignored by a faulted core. -/
def Obligations.IllegalWordsRaiseIllegalCommand : Prop :=
  (∀ w : CmdWord, (∃ e, decode w = .error e) ↔
    (0x0600 ≤ w.toNat ∨ (0x0001 ≤ w.toNat ∧ w.toNat ≤ 0x00FF) ∨ (0x0101 ≤ w.toNat ∧ w.toNat ≤ 0x01FF) ∨
      (0x0301 ≤ w.toNat ∧ w.toNat ≤ 0x03FF) ∨ (0x0501 ≤ w.toNat ∧ w.toNat ≤ 0x05FF) ∨
      (0x0420 ≤ w.toNat ∧ w.toNat ≤ 0x04FF))) ∧
  (∀ (w : CmdWord) (e : Reject) (s : State), decode w = .error e →
    (faulted s = false → execWord w s = .next { s with err := { s.err with cmd := true } }) ∧
    (faulted s = true → execWord w s = .next s))

/-- Words of 95_test_vectors.md section 10 and their decodings, a sanity check of 30_encoding.md R73. -/
def Obligations.WordsOfTheSpecDecode : Prop :=
  decode 0b0000000000000000 = .ok .nop ∧ decode 0b0000000100000000 = .ok .init ∧
  decode 0b0000001001100001 = .ok (.absorb 0x61) ∧ decode 0b0000001100000000 = .ok .final ∧
  decode 0b0000010000011111 = .ok (.rdd 31) ∧ decode 0b0000010100000000 = .ok .rds ∧
  decode 0b0000010000100000 = .error .digestAddressTooLarge ∧ decode 0b0000001110000000 = .error .operandNotAllowed ∧
  decode 0b0000011000000000 = .error .unusedOpcode

/-! ### Assembler text (30_encoding.md R81, R82, R84) -/

/-- 30_encoding.md R84 with R81: a legal word's text is its row's mnemonic, with the operand in hexadecimal if it has
one, and it assembles back to that word alone; an illegal word's text is `ILLEGAL 0x` and four digits whose value in base
16 is the word. The case and the number of an operand's digits are the model's choice (log entry 15), and not stated. -/
def Obligations.DisassemblyAssemblesBack : Prop :=
  (disassemble 0x0000 = "NOP".toList ∧ disassemble 0x0100 = "INIT".toList ∧ disassemble 0x0300 = "FINAL".toList ∧
    disassemble 0x0500 = "RDS".toList) ∧
  (∀ d : Byte, ∃ ds, disassemble (0x0200 + d.setWidth 16) = "ABSORB 0x".toList ++ ds ∧
    digitsValue 16 0 ds = some d.toNat) ∧
  (∀ k : Nat, k ≤ 31 → ∃ ds, disassemble (0x0400 + BitVec.ofNat 16 k) = "RDD 0x".toList ++ ds ∧
    digitsValue 16 0 ds = some k) ∧
  (∀ (w : CmdWord) (i : Instr), decode w = .ok i → assemble (disassemble w) = .ok [w]) ∧
  (∀ (w : CmdWord) (e : Reject), decode w = .error e →
    ∃ ds, disassemble w = "ILLEGAL 0x".toList ++ ds ∧ ds.length = 4 ∧ digitsValue 16 0 ds = some w.toNat)

/-- 30_encoding.md R81: ABSORB's three spellings of a byte and RDD's two of an index, hexadecimal digits in lower case, in
upper case or mixed and with any leading zeros, a comment after them; the commands that take nothing; and an operand out
of range as an assembly error, not an illegal word. The model's choices, log entry 15: that the printable characters are
32 to 126, the space and the quote itself among them, and that digits may be of either case (R81 itself writes `0x1F`). -/
def Obligations.OperandSpellingsAssemble : Prop :=
  (∀ n : Nat, 32 ≤ n → n ≤ 126 →
    assemble ("ABSORB ".toList ++ [singleQuote, Char.ofNat n, singleQuote]) = .ok [0x0200 + BitVec.ofNat 16 n]) ∧
  (∀ n : Nat, n ≤ 255 →
    assemble ("ABSORB 0x".toList ++ Nat.toDigits 16 n ++ " ; byte".toList) = .ok [0x0200 + BitVec.ofNat 16 n] ∧
    assemble ("ABSORB ".toList ++ Nat.toDigits 10 n) = .ok [0x0200 + BitVec.ofNat 16 n]) ∧
  (∀ n : Nat, n ≤ 31 →
    assemble ("RDD 0x".toList ++ Nat.toDigits 16 n) = .ok [0x0400 + BitVec.ofNat 16 n] ∧
    assemble ("RDD ".toList ++ Nat.toDigits 10 n ++ "; index".toList) = .ok [0x0400 + BitVec.ofNat 16 n]) ∧
  assemble "RDD 0x1F".toList = .ok [0x041F] ∧
  (∀ n : Nat, n ≤ 255 →
    assemble ("ABSORB 0x".toList ++ (Nat.toDigits 16 n).map Char.toUpper) = .ok [0x0200 + BitVec.ofNat 16 n]) ∧
  (∀ n : Nat, n ≤ 31 →
    assemble ("RDD 0x".toList ++ (Nat.toDigits 16 n).map Char.toUpper) = .ok [0x0400 + BitVec.ofNat 16 n]) ∧
  (∀ (ds : List Char) (n : Nat), ds ≠ [] → digitsValue 16 0 ds = some n →
    assemble ("ABSORB 0x".toList ++ ds) =
      (if n ≤ 255 then .ok [0x0200 + BitVec.ofNat 16 n] else .error .operandOutOfRange) ∧
    assemble ("RDD 0x".toList ++ ds) =
      (if n ≤ 31 then .ok [0x0400 + BitVec.ofNat 16 n] else .error .operandOutOfRange)) ∧
  (assemble "NOP".toList = .ok [0x0000] ∧ assemble "INIT".toList = .ok [0x0100] ∧
    assemble "FINAL".toList = .ok [0x0300] ∧ assemble "RDS".toList = .ok [0x0500]) ∧
  (∀ m ∈ ["NOP".toList, "INIT".toList, "FINAL".toList, "RDS".toList], ∀ (t : Token) (ts : List Token),
    assembleLine (.word m :: t :: ts) = .error .badOperand) ∧
  (∀ (cs : List Char) (n : Nat), number cs = some n →
    (256 ≤ n → assembleLine [.word "ABSORB".toList, .word cs] = .error .operandOutOfRange) ∧
    (32 ≤ n → assembleLine [.word "RDD".toList, .word cs] = .error .operandOutOfRange))

/-- 30_encoding.md R82: the expansions of the three pseudo-instructions, for every string of printable characters without a
double quote and every list of bytes, the empty one among them. The set of a string's characters and the text of a byte
list are the model's choice: log entry 15. -/
def Obligations.PseudoInstructionsExpand : Prop :=
  (∀ cs : List Char, (∀ c ∈ cs, printable c = true ∧ c ≠ doubleQuote) →
    assemble ("ABSORBS ".toList ++ [doubleQuote] ++ cs ++ [doubleQuote]) =
      .ok (cs.map (fun c => 0x0200 + BitVec.ofNat 16 c.toNat)) ∧
    assemble ("HASH ".toList ++ [doubleQuote] ++ cs ++ [doubleQuote]) =
      .ok ([0x0100] ++ cs.map (fun c => 0x0200 + BitVec.ofNat 16 c.toNat) ++ [0x0300] ++
        (List.range 32).map (fun i => 0x0400 + BitVec.ofNat 16 i))) ∧
  (∀ bs : List Byte, assemble ("ABSORBS".toList ++ bs.flatMap (fun b => ' ' :: hexDigits b.toNat 2)) =
    .ok (bs.map (fun b => 0x0200 + b.setWidth 16))) ∧
  assemble "RDDIGEST".toList = .ok ((List.range 32).map (fun i => 0x0400 + BitVec.ofNat 16 i))

/-! ### The step and the host's moves -/

/-- A step runs the decoded command: when the host's next move is a word that decodes to `i`, the step is `exec i` on
the state that has taken the word (00_scope.md R19; 70_reset_and_hazards.md R186). `inputs` is the model's own field:
log entry 7. -/
def Obligations.StepRunsTheDecodedCommand : Prop :=
  ∀ (s : State) (w : CmdWord) (rest : List HostInput) (i : Instr),
    s.inputs = .word w :: rest → decode w = .ok i → step s = exec i { s with inputs := rest }

/-- The rest of the step: an illegal word is executed as one (43_commands.md R142); with nothing offered the core holds
all its state (60_exceptions.md R176); a command leaves the host's later moves alone; `k` steps on `k` words are the
run of those words (70_reset_and_hazards.md R190). `inputs` is the model's own field: log entry 7. -/
def Obligations.StepServesTheHost : Prop :=
  (∀ (s : State) (w : CmdWord) (rest : List HostInput) (e : Reject),
    s.inputs = .word w :: rest → decode w = .error e → step s = execIllegal { s with inputs := rest }) ∧
  (∀ s : State, s.inputs = [] → step s = .next s) ∧
  (∀ (w : CmdWord) (s t : State), execWord w s = .next t → t.inputs = s.inputs) ∧
  (∀ (ws : List CmdWord) (rest : List HostInput) (s : State),
    Host.Core.run Sys2Proof.core ws.length { s with inputs := ws.map HostInput.word ++ rest } =
      runWords ws { s with inputs := rest })

/-- 70_reset_and_hazards.md R180: the reset input puts the state into the reset state, whatever it was, and that state
is the same, for every specified element, as the one the command INIT leaves. -/
def Obligations.ResetInputGivesTheResetState : Prop :=
  ∀ (s : State) (rest : List HostInput), s.inputs = .reset :: rest →
    ∃ t, step s = .next t ∧ t.v = Config.hw.iv ∧ t.bufLen = 0 ∧ t.len = 0 ∧ t.dv = false ∧
      t.err = { len := false, cmd := false, seq := false } ∧ t.dout = 0x00 ∧ t.phase = .idle ∧ t.j = 0 ∧
      t.inputs = rest ∧
      ∀ (s' u : State), exec .init s' = .next u →
        u.v = t.v ∧ u.bufLen = t.bufLen ∧ u.len = t.len ∧ u.dv = t.dv ∧ u.err = t.err ∧ u.dout = t.dout ∧
        u.phase = t.phase ∧ u.j = t.j

/-- 10_state.md R36, both columns: the specified elements after reset, and the same after INIT, which leaves `A..H`,
`W` and `BUF` unchanged. Nothing is said of the elements the rule leaves unspecified. -/
def Obligations.ResetAndInitValues : Prop :=
  CleanEntry Config.hw State.reset ∧
  ∀ s : State, ∃ t, exec .init s = .next t ∧ CleanEntry Config.hw t ∧
    t.r = s.r ∧ t.w = s.w ∧ (∀ a, readByte .buf t a = readByte .buf s a)

/-! ### The commands (43_commands.md) -/

/-- 43_commands.md R140: NOP writes nothing in any state, and `0x0001`..`0x00FF` are not NOP but illegal. -/
def Obligations.NopChangesNothing : Prop :=
  (∀ s : State, exec .nop s = .next s) ∧ (∀ s : State, execWord 0x0000 s = .next s) ∧
  (∀ n : Nat, 0x0001 ≤ n → n ≤ 0x00FF → ∃ e, decode (BitVec.ofNat 16 n) = .error e)

/-- 43_commands.md R141: INIT completes in every state, with exactly these writes; `PHASE` and `J` have their reset
values after it (the table of 10_state.md R36); `A..H`, `W` and `BUF` and the host's moves are kept; it is the only
command that leaves the faulted state; INIT twice is INIT once; INIT then RDS gives `DOUT = 0x00`; INIT then FINAL hashes
the empty message. -/
def Obligations.InitBeginsANewMessage : Prop :=
  (∀ (w : CmdWord) (s t : State), faulted s = true → execWord w s = .next t → faulted t = false → w = 0x0100) ∧
  ∀ s : State, ∃ t, exec .init s = .next t ∧
    t = { s with v := Config.hw.iv, bufLen := 0, len := 0, dv := false,
                 err := { len := false, cmd := false, seq := false }, dout := 0x00, phase := .idle, j := 0 } ∧
    exec .init t = .next t ∧ exec .rds t = .next t ∧ ∃ u, exec .final t = .next u ∧ Finalised Config.hw [] u

/-- 43_commands.md R143: ABSORB, case by case. Faulted: ignored. `DV = 1`: `SeqError`. `LEN = 2^64 - 8`:
`InvalidInput`. Otherwise it completes: the byte stands at address `BUFLEN` and every other byte of `BUF` is as before;
below 63 nothing but the two counts changes besides; at 63 the full block `BUF[0..63]` is compressed into `V`, `W` and
`A..H` are that block's, and `BUFLEN` is 0. The bytes below `BUFLEN` are written (10_state.md R38) and
`BUFLEN <= 63` (R35), which the invariant gives. -/
def Obligations.AbsorbFollowsItsRule : Prop :=
  ∀ (d : Byte) (s : State),
    (faulted s = true → exec (.absorb d) s = .next s) ∧
    (faulted s = false → s.dv = true →
      exec (.absorb d) s = .next { s with err := { s.err with seq := true } }) ∧
    (faulted s = false → s.dv = false → s.len = 0xFFFFFFFFFFFFFFF8 →
      exec (.absorb d) s = .next { s with err := { s.err with len := true } }) ∧
    (faulted s = false → s.dv = false → s.len ≠ 0xFFFFFFFFFFFFFFF8 → s.bufLen.toNat < 63 →
      ∃ t, exec (.absorb d) s = .next t ∧
        t = { s with buf := t.buf, bufLen := s.bufLen + 1, len := s.len + 8 } ∧
        readByte .buf t s.bufLen.toNat = .ok d ∧
        ∀ a, a ≠ s.bufLen.toNat → readByte .buf t a = readByte .buf s a) ∧
    (∀ bs : List Byte, faulted s = false → s.dv = false → s.len ≠ 0xFFFFFFFFFFFFFFF8 → s.bufLen.toNat = 63 →
      memRead .buf s 0 63 = .ok bs →
      ∃ t, exec (.absorb d) s = .next t ∧
        t = { s with v := compress Config.hw s.v (bs ++ [d]), w := t.w, r := t.r, buf := t.buf,
                     bufLen := 0, len := s.len + 8, phase := .idle, j := 0 } ∧
        t.w.toList = expand (blockWords (bs ++ [d])) ∧ t.r = rounds Config.hw (at32 t.w) s.v ∧
        readByte .buf t 63 = .ok d ∧
        ∀ a, a ≠ 63 → readByte .buf t a = readByte .buf s a)

/-- 43_commands.md R144: FINAL, case by case. Faulted: ignored. `DV = 1`: `SeqError`, nothing written. Otherwise it
completes: with `BUFLEN <= 55` one block (the bytes held, `0x80`, zero bytes, the length) is compressed; with
`BUFLEN` in 56..63 two are (the bytes held, `0x80`, zero bytes; then 56 zero bytes and the length). Afterwards `BUF`
holds the last block, `W` and `A..H` are that block's, `BUFLEN = 0`, `DV = 1`, and nothing else has changed. -/
def Obligations.FinalFollowsItsRule : Prop :=
  ∀ s : State,
    (faulted s = true → exec .final s = .next s) ∧
    (faulted s = false → s.dv = true → exec .final s = .next { s with err := { s.err with seq := true } }) ∧
    (∀ bs : List Byte, faulted s = false → s.dv = false → s.bufLen.toNat ≤ 55 →
      memRead .buf s 0 s.bufLen.toNat = .ok bs →
      ∃ t last, last = bs ++ [0x80] ++ List.replicate (55 - bs.length) 0x00 ++ bytesBE s.len.toNat 8 ∧
        exec .final s = .next t ∧
        t = { s with v := compress Config.hw s.v last, w := t.w, r := t.r, buf := t.buf,
                     bufLen := 0, dv := true, phase := .idle, j := 0 } ∧
        t.w.toList = expand (blockWords last) ∧ t.r = rounds Config.hw (at32 t.w) s.v ∧
        memRead .buf t 0 64 = .ok last) ∧
    (∀ bs : List Byte, faulted s = false → s.dv = false → 56 ≤ s.bufLen.toNat → s.bufLen.toNat ≤ 63 →
      memRead .buf s 0 s.bufLen.toNat = .ok bs →
      ∃ t first last, first = bs ++ [0x80] ++ List.replicate (63 - bs.length) 0x00 ∧
        last = List.replicate 56 0x00 ++ bytesBE s.len.toNat 8 ∧
        exec .final s = .next t ∧
        t = { s with v := compress Config.hw (compress Config.hw s.v first) last, w := t.w, r := t.r, buf := t.buf,
                     bufLen := 0, dv := true, phase := .idle, j := 0 } ∧
        t.w.toList = expand (blockWords last) ∧
        t.r = rounds Config.hw (at32 t.w) (compress Config.hw s.v first) ∧
        memRead .buf t 0 64 = .ok last)

/-- 43_commands.md R145: RDD. Faulted: ignored. `DV = 0`: `SeqError`, `DOUT` unchanged. Otherwise it completes and
writes `DOUT` alone, with byte `idx mod 4` from the most significant of word `floor(idx / 4)` of `V`; the reads may come
in any order and be repeated; `0x0420` and up are illegal. -/
def Obligations.RddFollowsItsRule : Prop :=
  (∀ (idx : Nat) (s : State),
    (faulted s = true → exec (.rdd idx) s = .next s) ∧
    (faulted s = false → s.dv = false → exec (.rdd idx) s = .next { s with err := { s.err with seq := true } }) ∧
    (∀ h : idx ≤ 31, faulted s = false → s.dv = true →
      exec (.rdd idx) s = .next { s with
        dout := ((s.v[idx / 4]'(by omega)) >>> (8 * (3 - idx % 4))).setWidth 8 })) ∧
  (∀ (i j : Nat) (s t : State), i ≤ 31 → j ≤ 31 → faulted s = false → s.dv = true →
    exec (.rdd i) s = .next t → exec (.rdd j) t = exec (.rdd j) s) ∧
  (∀ n : Nat, 0x0420 ≤ n → n ≤ 0x04FF → ∃ e, decode (BitVec.ofNat 16 n) = .error e)

/-- 43_commands.md R146 with 10_state.md R33: RDS completes in every state, faulted or not, and writes `DOUT` alone,
with the status byte, bit by bit; the values that can occur under the invariants are seven. -/
def Obligations.RdsReadsTheStatusByte : Prop :=
  (∀ s : State, ∃ b : Byte, exec .rds s = .next { s with dout := b } ∧
    b.getLsbD 0 = s.dv ∧ b.getLsbD 1 = s.err.len ∧ b.getLsbD 2 = s.err.cmd ∧ b.getLsbD 3 = s.err.seq ∧
    (∀ k, 4 ≤ k → b.getLsbD k = false)) ∧
  (∀ s : State, Invariants s → status s ∈ [0x00, 0x01, 0x02, 0x04, 0x05, 0x08, 0x09])

/-! ### Faults (60_exceptions.md) -/

/-- 60_exceptions.md R165, the priority of the outcomes of one command: (1) INIT, NOP and RDS are executed whatever the
state; (2) faulted: ignored; (3) illegal word: `IllegalCommand`; (4) wrong `DV`: `SeqError`; (5) ABSORB at the length
limit: `InvalidInput`; (6) otherwise the command's own effect, with no `ERR` bit changed. -/
def Obligations.OneOutcomeByPriority : Prop :=
  ∀ (w : CmdWord) (s : State),
    (decode w = .ok .init → execWord w s = .next (beginMessage Config.hw s)) ∧
    (decode w = .ok .nop → execWord w s = .next s) ∧
    (decode w = .ok .rds → execWord w s = .next { s with dout := status s }) ∧
    ((decode w ≠ .ok .nop ∧ decode w ≠ .ok .init ∧ decode w ≠ .ok .rds) →
      (faulted s = true → execWord w s = .next s) ∧
      (faulted s = false →
        ((∃ e, decode w = .error e) → execWord w s = .next { s with err := { s.err with cmd := true } }) ∧
        (∀ i, decode w = .ok i →
          ((s.dv = true ∧ ((∃ d, i = .absorb d) ∨ i = .final)) ∨ (s.dv = false ∧ ∃ k, i = .rdd k) →
            execWord w s = .next { s with err := { s.err with seq := true } }) ∧
          (s.dv = false ∧ (∃ d, i = .absorb d) ∧ s.len = 0xFFFFFFFFFFFFFFF8 →
            execWord w s = .next { s with err := { s.err with len := true } }) ∧
          (∀ d, s.dv = false → i = .absorb d → s.len ≠ 0xFFFFFFFFFFFFFFF8 →
            execWord w s = toOutcome (appendByte Config.hw d s)) ∧
          (s.dv = false → i = .final → execWord w s = toOutcome (finishMessage Config.hw s)) ∧
          (∀ k, s.dv = true → i = .rdd k →
            ∃ b, readByte .dig s k = .ok b ∧ execWord w s = .next { s with dout := b }) ∧
          ((s.dv = false ∧ (∃ d, i = .absorb d) ∧ s.len ≠ 0xFFFFFFFFFFFFFFF8) ∨ (s.dv = false ∧ i = .final) ∨
              (s.dv = true ∧ ∃ k, i = .rdd k) →
            ∀ t, execWord w s = .next t → t.err = s.err))))

/-- 60_exceptions.md R163: faults are precise. Whatever the word and the state, a command that sets an `ERR` bit has
written nothing else, and the bit is the one of its cause. -/
def Obligations.FaultsArePrecise : Prop :=
  ∀ (w : CmdWord) (s t : State), execWord w s = .next t →
    (s.err.len = false ∧ t.err.len = true → t = { s with err := { s.err with len := true } }) ∧
    (s.err.cmd = false ∧ t.err.cmd = true → t = { s with err := { s.err with cmd := true } }) ∧
    (s.err.seq = false ∧ t.err.seq = true → t = { s with err := { s.err with seq := true } })

/-- 60_exceptions.md R164: while `ERR != 0` every command but INIT, NOP and RDS, and every illegal word, changes no state
at all; at most one `ERR` bit is ever set, and it names the first fault since the last INIT or reset; a fault is never
followed by a digest byte of the same context. -/
def Obligations.FaultedCoreIgnoresCommands : Prop :=
  (∀ (w : CmdWord) (s : State), faulted s = true →
    decode w ≠ .ok .init → decode w ≠ .ok .nop → decode w ≠ .ok .rds → execWord w s = .next s) ∧
  (∀ (w : CmdWord) (s t : State), s.err.atMostOne = true → execWord w s = .next t → t.err.atMostOne = true) ∧
  (∀ (ws : List CmdWord) (s t : State), faulted s = true → (∀ w ∈ ws, decode w ≠ .ok .init) →
    runWords ws s = .next t → t.err = s.err ∧ t.dv = s.dv ∧ (t.dout = s.dout ∨ t.dout = status s))

/-- 60_exceptions.md R166 and 10_state.md R28: an `ERR` bit once set stays set until reset or INIT, each of which clears
all three and starts a new message from `IV`; so the faulted state is left by INIT and reset alone. -/
def Obligations.OnlyInitAndResetClearFaults : Prop :=
  (∀ (m : HostInput) (s t : State), execInput m s = .next t → m ≠ .reset → m ≠ .word 0x0100 →
    (s.err.len = true → t.err.len = true) ∧ (s.err.cmd = true → t.err.cmd = true) ∧
    (s.err.seq = true → t.err.seq = true)) ∧
  (∀ (m : HostInput) (s : State), (m = .reset ∨ m = .word 0x0100) →
    ∃ t, execInput m s = .next t ∧ t.err = { len := false, cmd := false, seq := false } ∧
      Absorbed Config.hw [] t)

/-! ### Who writes which register (10_state.md) -/

/-- 10_state.md R27: `DV` is set to 1 by FINAL when it completes without fault, cleared by reset and INIT, changed by
nothing else; ABSORB and FINAL with `DV = 1` and RDD with `DV = 0` raise `SeqError`; RDS shows it as bit 0. -/
def Obligations.DigestValidHasTwoWriters : Prop :=
  (∀ (m : HostInput) (s t : State), execInput m s = .next t →
    (t.dv = s.dv ∨ (t.dv = true ∧ m = .word 0x0300 ∧ t.err = s.err) ∨
      (t.dv = false ∧ (m = .reset ∨ m = .word 0x0100)))) ∧
  (∀ s t : State, exec .final s = .next t → t.err = Err.clear → t.dv = true) ∧
  (∀ s t : State, exec .init s = .next t → t.dv = false) ∧
  (∀ s : State, (takeReset s).dv = false) ∧
  (∀ (d : Byte) (k : Nat) (s : State), faulted s = false →
    (s.dv = true → exec (.absorb d) s = .next (raise .seqError s) ∧ exec .final s = .next (raise .seqError s)) ∧
    (s.dv = false → exec (.rdd k) s = .next (raise .seqError s))) ∧
  (∀ s t : State, exec .rds s = .next t → t.dout.getLsbD 0 = s.dv)

/-- 10_state.md R29: `DOUT` is written by RDD (a digest byte), RDS (the status byte), reset and INIT (`0x00`), and by
nothing else; a command that faults or is ignored leaves it unchanged. -/
def Obligations.DoutHasFourWriters : Prop :=
  ∀ (m : HostInput) (s t : State), execInput m s = .next t →
    t.dout = s.dout ∨
    (m = .reset ∧ t.dout = 0x00) ∨
    (m = .word 0x0100 ∧ t.dout = 0x00) ∨
    (m = .word 0x0500 ∧ t.dout = status s) ∨
    (∃ k : Fin 32, m = .word (0x0400 + BitVec.ofNat 16 k.val) ∧ s.dv = true ∧ faulted s = false ∧ t.dout = dig s.v k)

/-- 10_state.md R26: `LEN` is written by reset and INIT (0) and by ABSORB (`LEN + 8`, without wrapping) alone, and stays
a multiple of 8, at most `2^64 - 8`. -/
def Obligations.LengthCounterNeverWraps : Prop :=
  ∀ (m : HostInput) (s t : State), s.len.toNat % 8 = 0 → execInput m s = .next t →
    (t.len = s.len ∨ (t.len = 0 ∧ (m = .reset ∨ m = .word 0x0100)) ∨
      (t.len.toNat = s.len.toNat + 8 ∧ ∃ d : Byte, m = .word (0x0200 + d.setWidth 16))) ∧
    t.len.toNat % 8 = 0 ∧ t.len.toNat ≤ 2 ^ 64 - 8

/-- 10_state.md R21 and 20_memory.md R64: `V` changes only by reset, INIT (both to `IV`), an ABSORB that fills the block,
and FINAL; a byte of `BUF` changes only by an ABSORB at the append address `BUFLEN`, by FINAL, and by reset. -/
def Obligations.ChainingStateAndBufferWriters : Prop :=
  ∀ (m : HostInput) (s t : State), execInput m s = .next t →
    (t.v = s.v ∨ ((m = .reset ∨ m = .word 0x0100) ∧ t.v = Config.hw.iv) ∨
      ((∃ d : Byte, m = .word (0x0200 + d.setWidth 16)) ∧ s.bufLen.toNat = 63 ∧ s.dv = false) ∨
      (m = .word 0x0300 ∧ s.dv = false)) ∧
    (∀ a, readByte .buf t a = readByte .buf s a ∨ m = .reset ∨ (m = .word 0x0300 ∧ s.dv = false) ∨
      (a = s.bufLen.toNat ∧ ∃ d : Byte, m = .word (0x0200 + d.setWidth 16) ∧ readByte .buf t a = .ok d))

/-- 10_state.md R21 ("no command reads `V` while `DV = 0`"): before FINAL the value of `DOUT` after one command depends on
`ERR` and on `DOUT` alone, whatever `V`, `A..H`, `W`, `BUF`, `LEN` and `BUFLEN` hold. It says nothing of `ERR` after the
command; runs of commands are RunsBeforeFinalShowNoMessage's. -/
def Obligations.OneOutputBeforeFinalShowsNoMessage : Prop :=
  ∀ (w : CmdWord) (s s' t t' : State), s.dv = false → s'.dv = false → s.err = s'.err → s.dout = s'.dout →
    execWord w s = .next t → execWord w s' = .next t' → t.dout = t'.dout

/-- 10_state.md R38: stale contents of `BUF`, `W` and `A..H` never influence `V`, `DOUT`, `DV` or `ERR`. Two states that
agree on everything else both complete every run of words, show the same output after each of them, and still agree at
the end. -/
def Obligations.StaleContentsNeverMatter : Prop :=
  ∀ (ws : List CmdWord) (s s' : State), s.bufLen.toNat ≤ 63 → AgreeButStale s s' →
    ∃ t t', runWords ws s = .next t ∧ runWords ws s' = .next t' ∧ AgreeButStale t t' ∧
      doutTrace ws s = doutTrace ws s'

/-! ### Invariants -/

/-- 10_state.md R35, items 1 to 5 and 8, and the canonical form of `BUF`, at reset. -/
def Obligations.InvariantsHoldAtReset : Prop := Invariants State.reset

/-- 10_state.md R35, items 1 to 5 and 8, and the canonical form of `BUF`: every step keeps them, from every state. -/
def Obligations.EveryStepKeepsTheInvariants : Prop :=
  ∀ s t : State, Invariants s → step s = .next t → Invariants t

/-- 10_state.md R38 and 70_reset_and_hazards.md R187: a state that meets the invariants never stops: no step of it reads
an unwritten byte or forms an address that does not exist, and every command terminates. -/
def Obligations.InvariantStatesNeverStop : Prop :=
  ∀ s : State, Invariants s → ∃ t, step s = .next t

/-- 10_state.md R35 and R38: every run from reset, whatever words and resets the host sends, answers a next state at
every step and ends in a state that meets the invariants. -/
def Obligations.EveryRunFromResetIsSafe : Prop :=
  ∀ (ms : List HostInput) (k : Nat), SafeRun k { State.reset with inputs := ms }

/-- 10_state.md R35, item 6: an ABSORB on a state that has absorbed `m` gives one that has absorbed `m` and the byte, as
long as the length fits; the state after INIT, and after reset, has absorbed the empty message. -/
def Obligations.AbsorbExtendsTheMessage : Prop :=
  (∀ s t : State, exec .init s = .next t → Absorbed Config.hw [] t) ∧ Absorbed Config.hw [] State.reset ∧
  ∀ (m : List Byte) (d : Byte) (s : State), Absorbed Config.hw m s → m.length + 1 < 2 ^ 61 →
    ∃ t, exec (.absorb d) s = .next t ∧ Absorbed Config.hw (m ++ [d]) t ∧ t.dout = s.dout

/-- 10_state.md R35, item 7: FINAL on a state that has absorbed `m` gives one whose `V` is the final chaining state of
`Hash(m)` and whose digest space is `Hash(m)`. -/
def Obligations.FinalGivesTheHash : Prop :=
  ∀ (m : List Byte) (s : State), Absorbed Config.hw m s →
    ∃ t, exec .final s = .next t ∧ Finalised Config.hw m t ∧ t.dout = s.dout

/-- 10_state.md R35, items 6 and 7, along every move of the host: the state holds the sequence of bytes absorbed since
the last INIT or reset (`absorbedAfter` follows it, move by move), also while a fault is latched. -/
def Obligations.EveryMoveKeepsTheMessage : Prop :=
  Holds Config.hw [] State.reset ∧
  ∀ (x : HostInput) (m : List Byte) (s t : State), Holds Config.hw m s → execInput x s = .next t →
    Holds Config.hw (absorbedAfter x s m) t

/-! ### The whole message (42_output_and_hash.md R136) -/

/-- 42_output_and_hash.md R136, the headline: from any state, faulted or not, INIT, the ABSORBs of a message shorter
than `2^61` bytes and FINAL, with any number of NOP and RDS words anywhere among them, raise no fault and leave
`DV = 1` and `V = CompressAll(IV, Pad(M))`; after that, NOP, RDS and RDD words in any order and number change nothing of
it, and RDD `a` then puts byte `a` of `Hash(M)` into `DOUT`. -/
def Obligations.CommandLayerComputesHash : Prop :=
  ∀ (m : List Byte) (ws : List CmdWord) (s : State), m.length < 2 ^ 61 →
    ws.filter (fun w => decide (w ≠ 0x0000 ∧ w ≠ 0x0500)) =
      [0x0100] ++ m.map (fun d => 0x0200 + d.setWidth 16) ++ [0x0300] →
    ∃ t p d, runWords ws s = .next t ∧ t.err = Err.clear ∧ t.dv = true ∧
      pad m = .ok p ∧ t.v = compressAll Config.hw Config.hw.iv p ∧ hashMessage Config.hw m = .ok d ∧
      ∀ rs : List CmdWord,
        (∀ w ∈ rs, w = 0x0000 ∨ w = 0x0500 ∨ ∃ a : Nat, a ≤ 31 ∧ w = 0x0400 + BitVec.ofNat 16 a) →
        ∃ u, runWords rs t = .next u ∧ u.err = Err.clear ∧ u.dv = true ∧ u.v = t.v ∧
          ∀ a : Nat, a ≤ 31 → ∃ x, execWord (0x0400 + BitVec.ofNat 16 a) u = .next x ∧ d[a]? = some x.dout

/-- 42_output_and_hash.md R136 and 40_padding.md R95, the overlong message: at `2^61 - 1` bytes the next ABSORB raises
`InvalidInput` and stores nothing, and from then on, until an INIT, `DV` stays 0 and no command but RDS writes `DOUT`:
no digest byte is ever produced, as `Hash` of the longer message is `InvalidInput`. -/
def Obligations.OverlongMessageHasNoDigest : Prop :=
  ∀ (m : List Byte) (d : Byte) (s : State), Absorbed Config.hw m s → m.length = 2 ^ 61 - 1 →
    exec (.absorb d) s = .next { s with err := { s.err with len := true } } ∧
    hashMessage Config.hw (m ++ [d]) = .error .invalidInput ∧
    ∀ (ws : List CmdWord) (t : State), (∀ w ∈ ws, w ≠ 0x0100) →
      runWords ws { s with err := { s.err with len := true } } = .next t →
      t.dv = false ∧ t.err = { len := true, cmd := false, seq := false } ∧ (t.dout = s.dout ∨ t.dout = 0x02)

/-! ### The compression function (41_compression.md) -/

/-- 41_compression.md R101: bit `i` of `rotl32(x, n)` is bit `(i - n) mod 32` of `x`; rotation distributes over the
bitwise operators and not over addition; rotations add; all zeros and all ones are fixed. -/
def Obligations.RotationLaws : Prop :=
  (∀ (x : Word) (n i : Nat), n ≤ 31 → i < 32 → (rotl32 x n).getLsbD i = x.getLsbD ((i + 32 - n) % 32)) ∧
  (∀ (x y : Word) (n : Nat), n ≤ 31 → rotl32 (x ^^^ y) n = rotl32 x n ^^^ rotl32 y n ∧
    rotl32 (x &&& y) n = rotl32 x n &&& rotl32 y n ∧ rotl32 (x ||| y) n = rotl32 x n ||| rotl32 y n ∧
    rotl32 (~~~x) n = ~~~ rotl32 x n) ∧
  (∀ (x : Word) (a b : Nat), a ≤ 31 → b ≤ 31 → rotl32 (rotl32 x a) b = rotl32 x ((a + b) % 32)) ∧
  (∀ n : Nat, n ≤ 31 → rotl32 0 n = 0 ∧ rotl32 0xFFFFFFFF n = 0xFFFFFFFF) ∧
  (∃ (x y : Word) (n : Nat), n ≤ 31 ∧ rotl32 (x + y) n ≠ rotl32 x n + rotl32 y n)

/-- 41_compression.md R102 and R103: `FF` is the bitwise majority, symmetric, and `GG` the bitwise choice, not
symmetric. -/
def Obligations.MajorityAndChoice : Prop :=
  (∀ (x y z : Word) (i : Nat), (ff x y z).getLsbD i = decide
    (2 ≤ (x.getLsbD i).toNat + (y.getLsbD i).toNat + (z.getLsbD i).toNat)) ∧
  (∀ x y z : Word, ff x y z = ff y x z ∧ ff x y z = ff x z y) ∧
  (∀ (x y z : Word) (i : Nat), i < 32 → (gg x y z).getLsbD i = if x.getLsbD i then y.getLsbD i else z.getLsbD i) ∧
  (∃ x y z : Word, gg x y z ≠ gg y x z) ∧
  (∀ x y z : Word, ff x y z = (x &&& y) ||| (x &&& z) ||| (y &&& z) ∧ gg x y z = (x &&& y) ||| (~~~x &&& z)) ∧
  (∀ y z : Word, gg 0xFFFFFFFF y z = y ∧ gg 0 y z = z ∧ ff 0xFFFFFFFF y z = y ||| z ∧ ff 0 y z = y &&& z)

/-- 41_compression.md R104: `P0` and `P1` as exclusive ors of the word's own bits, and their linearity. -/
def Obligations.PermutationsAreLinear : Prop :=
  (∀ x : Word, p0 x = x ^^^ x.rotateLeft 9 ^^^ x.rotateLeft 17 ∧ p1 x = x ^^^ x.rotateLeft 15 ^^^ x.rotateLeft 23) ∧
  (∀ x y : Word, p0 (x ^^^ y) = p0 x ^^^ p0 y ∧ p1 (x ^^^ y) = p1 x ^^^ p1 y) ∧
  p0 0 = 0 ∧ p1 0 = 0 ∧ p0 0xFFFFFFFF = 0xFFFFFFFF ∧ p1 0xFFFFFFFF = 0xFFFFFFFF

/-- 41_compression.md R105 with 20_memory.md R51: LOADBLK completes when the 64 bytes of `BUF` are written, gives `W[i]`
the big-endian number of its four bytes and `A..H` the chaining state, and changes nothing else. -/
def Obligations.LoadBlkReadsBigEndianWords : Prop :=
  ∀ (s : State) (b : Nat → Byte), (∀ a, a < 64 → readByte .buf s a = .ok (b a)) →
    ∃ t, doLoadBlk s = .ok t ∧ t = { s with w := t.w, r := s.v } ∧
      (∀ (i : Nat) (h : i < 16), (t.w[i]'(by omega)).toNat =
        (b (4 * i)).toNat * 2 ^ 24 + (b (4 * i + 1)).toNat * 2 ^ 16 + (b (4 * i + 2)).toNat * 2 ^ 8 +
          (b (4 * i + 3)).toNat) ∧
      (∀ (i : Nat) (h : i < 68), 16 ≤ i → t.w[i] = s.w[i])

/-- 41_compression.md R106 and R107: EXPAND(j) writes `W[j]` by the recurrence and nothing else; `Expand` gives 68 words,
keeps the first sixteen, satisfies the recurrence at every `j` of 16..67, and is linear over exclusive or. -/
def Obligations.ExpandFollowsTheRecurrence : Prop :=
  (∀ (s : State) (j : Nat) (h1 : 16 ≤ j) (h2 : j ≤ 67), ∃ t, doExpand j s = t ∧ t = { s with w := t.w } ∧
    t.w[j] = p1 (s.w[j - 16] ^^^ s.w[j - 9] ^^^ p0 (s.w[j - 15] ^^^ s.w[j - 1])) ^^^ p0 (s.w[j - 14] ^^^ s.w[j - 2]) ∧
    ∀ (i : Nat) (h : i < 68), i ≠ j → t.w[i] = s.w[i]) ∧
  ∀ ws vs : List Word, ws.length = 16 → vs.length = 16 →
    (expand ws).length = 68 ∧
    (∀ i, i < 16 → (expand ws).getD i 0 = ws.getD i 0) ∧
    (∀ j, 16 ≤ j → j ≤ 67 → (expand ws).getD j 0 =
      p1 ((expand ws).getD (j - 16) 0 ^^^ (expand ws).getD (j - 9) 0 ^^^
          p0 ((expand ws).getD (j - 15) 0 ^^^ (expand ws).getD (j - 1) 0)) ^^^
        p0 ((expand ws).getD (j - 14) 0 ^^^ (expand ws).getD (j - 2) 0)) ∧
    expand (List.zipWith (fun x y => x ^^^ y) ws vs) = List.zipWith (fun x y => x ^^^ y) (expand ws) (expand vs)

/-- 41_compression.md R110 to R114: ROUND(j) with the four temporaries written out, rotations as bit-vector rotations;
all other state unchanged. -/
def Obligations.RoundFollowsTheFormulas : Prop :=
  ∀ (c : Config) (s : State) (j : Nat) (h : j ≤ 63),
    ∃ SS1 SS2 TT1 TT2 : Word, ∃ A B C D E F G : Word,
      A = s.r[0] ∧ B = s.r[1] ∧ C = s.r[2] ∧ D = s.r[3] ∧ E = s.r[4] ∧ F = s.r[5] ∧ G = s.r[6] ∧
      SS1 = (A.rotateLeft 12 + E + F + c.rc[j]).rotateLeft 7 ∧
      SS2 = SS1 ^^^ A.rotateLeft 12 ∧
      TT1 = ((A &&& B) ||| (A &&& C) ||| (B &&& C)) + SS2 + ((D &&& E) ||| (~~~D &&& F)) + s.w[j] ∧
      TT2 = ((E &&& F) ||| (~~~E &&& G)) + SS1 + ((D &&& E) ||| (D &&& F) ||| (E &&& F)) + s.w[j + 4] ∧
      doRound c j s = { s with r := #v[TT1, A, B.rotateLeft 9, C,
        TT2 ^^^ TT2.rotateLeft 9 ^^^ TT2.rotateLeft 17, E, F, G] }

/-- 10_state.md R23: the old `H` is read by no round, so `H` after round 63 is `E` after round 60 for every input. -/
def Obligations.OldHIsNeverRead : Prop :=
  (∀ (c : Config) (w : Nat → Word) (j : Nat) (r : Words8) (x : Word),
    roundAt c w j (r.set 7 x) = roundAt c w j r) ∧
  (∀ (c : Config) (w : Nat → Word) (r : Words8), (rounds c w r)[7] = (roundsUpTo c w 61 r)[4])

/-- 41_compression.md R116 and R118: FEED is exclusive or, word by word, and writes `V` alone; `Compress` is the exclusive
or of the chaining state and the registers after round 63, which start from the chaining state, and depends on the
configuration through `RC` only. -/
def Obligations.FeedForwardIsExclusiveOr : Prop :=
  (∀ s : State, ∃ t, doFeed s = t ∧ t = { s with v := t.v } ∧ ∀ (i : Nat) (h : i < 8), t.v[i] = s.v[i] ^^^ s.r[i]) ∧
  (∀ (c : Config) (v : Words8) (b : List Byte) (i : Nat) (h : i < 8),
    (compress c v b)[i] = v[i] ^^^ (rounds c (fun j => (expand (blockWords b)).getD j 0) v)[i]) ∧
  (∀ (c c' : Config) (v : Words8) (b : List Byte), c.rc = c'.rc → compress c v b = compress c' v b)

/-- 41_compression.md R121: the procedure `COMPRESS`, run from a state with chaining state `V` and buffer `BUF = blk`,
ends with `V = Compress(V, blk)`, `W = Expand` of the block, `A..H = Rounds(W, V)`, and every other piece of state
unchanged, `BUF` among them. (`PHASE` and `J` end idle, as they are between commands: R120.) -/
def Obligations.CompressProcedureComputesCompress : Prop :=
  ∀ (c : Config) (s : State) (b : List Byte), memRead .buf s 0 64 = .ok b →
    ∃ t, doCompress c s = .ok t ∧
      t = { s with v := compress c s.v b, w := t.w, r := t.r, phase := .idle, j := 0 } ∧
      t.w.toList = expand (blockWords b) ∧ t.r = rounds c (at32 t.w) s.v

/-- 41_compression.md R120 with 10_state.md R31: the sequencer, one micro-step at a time from `PHASE = LOADBLK`, does
the procedure `COMPRESS` in exactly 118 micro-steps, is busy before and idle after them. -/
def Obligations.MicroStepsDoTheProcedure : Prop :=
  ∀ (c : Config) (s : State) (b : List Byte), memRead .buf s 0 64 = .ok b →
    microSteps c 118 (startCompress s) = doCompress c s ∧
    (∀ (k : Nat) (t : State), k < 118 → microSteps c k (startCompress s) = .ok t → cmdReady t = false) ∧
    (∀ t, microSteps c 118 (startCompress s) = .ok t → cmdReady t = true ∧ microStep c t = .ok t)

/-- 41_compression.md R119, a sanity check: `Compress` of the all-zero state and the all-zero block is the all-zero state when every
round constant is zero (the document-literal instance of 00_scope.md R10). -/
def Obligations.ZeroBlockIsAFixedPoint : Prop :=
  ∀ c : Config, c.rc = Vector.replicate 64 0 →
    compress c (Vector.replicate 8 0) (List.replicate 64 0x00) = Vector.replicate 8 0

/-! ### Padding and output (40_padding.md, 42_output_and_hash.md) -/

/-- 40_padding.md R91 and R92: the shape of `Pad(M)`, the number of zero bytes as the least that meets the condition and
in its closed forms, and the number of blocks. -/
def Obligations.PadFollowsItsRule : Prop :=
  ∀ m : List Byte, m.length < 2 ^ 61 →
    ∃ (k : Nat) (lb p : List Byte), pad m = .ok p ∧ p = m ++ [0x80] ++ List.replicate k 0x00 ++ lb ∧
      (m.length + 1 + k) % 64 = 56 ∧ (∀ k', k' < k → (m.length + 1 + k') % 64 ≠ 56) ∧
      lb.length = 8 ∧ (∀ i, i < 8 → lb.getD i 0 = BitVec.ofNat 8 ((8 * m.length) >>> (8 * (7 - i)))) ∧
      (m.length % 64 ≤ 55 → k = 55 - m.length % 64) ∧ (56 ≤ m.length % 64 → k = 119 - m.length % 64) ∧
      p.length = m.length + 9 + k ∧ p.length % 64 = 0 ∧ p.length / 64 = (m.length + 8) / 64 + 1 ∧
      p.length / 64 = m.length / 64 + (if m.length % 64 ≤ 55 then 1 else 2)

/-- 40_padding.md R93: the last block. Its last eight bytes are the length, so `W[14]` and `W[15]` are its two halves;
the pad byte stands at offset `r` of block `floor(L / 64)`, which is the last block when `r <= 55` and the last but one
when `r >= 56`, followed there by zero bytes, the last block then being 56 zero bytes and the length. -/
def Obligations.LastBlockLayout : Prop :=
  ∀ (m p : List Byte), pad m = .ok p →
    ∃ n, p.length = 64 * (n + 1) ∧ (blk p n).drop 56 = bytesBE (8 * m.length) 8 ∧
      (blockWord (blk p n) 14).toNat = (8 * m.length) / 2 ^ 32 ∧
      (blockWord (blk p n) 15).toNat = (8 * m.length) % 2 ^ 32 ∧
      (blk p (m.length / 64)).getD (m.length % 64) 0 = 0x80 ∧
      (m.length % 64 ≤ 55 → m.length / 64 = n) ∧
      (56 ≤ m.length % 64 → m.length / 64 + 1 = n ∧ blk p n = List.replicate 56 0x00 ++ bytesBE (8 * m.length) 8 ∧
        (blk p (m.length / 64)).drop (m.length % 64 + 1) = List.replicate (63 - m.length % 64) 0x00)

/-- 40_padding.md R95, the function's part: `Pad` and `Hash` fail exactly when the message has `2^61` bytes or more, and
`InvalidInput` is the only failure. -/
def Obligations.PadFailsOnOverflowAlone : Prop :=
  ∀ (c : Config) (m : List Byte),
    (pad m = .error .invalidInput ↔ 2 ^ 61 ≤ m.length) ∧ (hashMessage c m = .error .invalidInput ↔ 2 ^ 61 ≤ m.length) ∧
    (∀ e, pad m = .error e → e = .invalidInput) ∧
    (m.length < 2 ^ 61 → ∃ d, hashMessage c m = .ok d ∧ d.length = 32)

/-- 40_padding.md R98: `Pad` is injective on its domain: the last eight bytes give the length, the first `L` bytes the
message, and two different messages never share a padded form. -/
def Obligations.PadIsInjective : Prop :=
  (∀ (m p : List Byte), pad m = .ok p → p.drop (p.length - 8) = bytesBE (8 * m.length) 8 ∧ p.take m.length = m) ∧
  (∀ (m m' p : List Byte), pad m = .ok p → pad m' = .ok p → m = m')

/-- 42_output_and_hash.md R135: `CompressAll` folds `Compress` over the blocks in order. -/
def Obligations.CompressAllFoldsTheBlocks : Prop :=
  ∀ (c : Config) (v : Words8),
    compressAll c v [] = v ∧
    ∀ b rest : List Byte, b.length = 64 → rest.length % 64 = 0 →
      compressAll c v (b ++ rest) = compressAll c (compress c v b) rest

/-- 42_output_and_hash.md R130 with 20_memory.md R53: `Serialize` gives 32 bytes, byte `4i + k` being byte `k` from the
most significant of word `i`; the digest space is `Serialize(V)`; and equal digests come from equal states, so nothing is
truncated. -/
def Obligations.SerializeIsBigEndian : Prop :=
  ∀ v : Words8,
    (serialize v).length = 32 ∧
    (∀ (i k : Nat) (h : i < 8), k < 4 → (serialize v)[4 * i + k]? = some ((v[i] >>> (8 * (3 - k))).setWidth 8)) ∧
    (∀ a : Fin 32, (serialize v)[a.val]? = some (dig v a)) ∧
    (∀ u : Words8, serialize u = serialize v → u = v)

/-- 42_output_and_hash.md R131: the digest space is `Serialize(V)` at all times and differs exactly when `V` does; it is
readable only while `DV = 1`, and while `DV = 1` no command but INIT changes `V`, so a readable digest is stable. -/
def Obligations.ReadableDigestIsStable : Prop :=
  (∀ (s : State) (a : Nat), a ≤ 31 →
    ∃ b, memRead .dig s a 1 = .ok [b] ∧ (serialize s.v)[a]? = some b) ∧
  (∀ s t : State, (∀ a, a ≤ 31 → memRead .dig s a 1 = memRead .dig t a 1) ↔ s.v = t.v) ∧
  (∀ (s : State) (a : Nat), s.dv = false → ∀ t, exec (.rdd a) s = .next t → t.dout = s.dout) ∧
  (∀ (w : CmdWord) (s t : State), s.dv = true → w ≠ 0x0100 → execWord w s = .next t → t.v = s.v ∧ t.dv = true)

/-! ### The byte spaces (20_memory.md) -/

/-- 20_memory.md R50, R57 and R59, through the model's own read of one byte: a stored byte is read back, every other byte
is as before, and the two spaces have exactly 64 and 32 addresses. The model's choices: that a read outside a space stops
by the name `noSuchAddress` (log entries 11 and 12; R57 says that no such address can be formed), and the canonical form
of `BUF`, which stores keep and in which memories that read alike are equal (log entry 17). -/
def Obligations.MemoryReadsWhatWasWritten : Prop :=
  (∀ (s t : State) (a : Nat) (b : Byte), storeByte s a b = .ok t →
    a < 64 ∧ t = { s with buf := t.buf } ∧ readByte .buf t a = .ok b ∧
    (∀ x, x ≠ a → readByte .buf t x = readByte .buf s x) ∧ (Memory.wf s.buf = true → Memory.wf t.buf = true)) ∧
  (∀ (s : State) (a : Nat) (b : Byte), a < 64 → ∃ t, storeByte s a b = .ok t) ∧
  (∀ (s : State) (a : Nat), (readByte .buf s a = .error (.noSuchAddress .buf a) ↔ 64 ≤ a) ∧
    (readByte .dig s a = .error (.noSuchAddress .dig a) ↔ 32 ≤ a)) ∧
  (∀ m m' : Memory, Memory.wf m = true → Memory.wf m' = true → (∀ a, Memory.read m a = Memory.read m' a) → m = m')

/-- 20_memory.md R51 and R52 with 00_scope.md R15: `BE32` and `BE64` are the big-endian numbers of their bytes, and the
length field is the bytes whose `BE64` is `LEN`. -/
def Obligations.BigEndianNumbers : Prop :=
  (∀ b0 b1 b2 b3 : Byte, (be32 b0 b1 b2 b3).toNat =
    b0.toNat * 2 ^ 24 + b1.toNat * 2 ^ 16 + b2.toNat * 2 ^ 8 + b3.toNat) ∧
  (∀ b0 b1 b2 b3 b4 b5 b6 b7 : Byte, (be64 b0 b1 b2 b3 b4 b5 b6 b7).toNat =
    (be32 b0 b1 b2 b3).toNat * 2 ^ 32 + (be32 b4 b5 b6 b7).toNat) ∧
  (∀ len : BitVec 64, ∃ b0 b1 b2 b3 b4 b5 b6 b7 : Byte,
    lengthField len = [b0, b1, b2, b3, b4, b5, b6, b7] ∧ be64 b0 b1 b2 b3 b4 b5 b6 b7 = len)

/-! ### Runs before FINAL, and the parameter sets -/

/-- 00_scope.md R7 and 10_state.md R21: before FINAL nothing of the message is observable, over whole runs. Two states that
meet the invariants, are not finalised and agree in `ERR`, `DOUT` and `LEN` (a host knows how many bytes it sent) complete
any two runs without FINAL that differ at most in the bytes their ABSORBs carry, show the same `DOUT` after every command
and end with the same `ERR`, `DOUT` and `LEN`, so an RDS that follows shows the same too. -/
def Obligations.RunsBeforeFinalShowNoMessage : Prop :=
  ∀ (ws ws' : List CmdWord) (s s' : State), Invariants s → Invariants s' → s.dv = false → s'.dv = false →
    s.err = s'.err → s.dout = s'.dout → s.len = s'.len → List.Forall₂ SameButData ws ws' → (∀ w ∈ ws, w ≠ 0x0300) →
    ∃ t t', runWords ws s = .next t ∧ runWords ws' s' = .next t' ∧ doutTrace ws s = doutTrace ws' s' ∧
      t.dv = false ∧ t'.dv = false ∧ t.err = t'.err ∧ t.dout = t'.dout ∧ t.len = t'.len

/-- 00_scope.md R11: the three named parameter sets, word for word, and the round constants of PS-T both by the rule's
formula and as the table of 95_test_vectors.md section 6.2 lists them. -/
def Obligations.ParameterSetsAreTheTable : Prop :=
  Config.psZ.iv = Vector.replicate 8 0 ∧ Config.psZ.rc = Vector.replicate 64 0 ∧
  Config.psG.iv = #v[0x7380166F, 0x4914B2B9, 0x172442D7, 0xDA8A0600, 0xA96F30BC, 0x163138AA, 0xE38DEE4D, 0xB0FB0E4E] ∧
  Config.psG.rc = Vector.replicate 64 0 ∧ Config.psT.iv = Config.psG.iv ∧
  (∀ (j : Nat) (h : j < 64), Config.psT.rc[j] = if j ≤ 15 then (0x79CC4519 : Word).rotateLeft (j % 32)
    else (0x7A879D8A : Word).rotateLeft (j % 32)) ∧
  Config.psT.rc.toList =
    [0x79cc4519, 0xf3988a32, 0xe7311465, 0xce6228cb, 0x9cc45197, 0x3988a32f, 0x7311465e, 0xe6228cbc] ++
    [0xcc451979, 0x988a32f3, 0x311465e7, 0x6228cbce, 0xc451979c, 0x88a32f39, 0x11465e73, 0x228cbce6] ++
    [0x9d8a7a87, 0x3b14f50f, 0x7629ea1e, 0xec53d43c, 0xd8a7a879, 0xb14f50f3, 0x629ea1e7, 0xc53d43ce] ++
    [0x8a7a879d, 0x14f50f3b, 0x29ea1e76, 0x53d43cec, 0xa7a879d8, 0x4f50f3b1, 0x9ea1e762, 0x3d43cec5] ++
    [0x7a879d8a, 0xf50f3b14, 0xea1e7629, 0xd43cec53, 0xa879d8a7, 0x50f3b14f, 0xa1e7629e, 0x43cec53d] ++
    [0x879d8a7a, 0x0f3b14f5, 0x1e7629ea, 0x3cec53d4, 0x79d8a7a8, 0xf3b14f50, 0xe7629ea1, 0xcec53d43] ++
    [0x9d8a7a87, 0x3b14f50f, 0x7629ea1e, 0xec53d43c, 0xd8a7a879, 0xb14f50f3, 0x629ea1e7, 0xc53d43ce] ++
    [0x8a7a879d, 0x14f50f3b, 0x29ea1e76, 0x53d43cec, 0xa7a879d8, 0x4f50f3b1, 0x9ea1e762, 0x3d43cec5]
end

