-- ==== Sys2Proof/Laws/Memory.lean ====
section
/-! SUPPORT. The memory operations: read after write, the canonical form kept, and what a completed access can do. -/

namespace Sys2Proof.Machine

@[simp] theorem Memory.read_nil (a : Nat) : Memory.read [] a = none := rfl

theorem Memory.read_write_same (m : Memory) (a : Nat) (b : Byte) : Memory.read (Memory.write m a b) a = some b := by
  induction m with
  | nil => simp [Memory.write, Memory.read]
  | cons c rest ih =>
    obtain ⟨x, y⟩ := c
    simp only [Memory.write]
    split
    · simp [Memory.read]
    · split
      · simp [Memory.read]
      · simp [Memory.read, *]

theorem Memory.read_write_other (m : Memory) {a x : Nat} (b : Byte) (h : x ≠ a) :
    Memory.read (Memory.write m a b) x = Memory.read m x := by
  induction m with
  | nil => simp [Memory.write, Memory.read, Ne.symm h]
  | cons c rest ih =>
    obtain ⟨y, z⟩ := c
    simp only [Memory.write]
    split
    · simp [Memory.read, Ne.symm h]
    · split
      · next h1 => subst h1; simp [Memory.read, Ne.symm h]
      · simp [Memory.read, ih]

/-- Read after write: the byte written at its address, the old byte elsewhere. -/
theorem Memory.read_write (m : Memory) (a x : Nat) (b : Byte) :
    Memory.read (Memory.write m a b) x = if x = a then some b else Memory.read m x := by
  split
  · next h => subst h; exact Memory.read_write_same _ _ _
  · next h => exact Memory.read_write_other _ _ h

theorem Memory.risesFrom_write (m : Memory) (a : Nat) (b : Byte) (lo : Option Nat)
    (h : Memory.risesFrom lo m = true) (hlo : ∀ l, lo = some l → l < a) :
    Memory.risesFrom lo (Memory.write m a b) = true := by
  induction m generalizing lo with
  | nil => cases lo <;> simp_all [Memory.write, Memory.risesFrom]
  | cons c rest ih =>
    obtain ⟨x, y⟩ := c
    simp only [Memory.risesFrom, Bool.and_eq_true] at h
    simp only [Memory.write]
    split
    · cases lo <;> simp_all [Memory.risesFrom]
    · split
      · next h1 => subst h1; cases lo <;> simp_all [Memory.risesFrom]
      · simp only [Memory.risesFrom, Bool.and_eq_true]
        exact ⟨h.1, ih _ h.2 (by intro l hl; cases hl; omega)⟩

theorem Memory.all_write (m : Memory) (a : Nat) (b : Byte) (p : Host.Cell → Bool) (hm : m.all p = true)
    (hp : p (a, b) = true) : (Memory.write m a b).all p = true := by
  induction m with
  | nil => simp [Memory.write, hp]
  | cons c rest ih =>
    obtain ⟨x, y⟩ := c
    simp only [List.all_cons, Bool.and_eq_true] at hm
    simp only [Memory.write]
    split
    · simp [hm.1, hm.2, hp]
    · split
      · simp [hm.2, hp]
      · simp [hm.1, ih hm.2]

/-- A write below 64 keeps the canonical form. -/
theorem Memory.wf_write {m : Memory} {a : Nat} (b : Byte) (h : Memory.wf m = true) (ha : a < 64) :
    Memory.wf (Memory.write m a b) = true := by
  simp only [Memory.wf, Bool.and_eq_true] at h ⊢
  exact ⟨Memory.risesFrom_write m a b none h.1 (by simp), Memory.all_write m a b _ h.2 (by simpa using ha)⟩

/-- The memory of the reset state has the canonical form. -/
theorem Memory.wf_nil : Memory.wf [] = true := rfl

/-- A list of bytes written at rising addresses: what `memWrite` does to `BUF`. -/
def Memory.writeList (m : Memory) (a : Nat) : List Byte → Memory
  | [] => m
  | b :: bs => Memory.writeList (Memory.write m a b) (a + 1) bs

/-- Read after a write of a list. -/
theorem Memory.read_writeList (m : Memory) (a : Nat) (bs : List Byte) (x : Nat) :
    Memory.read (Memory.writeList m a bs) x =
      if a ≤ x ∧ x < a + bs.length then bs[x - a]? else Memory.read m x := by
  induction bs generalizing m a with
  | nil => simp [Memory.writeList]
  | cons b bs ih =>
    simp only [Memory.writeList, ih, Memory.read_write, List.length_cons]
    by_cases hx : x = a
    · subst hx; simp
    · by_cases h1 : a + 1 ≤ x ∧ x < a + 1 + bs.length
      · have h2 : a ≤ x ∧ x < a + (bs.length + 1) := by omega
        have h3 : x - a = (x - (a + 1)) + 1 := by omega
        simp [h1, h2, h3]
      · have h2 : ¬ (a ≤ x ∧ x < a + (bs.length + 1)) := by omega
        rw [if_neg h1, if_neg h2, if_neg hx]

theorem Memory.wf_writeList {m : Memory} {a : Nat} {bs : List Byte} (h : Memory.wf m = true) (ha : a + bs.length ≤ 64) :
    Memory.wf (Memory.writeList m a bs) = true := by
  induction bs generalizing m a with
  | nil => exact h
  | cons b bs ih =>
    simp only [List.length_cons] at ha
    exact ih (Memory.wf_write b h (by omega)) (by omega)

/-- A write that stays below 64 completes, and changes `BUF` alone. -/
theorem memWrite_eq (s : State) (a : Nat) (bs : List Byte) (h : a + bs.length ≤ 64) :
    memWrite s a bs = .ok { s with buf := Memory.writeList s.buf a bs } := by
  induction bs generalizing s a with
  | nil => rfl
  | cons b bs ih =>
    simp only [List.length_cons] at h
    simp only [memWrite, storeByte, if_pos (show a < 64 by omega)]
    rw [ih _ _ (by omega)]; rfl

/-- Everything a completed write can do. -/
theorem memWrite_ok {s t : State} {a : Nat} {bs : List Byte} (h : memWrite s a bs = .ok t) :
    t = { s with buf := Memory.writeList s.buf a bs } ∧ (bs = [] ∨ a + bs.length ≤ 64) := by
  induction bs generalizing s a with
  | nil => simp only [memWrite, Except.ok.injEq] at h; subst h; exact ⟨rfl, .inl rfl⟩
  | cons b bs ih =>
    simp only [memWrite, storeByte] at h
    split at h
    · simp at h
    · next u hu =>
      split at hu
      · simp only [Except.ok.injEq] at hu
        subst hu
        obtain ⟨h1, h2⟩ := ih h
        refine ⟨h1, .inr ?_⟩
        rcases h2 with rfl | h2
        · simp_all
        · simp only [List.length_cons]; omega
      · simp at hu

/-- When a byte of `BUF` reads. -/
theorem readByte_buf_ok {s : State} {a : Nat} {b : Byte} :
    readByte .buf s a = .ok b ↔ a < 64 ∧ Memory.read s.buf a = some b := by
  simp only [readByte]
  split
  · next h => cases hr : Memory.read s.buf a <;> simp [h]
  · next h => simp [h]

/-- When a list of bytes reads, and what it is. -/
theorem memRead_ok {sp : Space} {s : State} {a n : Nat} {bs : List Byte} :
    memRead sp s a n = .ok bs ↔ bs.length = n ∧ ∀ k (h : k < bs.length), readByte sp s (a + k) = .ok bs[k] := by
  induction n generalizing a bs with
  | zero =>
    simp only [memRead, Except.ok.injEq]
    constructor
    · rintro rfl; simp
    · rintro ⟨h, -⟩; exact (List.length_eq_zero_iff.mp h).symm
  | succ n ih =>
    simp only [memRead]
    constructor
    · intro h
      split at h
      · simp at h
      · next b hb =>
        split at h
        · simp at h
        · next cs hcs =>
          simp only [Except.ok.injEq] at h
          subst h
          obtain ⟨h1, h2⟩ := ih.mp hcs
          refine ⟨by simp [h1], ?_⟩
          intro k hk
          cases k with
          | zero => simpa using hb
          | succ k =>
            have := h2 k (by simpa using hk)
            simpa [Nat.add_assoc, Nat.add_comm 1 k] using this
    · rintro ⟨h1, h2⟩
      cases bs with
      | nil => simp at h1
      | cons b cs =>
        have hb := h2 0 (by simp)
        simp only [Nat.add_zero, List.getElem_cons_zero] at hb
        have hcs : memRead sp s (a + 1) n = .ok cs := by
          refine ih.mpr ⟨by simpa using h1, ?_⟩
          intro k hk
          have := h2 (k + 1) (by simpa using hk)
          simpa [Nat.add_assoc, Nat.add_comm 1 k] using this
        rw [hb, hcs]

/-- Everything a completed store of one byte can do (20_memory.md R56). -/
theorem storeByte_ok {s t : State} {a : Nat} {b : Byte} (h : storeByte s a b = .ok t) :
    a < 64 ∧ t = { s with buf := Memory.write s.buf a b } := by
  simp only [storeByte] at h
  split at h
  · exact ⟨by assumption, (Except.ok.inj h).symm⟩
  · cases h

theorem memWrite_one {s : State} {a : Nat} {b : Byte} : memWrite s a [b] = storeByte s a b := by
  simp only [memWrite]
  split
  · next f hf => exact hf.symm
  · next t ht => exact ht.symm

/-- A read of a space depends on `BUF` and `V` alone. -/
theorem memRead_congr {s t : State} (hb : s.buf = t.buf) (hv : s.v = t.v) (sp : Space) (a n : Nat) :
    memRead sp s a n = memRead sp t a n := by
  have h1 : ∀ x, readByte sp s x = readByte sp t x := by
    intro x; cases sp <;> simp only [readByte, hb, hv]
  induction n generalizing a with
  | zero => rfl
  | succ n ih => simp only [memRead, ih, h1]

theorem reset_buf_wf : Memory.wf State.reset.buf = true := rfl

end Sys2Proof.Machine
end

