-- ==== Sys2Proof/Laws/State.lean ====
section
/-! SUPPORT. One lemma per field per named update of State, each true by rfl, so that no proof unfolds a record update.
An update written out in a meaning needs none: simp reduces its projections. -/

namespace Sys2Proof.Machine

/-! ### `raise` (60_exceptions.md R163) -/

@[simp] theorem raise_v (x : Cause) (s : State) : (raise x s).v = s.v := rfl
@[simp] theorem raise_r (x : Cause) (s : State) : (raise x s).r = s.r := rfl
@[simp] theorem raise_w (x : Cause) (s : State) : (raise x s).w = s.w := rfl
@[simp] theorem raise_buf (x : Cause) (s : State) : (raise x s).buf = s.buf := rfl
@[simp] theorem raise_bufLen (x : Cause) (s : State) : (raise x s).bufLen = s.bufLen := rfl
@[simp] theorem raise_len (x : Cause) (s : State) : (raise x s).len = s.len := rfl
@[simp] theorem raise_dv (x : Cause) (s : State) : (raise x s).dv = s.dv := rfl
@[simp] theorem raise_err (x : Cause) (s : State) : (raise x s).err = s.err.set x := rfl
@[simp] theorem raise_dout (x : Cause) (s : State) : (raise x s).dout = s.dout := rfl
@[simp] theorem raise_phase (x : Cause) (s : State) : (raise x s).phase = s.phase := rfl
@[simp] theorem raise_j (x : Cause) (s : State) : (raise x s).j = s.j := rfl
@[simp] theorem raise_inputs (x : Cause) (s : State) : (raise x s).inputs = s.inputs := rfl

/-! ### `beginMessage` (43_commands.md R141) -/

@[simp] theorem beginMessage_v (c : Config) (s : State) : (beginMessage c s).v = c.iv := rfl
@[simp] theorem beginMessage_r (c : Config) (s : State) : (beginMessage c s).r = s.r := rfl
@[simp] theorem beginMessage_w (c : Config) (s : State) : (beginMessage c s).w = s.w := rfl
@[simp] theorem beginMessage_buf (c : Config) (s : State) : (beginMessage c s).buf = s.buf := rfl
@[simp] theorem beginMessage_bufLen (c : Config) (s : State) : (beginMessage c s).bufLen = 0 := rfl
@[simp] theorem beginMessage_len (c : Config) (s : State) : (beginMessage c s).len = 0 := rfl
@[simp] theorem beginMessage_dv (c : Config) (s : State) : (beginMessage c s).dv = false := rfl
@[simp] theorem beginMessage_err (c : Config) (s : State) : (beginMessage c s).err = Err.clear := rfl
@[simp] theorem beginMessage_dout (c : Config) (s : State) : (beginMessage c s).dout = 0x00 := rfl
@[simp] theorem beginMessage_phase (c : Config) (s : State) : (beginMessage c s).phase = .idle := rfl
@[simp] theorem beginMessage_j (c : Config) (s : State) : (beginMessage c s).j = 0 := rfl
@[simp] theorem beginMessage_inputs (c : Config) (s : State) : (beginMessage c s).inputs = s.inputs := rfl

/-! ### `takeReset` (70_reset_and_hazards.md R180) -/

@[simp] theorem takeReset_v (s : State) : (takeReset s).v = State.reset.v := rfl
@[simp] theorem takeReset_r (s : State) : (takeReset s).r = State.reset.r := rfl
@[simp] theorem takeReset_w (s : State) : (takeReset s).w = State.reset.w := rfl
@[simp] theorem takeReset_buf (s : State) : (takeReset s).buf = State.reset.buf := rfl
@[simp] theorem takeReset_bufLen (s : State) : (takeReset s).bufLen = State.reset.bufLen := rfl
@[simp] theorem takeReset_len (s : State) : (takeReset s).len = State.reset.len := rfl
@[simp] theorem takeReset_dv (s : State) : (takeReset s).dv = State.reset.dv := rfl
@[simp] theorem takeReset_err (s : State) : (takeReset s).err = State.reset.err := rfl
@[simp] theorem takeReset_dout (s : State) : (takeReset s).dout = State.reset.dout := rfl
@[simp] theorem takeReset_phase (s : State) : (takeReset s).phase = State.reset.phase := rfl
@[simp] theorem takeReset_j (s : State) : (takeReset s).j = State.reset.j := rfl
@[simp] theorem takeReset_inputs (s : State) : (takeReset s).inputs = s.inputs := rfl

/-! ### `offerWord` (70_reset_and_hazards.md R189) -/

@[simp] theorem offerWord_v (x : CmdWord) (s : State) : (offerWord x s).v = s.v := rfl
@[simp] theorem offerWord_r (x : CmdWord) (s : State) : (offerWord x s).r = s.r := rfl
@[simp] theorem offerWord_w (x : CmdWord) (s : State) : (offerWord x s).w = s.w := rfl
@[simp] theorem offerWord_buf (x : CmdWord) (s : State) : (offerWord x s).buf = s.buf := rfl
@[simp] theorem offerWord_bufLen (x : CmdWord) (s : State) : (offerWord x s).bufLen = s.bufLen := rfl
@[simp] theorem offerWord_len (x : CmdWord) (s : State) : (offerWord x s).len = s.len := rfl
@[simp] theorem offerWord_dv (x : CmdWord) (s : State) : (offerWord x s).dv = s.dv := rfl
@[simp] theorem offerWord_err (x : CmdWord) (s : State) : (offerWord x s).err = s.err := rfl
@[simp] theorem offerWord_dout (x : CmdWord) (s : State) : (offerWord x s).dout = s.dout := rfl
@[simp] theorem offerWord_phase (x : CmdWord) (s : State) : (offerWord x s).phase = s.phase := rfl
@[simp] theorem offerWord_j (x : CmdWord) (s : State) : (offerWord x s).j = s.j := rfl
@[simp] theorem offerWord_inputs (x : CmdWord) (s : State) : (offerWord x s).inputs = .word x :: s.inputs := rfl

/-! ### `setJ` (10_state.md R31) -/

@[simp] theorem setJ_v (n : Nat) (s : State) : (setJ n s).v = s.v := rfl
@[simp] theorem setJ_r (n : Nat) (s : State) : (setJ n s).r = s.r := rfl
@[simp] theorem setJ_w (n : Nat) (s : State) : (setJ n s).w = s.w := rfl
@[simp] theorem setJ_buf (n : Nat) (s : State) : (setJ n s).buf = s.buf := rfl
@[simp] theorem setJ_bufLen (n : Nat) (s : State) : (setJ n s).bufLen = s.bufLen := rfl
@[simp] theorem setJ_len (n : Nat) (s : State) : (setJ n s).len = s.len := rfl
@[simp] theorem setJ_dv (n : Nat) (s : State) : (setJ n s).dv = s.dv := rfl
@[simp] theorem setJ_err (n : Nat) (s : State) : (setJ n s).err = s.err := rfl
@[simp] theorem setJ_dout (n : Nat) (s : State) : (setJ n s).dout = s.dout := rfl
@[simp] theorem setJ_phase (n : Nat) (s : State) : (setJ n s).phase = s.phase := rfl
@[simp] theorem setJ_j (n : Nat) (s : State) : (setJ n s).j = BitVec.ofNat 7 n := rfl
@[simp] theorem setJ_inputs (n : Nat) (s : State) : (setJ n s).inputs = s.inputs := rfl

/-! ### `startCompress` (41_compression.md R120) -/

@[simp] theorem startCompress_v (s : State) : (startCompress s).v = s.v := rfl
@[simp] theorem startCompress_r (s : State) : (startCompress s).r = s.r := rfl
@[simp] theorem startCompress_w (s : State) : (startCompress s).w = s.w := rfl
@[simp] theorem startCompress_buf (s : State) : (startCompress s).buf = s.buf := rfl
@[simp] theorem startCompress_bufLen (s : State) : (startCompress s).bufLen = s.bufLen := rfl
@[simp] theorem startCompress_len (s : State) : (startCompress s).len = s.len := rfl
@[simp] theorem startCompress_dv (s : State) : (startCompress s).dv = s.dv := rfl
@[simp] theorem startCompress_err (s : State) : (startCompress s).err = s.err := rfl
@[simp] theorem startCompress_dout (s : State) : (startCompress s).dout = s.dout := rfl
@[simp] theorem startCompress_phase (s : State) : (startCompress s).phase = .loadblk := rfl
@[simp] theorem startCompress_j (s : State) : (startCompress s).j = 0 := rfl
@[simp] theorem startCompress_inputs (s : State) : (startCompress s).inputs = s.inputs := rfl

/-! ### EXPAND (41_compression.md R106) -/

@[simp] theorem doExpand_v (n : Nat) (s : State) : (doExpand n s).v = s.v := rfl
@[simp] theorem doExpand_r (n : Nat) (s : State) : (doExpand n s).r = s.r := rfl
@[simp] theorem doExpand_w (n : Nat) (s : State) : (doExpand n s).w = s.w.setIfInBounds n (expandWord (at32 s.w) n) := rfl
@[simp] theorem doExpand_buf (n : Nat) (s : State) : (doExpand n s).buf = s.buf := rfl
@[simp] theorem doExpand_bufLen (n : Nat) (s : State) : (doExpand n s).bufLen = s.bufLen := rfl
@[simp] theorem doExpand_len (n : Nat) (s : State) : (doExpand n s).len = s.len := rfl
@[simp] theorem doExpand_dv (n : Nat) (s : State) : (doExpand n s).dv = s.dv := rfl
@[simp] theorem doExpand_err (n : Nat) (s : State) : (doExpand n s).err = s.err := rfl
@[simp] theorem doExpand_dout (n : Nat) (s : State) : (doExpand n s).dout = s.dout := rfl
@[simp] theorem doExpand_phase (n : Nat) (s : State) : (doExpand n s).phase = s.phase := rfl
@[simp] theorem doExpand_j (n : Nat) (s : State) : (doExpand n s).j = s.j := rfl
@[simp] theorem doExpand_inputs (n : Nat) (s : State) : (doExpand n s).inputs = s.inputs := rfl

/-! ### ROUND (41_compression.md R114) -/

@[simp] theorem doRound_v (c : Config) (n : Nat) (s : State) : (doRound c n s).v = s.v := rfl
@[simp] theorem doRound_r (c : Config) (n : Nat) (s : State) : (doRound c n s).r = roundAt c (at32 s.w) n s.r := rfl
@[simp] theorem doRound_w (c : Config) (n : Nat) (s : State) : (doRound c n s).w = s.w := rfl
@[simp] theorem doRound_buf (c : Config) (n : Nat) (s : State) : (doRound c n s).buf = s.buf := rfl
@[simp] theorem doRound_bufLen (c : Config) (n : Nat) (s : State) : (doRound c n s).bufLen = s.bufLen := rfl
@[simp] theorem doRound_len (c : Config) (n : Nat) (s : State) : (doRound c n s).len = s.len := rfl
@[simp] theorem doRound_dv (c : Config) (n : Nat) (s : State) : (doRound c n s).dv = s.dv := rfl
@[simp] theorem doRound_err (c : Config) (n : Nat) (s : State) : (doRound c n s).err = s.err := rfl
@[simp] theorem doRound_dout (c : Config) (n : Nat) (s : State) : (doRound c n s).dout = s.dout := rfl
@[simp] theorem doRound_phase (c : Config) (n : Nat) (s : State) : (doRound c n s).phase = s.phase := rfl
@[simp] theorem doRound_j (c : Config) (n : Nat) (s : State) : (doRound c n s).j = s.j := rfl
@[simp] theorem doRound_inputs (c : Config) (n : Nat) (s : State) : (doRound c n s).inputs = s.inputs := rfl

/-! ### FEED (41_compression.md R116) -/

@[simp] theorem doFeed_v (s : State) : (doFeed s).v = xor8 s.v s.r := rfl
@[simp] theorem doFeed_r (s : State) : (doFeed s).r = s.r := rfl
@[simp] theorem doFeed_w (s : State) : (doFeed s).w = s.w := rfl
@[simp] theorem doFeed_buf (s : State) : (doFeed s).buf = s.buf := rfl
@[simp] theorem doFeed_bufLen (s : State) : (doFeed s).bufLen = s.bufLen := rfl
@[simp] theorem doFeed_len (s : State) : (doFeed s).len = s.len := rfl
@[simp] theorem doFeed_dv (s : State) : (doFeed s).dv = s.dv := rfl
@[simp] theorem doFeed_err (s : State) : (doFeed s).err = s.err := rfl
@[simp] theorem doFeed_dout (s : State) : (doFeed s).dout = s.dout := rfl
@[simp] theorem doFeed_phase (s : State) : (doFeed s).phase = s.phase := rfl
@[simp] theorem doFeed_j (s : State) : (doFeed s).j = s.j := rfl
@[simp] theorem doFeed_inputs (s : State) : (doFeed s).inputs = s.inputs := rfl

end Sys2Proof.Machine
end

