-- ==== Sys2Proof/Laws/Sequencer.lean ====
section
/-! SUPPORT. The loops of the procedure COMPRESS (41_compression.md R120) and its frame. -/

namespace Sys2Proof.Machine

theorem roundsUpTo_succ (c : Config) (w : Nat → Word) (n : Nat) (r : Words8) :
    roundsUpTo c w (n + 1) r = roundAt c w n (roundsUpTo c w n r) := by
  simp [roundsUpTo, List.range_succ]

theorem roundsUpTo_congr (c : Config) {w w' : Nat → Word} (n : Nat) (r : Words8) (h : ∀ i, i < n + 4 → w i = w' i) :
    roundsUpTo c w n r = roundsUpTo c w' n r := by
  induction n with
  | zero => rfl
  | succ n ih =>
    rw [roundsUpTo_succ, roundsUpTo_succ, ih (fun i hi => h i (by omega))]
    simp only [roundAt, h n (by omega), h (n + 4) (by omega)]

/-- Everything the loop of rounds does (41_compression.md R120). -/
theorem roundLoop_eq (c : Config) (s : State) :
    roundLoop c s = { s with r := rounds c (at32 s.w) s.r, j := 63 } := by
  have key : ∀ n, n ≤ 64 → (List.range n).foldl (fun s j => doRound c j (setJ j s)) s =
      { s with r := roundsUpTo c (at32 s.w) n s.r, j := if n = 0 then s.j else BitVec.ofNat 7 (n - 1) } := by
    intro n
    induction n with
    | zero => intro _; simp [roundsUpTo]
    | succ n ih =>
      intro hn
      rw [List.range_succ, List.foldl_append, ih (by omega)]
      simp [doRound, setJ, roundsUpTo_succ]
  simpa [roundLoop, rounds] using key 64 (le_refl _)

/-- The schedule after `n` expansion steps. -/
def expandSteps (ws : List Word) (n : Nat) : List Word := (List.range n).foldl (fun w _ => expandNext w) ws

theorem expandSteps_succ (ws : List Word) (n : Nat) : expandSteps ws (n + 1) = expandNext (expandSteps ws n) := by
  simp [expandSteps, List.range_succ]

theorem expandSteps_length (ws : List Word) (n : Nat) : (expandSteps ws n).length = ws.length + n := by
  induction n with
  | zero => simp [expandSteps]
  | succ n ih => rw [expandSteps_succ, expandNext]; simp [ih]; omega

theorem expand_eq (ws : List Word) : expand ws = expandSteps ws 52 := rfl

@[simp] theorem blockWords_length (blk : List Byte) : (blockWords blk).length = 16 := by simp [blockWords]

theorem expand_length (blk : List Byte) : (expand (blockWords blk)).length = 68 := by
  rw [expand_eq, expandSteps_length, blockWords_length]

theorem expandWord_congr {w w' : Nat → Word} {j : Nat} (hj : 16 ≤ j) (h : ∀ i, i < j → w i = w' i) :
    expandWord w j = expandWord w' j := by
  simp only [expandWord]
  rw [h (j - 16) (by omega), h (j - 9) (by omega), h (j - 15) (by omega), h (j - 1) (by omega), h (j - 14) (by omega),
    h (j - 2) (by omega)]

theorem at32_setIfInBounds {n : Nat} (w : Vector Word n) (j : Nat) (x : Word) (i : Nat) (hj : j < n) :
    at32 (w.setIfInBounds j x) i = if i = j then x else at32 w i := by
  simp only [at32, Vector.getElem?_setIfInBounds]
  by_cases h : j = i
  · subst h; simp [hj]
  · simp [h, Ne.symm h]

/-- Everything the loop of expansions does (41_compression.md R120): `W` alone changes, to the schedule of its first
sixteen words, besides the count. -/
theorem expandLoop_eq (s : State) : ∃ w' : Vector Word 68, expandLoop s = { s with w := w', j := 67 } ∧
    ∀ ws : List Word, ws.length = 16 → (∀ i, i < 16 → at32 s.w i = ws.getD i 0) →
      ∀ i, i < 68 → at32 w' i = (expand ws).getD i 0 := by
  have key : ∀ n, n ≤ 52 → ∃ w' : Vector Word 68,
      (List.range' 16 n).foldl (fun s j => doExpand j (setJ j s)) s =
        { s with w := w', j := if n = 0 then s.j else BitVec.ofNat 7 (16 + n - 1) } ∧
      ∀ ws : List Word, ws.length = 16 → (∀ i, i < 16 → at32 s.w i = ws.getD i 0) →
        ∀ i, i < 16 + n → at32 w' i = (expandSteps ws n).getD i 0 := by
    intro n
    induction n with
    | zero => intro _; exact ⟨s.w, by simp, fun ws _ h i hi => by simpa [expandSteps] using h i hi⟩
    | succ n ih =>
      intro hn
      obtain ⟨w', h1, h2⟩ := ih (by omega)
      refine ⟨w'.setIfInBounds (16 + n) (expandWord (at32 w') (16 + n)), ?_, ?_⟩
      · rw [List.range'_concat, List.foldl_append, h1]
        simp [doExpand, setJ]
      · intro ws hl h i hi
        have h3 := h2 ws hl h
        have hlen : (expandSteps ws n).length = 16 + n := by rw [expandSteps_length, hl]
        rw [at32_setIfInBounds _ _ _ _ (by omega), expandSteps_succ, expandNext, hlen]
        by_cases hi' : i = 16 + n
        · subst hi'
          rw [if_pos rfl, expandWord_congr (by omega) h3]
          simp [List.getD_eq_getElem?_getD, ← hlen]
        · rw [if_neg hi', h3 i (by omega)]
          simp only [List.getD_eq_getElem?_getD]
          rw [List.getElem?_append_left (by omega)]
  obtain ⟨w', h1, h2⟩ := key 52 (le_refl _)
  exact ⟨w', by simpa [expandLoop] using h1, fun ws hl h i hi => h2 ws hl h i (by omega)⟩

/-- `COMPRESS` completes when the 64 bytes of `BUF` read, and then writes `V`, `W`, `A..H`, `PHASE` and `J` alone. -/
theorem doCompress_frame {c : Config} {s t : State} (h : doCompress c s = .ok t) :
    t = { s with v := t.v, w := t.w, r := t.r, phase := .idle, j := 0 } := by
  simp only [doCompress, doLoadBlk] at h
  split at h
  · cases h
  · next s1 h1 =>
    split at h1
    · cases h1
    · next blk hb =>
      cases h1
      obtain ⟨w', h2, -⟩ := expandLoop_eq { s with phase := .expand, w := putBlock blk s.w, r := s.v }
      simp only [h2, roundLoop_eq, doFeed] at h
      cases h
      rfl

theorem doCompress_completes (c : Config) {s : State} {blk : List Byte} (h : memRead .buf s 0 64 = .ok blk) :
    ∃ t, doCompress c s = .ok t := by
  have h0 : memRead .buf { s with phase := .loadblk } 0 64 = .ok blk := by
    rw [← h]
    exact memRead_congr rfl rfl _ _ _
  exact ⟨_, by simp only [doCompress, doLoadBlk, h0]; rfl⟩

end Sys2Proof.Machine
end

