-- ==== Sys2Proof/Laws/Commands.lean ====
section
/-! SUPPORT. What a command can do, said once: the frames of ABSORB's and FINAL's effects and the inversion of `execWord`,
which later proofs cite instead of unfolding the meanings. -/

namespace Sys2Proof.Machine

theorem toOutcome_next {x : Except Fault State} {t : State} : toOutcome x = .next t ↔ x = .ok t := by
  cases x <;> simp [toOutcome]

/-- A core is not faulted exactly when `ERR` is clear (10_state.md R28). -/
theorem faulted_eq_false {s : State} : faulted s = false ↔ s.err = Err.clear := by
  simp only [faulted, Err.any, Err.clear]
  generalize s.err = e
  obtain ⟨l, c, q⟩ := e
  cases l <;> cases c <;> cases q <;> decide

/-- What ABSORB's effect leaves unchanged, and the counts it leaves (43_commands.md R143). -/
theorem appendByte_frame {c : Config} {d : Byte} {s t : State} (h : appendByte c d s = .ok t) :
    s.bufLen.toNat < 64 ∧ t.buf = Memory.write s.buf s.bufLen.toNat d ∧ t.len = s.len + 8 ∧
      ((s.bufLen + 1 ≠ 64 ∧ t = { s with buf := t.buf, bufLen := s.bufLen + 1, len := t.len }) ∨
       (s.bufLen + 1 = 64 ∧ t = { s with v := t.v, w := t.w, r := t.r, buf := t.buf, bufLen := 0, len := t.len,
                                         phase := .idle, j := 0 })) := by
  simp only [appendByte, memWrite_one] at h
  split at h
  · cases h
  · next s1 h1 =>
    obtain ⟨ha, rfl⟩ := storeByte_ok h1
    split at h
    · next h64 =>
      split at h
      · cases h
      · next s3 h3 =>
        have f := doCompress_frame h3
        cases h
        rw [f]
        exact ⟨ha, rfl, rfl, .inr ⟨h64, rfl⟩⟩
    · next h64 =>
      cases h
      exact ⟨ha, rfl, rfl, .inl ⟨h64, rfl⟩⟩

/-- What FINAL's effect leaves unchanged, and the flags and counts it leaves (43_commands.md R144). -/
theorem finishMessage_frame {c : Config} {s t : State} (h : finishMessage c s = .ok t) :
    s.bufLen.toNat < 64 ∧
    t = { s with v := t.v, w := t.w, r := t.r, buf := t.buf, bufLen := 0, dv := true, phase := .idle, j := 0 } := by
  simp only [finishMessage, memWrite_one] at h
  split at h
  · cases h
  · next s1 h1 =>
    obtain ⟨ha, rfl⟩ := storeByte_ok h1
    refine ⟨ha, ?_⟩
    split at h
    · cases h
    · next s2 n h2 =>
      split at h
      · cases h
      · next s3 h3 =>
        cases h
        have f2 : s2 = { s with v := s2.v, w := s2.w, r := s2.r, buf := s2.buf, phase := s2.phase, j := s2.j } := by
          simp only [closeFirstBlock] at h2
          split at h2
          · split at h2
            · cases h2
            · next u hu =>
              split at h2
              · cases h2
              · next x hx =>
                cases h2
                have := doCompress_frame hx
                rw [this, (memWrite_ok hu).1]
          · cases h2; rfl
        simp only [closeLastBlock] at h3
        split at h3
        · cases h3
        · next u hu =>
          split at h3
          · cases h3
          · next x hx =>
            have e := doCompress_frame h3
            rw [e, (memWrite_ok hx).1, (memWrite_ok hu).1, f2]

/-- Everything one command word can do when it answers a next state (60_exceptions.md R165). -/
inductive CommandEffect (w : CmdWord) (s t : State) : Prop
  | nop (hw : decode w = .ok .nop) (h : t = s)
  | init (hw : decode w = .ok .init) (h : t = beginMessage Config.hw s)
  | rds (hw : decode w = .ok .rds) (h : t = { s with dout := status s })
  | ignored (hf : faulted s = true) (hw : decode w ≠ .ok .nop ∧ decode w ≠ .ok .init ∧ decode w ≠ .ok .rds) (h : t = s)
  | illegal (e : Reject) (hf : faulted s = false) (hw : decode w = .error e) (h : t = raise .illegalCommand s)
  | absorbLate (d : Byte) (hf : faulted s = false) (hw : decode w = .ok (.absorb d)) (hd : s.dv = true)
      (h : t = raise .seqError s)
  | absorbLong (d : Byte) (hf : faulted s = false) (hw : decode w = .ok (.absorb d)) (hd : s.dv = false)
      (hl : s.len = lenMax) (h : t = raise .invalidInput s)
  | absorb (d : Byte) (hf : faulted s = false) (hw : decode w = .ok (.absorb d)) (hd : s.dv = false)
      (hl : s.len ≠ lenMax) (h : appendByte Config.hw d s = .ok t)
  | finalLate (hf : faulted s = false) (hw : decode w = .ok .final) (hd : s.dv = true) (h : t = raise .seqError s)
  | final (hf : faulted s = false) (hw : decode w = .ok .final) (hd : s.dv = false)
      (h : finishMessage Config.hw s = .ok t)
  | rddEarly (k : Nat) (hf : faulted s = false) (hw : decode w = .ok (.rdd k)) (hd : s.dv = false)
      (h : t = raise .seqError s)
  | rdd (k : Fin 32) (hf : faulted s = false) (hw : decode w = .ok (.rdd k.val)) (hd : s.dv = true)
      (h : t = { s with dout := dig s.v k })

/-- The inversion of `execWord`. -/
theorem execWord_cases {w : CmdWord} {s t : State} (h : execWord w s = .next t) : CommandEffect w s t := by
  simp only [execWord] at h
  split at h
  · next i hi =>
    cases i with
    | nop => cases h; exact .nop hi rfl
    | init => cases h; exact .init hi rfl
    | rds => cases h; exact .rds hi rfl
    | absorb d =>
      simp only [exec, execAbsorb, absorbWith, unlessFaulted] at h
      split at h
      · next hf => cases h; exact .ignored hf (by simp [hi]) rfl
      · next hf =>
        simp only [Bool.not_eq_true] at hf
        split at h
        · next hd => cases h; exact .absorbLate d hf hi hd rfl
        · next hd =>
          simp only [Bool.not_eq_true] at hd
          split at h
          · next hl => cases h; exact .absorbLong d hf hi hd hl rfl
          · next hl => exact .absorb d hf hi hd hl (toOutcome_next.mp h)
    | final =>
      simp only [exec, execFinal, finalWith, unlessFaulted] at h
      split at h
      · next hf => cases h; exact .ignored hf (by simp [hi]) rfl
      · next hf =>
        simp only [Bool.not_eq_true] at hf
        split at h
        · next hd => cases h; exact .finalLate hf hi hd rfl
        · next hd =>
          simp only [Bool.not_eq_true] at hd
          exact .final hf hi hd (toOutcome_next.mp h)
    | rdd k =>
      simp only [exec, execRdd, unlessFaulted] at h
      split at h
      · next hf => cases h; exact .ignored hf (by simp [hi]) rfl
      · next hf =>
        simp only [Bool.not_eq_true] at hf
        split at h
        · next hd =>
          rw [toOutcome_next] at h
          simp only [readDigest, readByte] at h
          by_cases hk : k < 32
          · rw [dif_pos hk] at h
            cases h
            exact .rdd ⟨k, hk⟩ hf hi hd rfl
          · rw [dif_neg hk] at h
            cases h
        · next hd =>
          simp only [Bool.not_eq_true] at hd
          cases h
          exact .rddEarly k hf hi hd rfl
  · next e he =>
    simp only [execIllegal, unlessFaulted] at h
    split at h
    · next hf => cases h; exact .ignored hf (by simp [he]) rfl
    · next hf => simp only [Bool.not_eq_true] at hf; cases h; exact .illegal e hf he rfl

/-- The step of a state whose next move is known (70_reset_and_hazards.md R186). -/
theorem step_of_inputs {s : State} {m : HostInput} {rest : List HostInput} (h : s.inputs = m :: rest) :
    step s = execInput m { s with inputs := rest } := by
  simp only [step, serveHost, takeInput, h]

/-- The idle step (60_exceptions.md R176). -/
theorem step_idle {s : State} (h : s.inputs = []) : step s = .next s := by
  simp only [step, serveHost, takeInput, h]

end Sys2Proof.Machine
end

