-- ==== Sys2Proof/Laws/PerInstr.lean ====
section
/-! SUPPORT. Statements made once per instruction. Family RowMatch: the encoding of a well-formed instruction belongs to
the row of its mnemonic (30_encoding.md R73). -/

namespace Sys2Proof.Laws

/-- `(w & mask) = match` for the word of a well-formed instruction and its own row (30_encoding.md R73). -/
def RowMatch.Statement (i : Instr) : Prop := i.wellFormed = true → rowMatches (rowOf i) (encode i) = true

theorem RowMatch.nop : RowMatch.Statement .nop := fun _ => by decide

theorem RowMatch.init : RowMatch.Statement .init := fun _ => by decide

theorem RowMatch.absorb (data : Byte) : RowMatch.Statement (.absorb data) := by
  intro _
  revert data
  decide +kernel

theorem RowMatch.final : RowMatch.Statement .final := fun _ => by decide

theorem RowMatch.rdd (idx : Nat) : RowMatch.Statement (.rdd idx) := by
  have all : ∀ k : Fin 32, rowMatches (rowOf (.rdd k.val)) (encode (.rdd k.val)) = true := by decide +kernel
  intro h
  have hk : idx ≤ 31 := by simpa [Instr.wellFormed] using h
  exact all ⟨idx, by omega⟩

theorem RowMatch.rds : RowMatch.Statement .rds := fun _ => by decide

end Sys2Proof.Laws
end

