-- ==== Sys2Proof/Tests/Slice0.lean ====
section
/-! SUPPORT. Small tests, one step each, whose expected values are the spec's own numbers (95_test_vectors.md, named by
section), and one named witness for the hypotheses of every statement of Certificates/Slice0/Obligations.lean. -/

namespace Sys2Proof.Tests

open Sys2Proof Sys2Proof.Machine

/-! ### Helpers -/

/-- The bytes of a list standing in `BUF` from address 0. -/
def cells (bs : List Byte) : Memory := bs.zipIdx.map (fun c => (c.2, c.1))

/-- A state right after reset that then holds a few message bytes, none of them compressed. -/
def holding (bs : List Byte) : State :=
  { State.reset with buf := cells bs, bufLen := BitVec.ofNat 7 bs.length, len := BitVec.ofNat 64 (8 * bs.length) }

/-- The message "abc". -/
def abc : List Byte := [0x61, 0x62, 0x63]

/-- A state with a digest. -/
def digestState : State := { State.reset with dv := true, len := 24 }

/-- A state with a latched `SeqError`. -/
def faultState : State := { State.reset with err := { len := false, cmd := false, seq := true } }

/-- A state at the length limit (95_test_vectors.md P7). -/
def limitState : State := { holding (List.replicate 63 0x00) with len := 0xFFFFFFFFFFFFFFF8 }

/-- The last state of an outcome, for a test that looks at one field of it. -/
def after {α : Type} (o : Host.Outcome State Fault Refusal) (f : State → α) : Option α :=
  match o with
  | .next t => some (f t)
  | .fault _ => none
  | .refused _ => none

theorem after_some {α : Type} {o : Host.Outcome State Fault Refusal} {f : State → α} {x : α} (h : after o f = some x) :
    ∃ t, o = .next t ∧ f t = x := by
  cases o with
  | next t => exact ⟨t, rfl, Option.some.inj h⟩
  | fault e => cases h
  | refused e => cases h

/-! ### Well-formedness: the one check refuses -/

theorem test_wellFormed_refuses_address_32 : (Instr.rdd 32).wellFormed = false := by decide

theorem test_wellFormed_accepts_address_31 : (Instr.rdd 31).wellFormed = true := by decide

/-! ### Decoding, words written out from 30_encoding.md R71 and R73 -/

theorem test_decode_nop : decode 0b00000000_00000000 = .ok .nop := by decide

theorem test_decode_init : decode 0b00000001_00000000 = .ok .init := by decide

theorem test_decode_absorb : decode 0b00000010_01100001 = .ok (.absorb 0x61) := by decide

theorem test_decode_final : decode 0b00000011_00000000 = .ok .final := by decide

theorem test_decode_rdd : decode 0b00000100_00010011 = .ok (.rdd 19) := by decide

theorem test_decode_rds : decode 0b00000101_00000000 = .ok .rds := by decide

theorem test_decode_rejects_rdd_32 : decode 0b00000100_00100000 = .error .digestAddressTooLarge := by decide

theorem test_decode_rejects_operand : decode 0b00000001_00000001 = .error .operandNotAllowed := by decide

theorem test_decode_rejects_opcode : decode 0b00000110_00000000 = .error .unusedOpcode := by decide

theorem test_decodeTableWord : decodeTableWord 16 0x0261 = some (.absorb 0x61) := by decide

/-! ### Functions (95_test_vectors.md sections 2 to 6) -/

theorem test_rotations : rotl32 0xdeadbeef 7 = 0x56df77ef ∧ rotl32 0x12345678 12 = 0x45678123 := by decide

theorem test_permutations : p0 0xdeadbeef = 0xf80fdc09 ∧ p1 0xdeadbeef = 0x76350766 := by decide

theorem test_ff_gg : ff 0xf0f0f0f0 0xcccccccc 0xaaaaaaaa = 0xe8e8e8e8 ∧
    gg 0xf0f0f0f0 0xcccccccc 0xaaaaaaaa = 0xcacacaca := by decide

/-- Row 5i. -/
theorem test_round_5i : roundFn 0x79cc4519 9 10 #v[1, 2, 3, 4, 5, 6, 7, 8] =
    #v[0xe62a824e, 1, 0x00000400, 3, 0x97afffc9, 5, 6, 7] := by decide +kernel

/-- Row 5g: the old `H` vanishes. -/
theorem test_round_5g : roundFn 0 0 0 #v[0, 0x80000000, 0, 0, 0, 0, 0, 0xdeadbeef] =
    #v[0, 0, 0x00000100, 0, 0, 0, 0, 0] := by decide +kernel

/-- Section 4.6: words 15, 16, 17 and 67 of the schedule of "abc". -/
theorem test_expand_abc :
    let w := expand ([0x61626380] ++ List.replicate 14 0 ++ [0x18])
    w.getD 15 0 = 0x18 ∧ w.getD 16 0 = 0x84aeca18 ∧ w.getD 17 0 = 0x923b6128 ∧ w.getD 67 0 = 0xae7e90b8 := by
  decide +kernel

/-- Section 6.3: the zero block under PS-T. -/
theorem test_compress_zero_psT : compress Config.psT Config.ivG (List.replicate 64 0x00) =
    #v[0xe81f6148, 0xa17e6c75, 0x7b3600c6, 0x8b91e2c3, 0x7b172e87, 0xf73ac073, 0xabcd6657, 0x3c80363c] := by
  decide +kernel

/-- Section 3: padded length and pad byte at the two edges of the last block. -/
theorem test_pad_edges :
    pad (List.replicate 55 0x41) =
      .ok (List.replicate 55 0x41 ++ [0x80] ++ [0x00, 0x00, 0x00, 0x00, 0x00, 0x00, 0x01, 0xb8]) ∧
    pad (List.replicate 56 0x41) =
      .ok (List.replicate 56 0x41 ++ [0x80] ++ List.replicate 63 0x00 ++
        [0x00, 0x00, 0x00, 0x00, 0x00, 0x00, 0x01, 0xc0]) := by decide +kernel

/-! ### Commands (95_test_vectors.md section 11) -/

theorem test_nop_faulted : execNop faultState = .next faultState := rfl

/-- INIT leaves the fault, and the buffer stays. -/
theorem test_init_recovers : after (execInit { faultState with buf := cells abc, dout := 0x08 })
    (fun t => (t.err, t.dout, t.bufLen, Memory.read t.buf 2)) = some (Err.clear, 0x00, 0, some 0x63) := by
  decide +kernel

/-- P1: the third byte. -/
theorem test_absorb_appends : after (execAbsorb 0x63 (holding [0x61, 0x62]))
    (fun t => (t.buf, t.bufLen, t.len, t.dout)) = some (cells abc, 3, 24, 0x00) := by decide +kernel

/-- P3: the 64th byte compresses the block. -/
theorem test_absorb_full_psG : after (absorbWith Config.psG 0x06 { holding
      [0x08, 0xfd, 0x9b, 0xc3, 0xb0, 0x3f, 0x66, 0xcf, 0x80, 0xc7, 0x3a, 0x4e, 0x95, 0xf5, 0xb2, 0x89,
       0x49, 0x1b, 0x73, 0xa0, 0x49, 0x6d, 0x9b, 0x71, 0xa8, 0x19, 0xa4, 0x3f, 0xb3, 0x83, 0x3d, 0x99,
       0x03, 0xbe, 0xcc, 0xda, 0xb6, 0xbb, 0x04, 0x75, 0x74, 0x7b, 0x04, 0x37, 0x5c, 0x1c, 0x5e, 0x26,
       0x31, 0x84, 0xeb, 0xc1, 0x6e, 0x51, 0xe3, 0xb8, 0x39, 0x32, 0x23, 0x2c, 0xba, 0x14, 0x3f]
      with v := Config.ivG }) (fun t => (t.v, t.bufLen, t.len, t.phase)) =
    some (#v[0x10ebac2c, 0xe033c5b4, 0x2639c5f2, 0x6ad3f5b5, 0xb1fca005, 0xcae705c4, 0x931a7c7f, 0x9143bcf5],
      0, 0x200, .idle) := by decide +kernel

/-- P1: FINAL on "abc" under PS-G. -/
theorem test_final_abc_psG : after (finalWith Config.psG { holding abc with v := Config.ivG })
    (fun t => (t.v, t.bufLen, t.len, t.dv)) =
    some (#v[0x46655554, 0x33f86fd4, 0x1c4a9948, 0x0957e19a, 0x02003064, 0x8e7f0593, 0xbcb0346e, 0x44246267],
      0, 24, true) := by decide +kernel

/-- P4: 56 bytes, two compressions; the last block stands in `BUF`. -/
theorem test_final_56_psG : after (finalWith Config.psG { holding (List.replicate 56 0x41) with v := Config.ivG })
    (fun t => (t.v, Memory.read t.buf 55, Memory.read t.buf 62, Memory.read t.buf 63)) =
    some (#v[0x54d0656d, 0xa828a60f, 0x46d9c662, 0x730b3c31, 0xcea51f3f, 0x1952a495, 0xb0abd031, 0x76ceecef],
      some 0x00, some 0x01, some 0xc0) := by decide +kernel

/-- P1: the last and the sixth digest byte. -/
theorem test_rdd_bytes :
    let s := { digestState with v :=
      #v[0x46655554, 0x33f86fd4, 0x1c4a9948, 0x0957e19a, 0x02003064, 0x8e7f0593, 0xbcb0346e, 0x44246267] }
    after (execRdd 31 s) State.dout = some 0x67 ∧ after (execRdd 5 s) State.dout = some 0xf8 := by decide +kernel

/-- P5: RDD without a digest. -/
theorem test_rdd_seqError : execRdd 0 State.reset = .next faultState := rfl

/-- P5 and P7: status bytes. -/
theorem test_rds_status : after (execRds faultState) State.dout = some 0x08 ∧
    after (execRds { digestState with err := { len := false, cmd := true, seq := false } }) State.dout = some 0x05 := by
  decide +kernel

/-- P6: an illegal word with a message in progress. -/
theorem test_illegal : execWord 0x0601 (holding abc) =
    .next { holding abc with err := { len := false, cmd := true, seq := false } } := rfl

/-- P7: the length limit. -/
theorem test_absorb_limit : execAbsorb 0x00 limitState =
    .next { limitState with err := { len := true, cmd := false, seq := false } } := rfl

/-- The first step after reset runs the word that `withFetchWord` offers. -/
theorem test_fetch : after (step (State.reset.withFetchWord 16 0x0261)) (fun t => (t.buf, t.bufLen, t.inputs)) =
    some ([(0, 0x61)], 1, []) := by decide +kernel

/-! ### Assembler text (30_encoding.md R81, R82, R84) -/

/-- P1 as a text: three spellings of an operand, a comment, a blank line. -/
theorem test_assemble : assemble "INIT\nABSORB 'a' ; a comment\n\nABSORB 0x62\nABSORB 99\nFINAL\nRDD 31\nRDS".toList =
    .ok [0x0100, 0x0261, 0x0262, 0x0263, 0x0300, 0x041f, 0x0500] := by decide +kernel

/-- P3's byte list, a line continued. -/
theorem test_assemble_bytes : assemble "ABSORBS 08 fd \\\n  9b".toList = .ok [0x0208, 0x02fd, 0x029b] := by
  decide +kernel

/-- R81's own examples. -/
theorem test_assemble_rdd : assemble "RDD 0x1F".toList = .ok [0x041F] ∧ assemble "RDD 31".toList = .ok [0x041F] := by
  decide +kernel

/-- An operand out of range is an assembly error. -/
theorem test_assemble_range : assemble "RDD 32".toList = .error .operandOutOfRange ∧
    assemble "ABSORB 0x100".toList = .error .operandOutOfRange := by decide +kernel

theorem test_disassemble : disassemble 0x0261 = "ABSORB 0x61".toList ∧
    disassemble 0x0420 = "ILLEGAL 0x0420".toList := by decide +kernel

/-! ### Witnesses: the hypotheses of each statement are met, together, by a concrete state and operands -/

/-- DecodeAndEncodeAreInverse, LegalWordsAreTheTableRows. -/
theorem witness_decode : (31 ≤ 31) ∧ (Instr.rdd 31).wellFormed = true ∧ decode 0x041F = .ok (.rdd 31) ∧
    ∃ row ∈ opcodeRows, rowMatches row 0x041F = true := by decide

/-- IllegalWordsRaiseIllegalCommand: an illegal word, and a core that is faulted and one that is not. -/
theorem witness_illegal : decode 0x0420 = .error .digestAddressTooLarge ∧ faulted State.reset = false ∧
    faulted faultState = true := ⟨by decide, rfl, rfl⟩

/-- DisassemblyAssemblesBack, OperandSpellingsAssemble: both clauses' words; the ends of each range; a number of 256 and
one of 32; digits of mixed case in range and out of it; a mnemonic that takes nothing. -/
theorem witness_assembler : decode 0x02FF = .ok (.absorb 0xFF) ∧ decode 0xFFFF = .error .unusedOpcode ∧
    (32 ≤ 126 ∧ 126 ≤ 126) ∧ number "0x100".toList = some 256 ∧ number "32".toList = some 32 ∧
    ("0fF".toList ≠ [] ∧ digitsValue 16 0 "0fF".toList = some 255) ∧ digitsValue 16 0 "100".toList = some 256 ∧
    "RDS".toList ∈ ["NOP".toList, "INIT".toList, "FINAL".toList, "RDS".toList] := by decide +kernel

/-- PseudoInstructionsExpand: a string of printable characters, a semicolon and a single quote among them. -/
theorem witness_string : ∀ c ∈ "a;'~ ".toList, printable c = true ∧ c ≠ doubleQuote := by
  have h : "a;'~ ".toList.all (fun c => printable c && c != doubleQuote) = true := by decide +kernel
  intro c hc
  simpa using List.all_eq_true.mp h c hc

/-- StepRunsTheDecodedCommand. -/
theorem witness_step : (offerWord 0x0261 State.reset).inputs = .word 0x0261 :: [] ∧
    decode 0x0261 = .ok (.absorb 0x61) := ⟨rfl, by decide⟩

/-- StepServesTheHost: an illegal word offered, nothing offered, a word that completes. -/
theorem witness_serve : ((offerWord 0x0600 State.reset).inputs = .word 0x0600 :: [] ∧
      decode 0x0600 = .error .unusedOpcode) ∧ State.reset.inputs = [] ∧
    ∃ t, execWord 0x0500 State.reset = .next t := ⟨⟨rfl, by decide⟩, rfl, _, rfl⟩

/-- ResetInputGivesTheResetState. -/
theorem witness_reset : ({ faultState with inputs := [.reset, .word 0x0000] } : State).inputs = .reset :: [.word 0x0000] ∧
    ∃ u, exec .init faultState = .next u := ⟨rfl, _, rfl⟩

/-- NopChangesNothing: both ends of the range. -/
theorem witness_nop : (0x0001 ≤ 0x0001 ∧ 0x0001 ≤ 0x00FF) ∧ (0x0001 ≤ 0x00FF ∧ 0x00FF ≤ 0x00FF) := by decide

/-- InitBeginsANewMessage, its first clause. -/
theorem witness_init : faulted faultState = true ∧
    ∃ t, execWord 0x0100 faultState = .next t ∧ faulted t = false := ⟨rfl, _, rfl, rfl⟩

/-- AbsorbFollowsItsRule, clause by clause: faulted; with a digest; at the length limit; one byte below a full block;
the byte that fills it. -/
theorem witness_absorb : faulted faultState = true ∧ (faulted digestState = false ∧ digestState.dv = true) ∧
    (faulted limitState = false ∧ limitState.dv = false ∧ limitState.len = 0xFFFFFFFFFFFFFFF8) ∧
    (let s := holding (List.replicate 62 0x00)
     faulted s = false ∧ s.dv = false ∧ s.len ≠ 0xFFFFFFFFFFFFFFF8 ∧ s.bufLen.toNat < 63) ∧
    (let s := holding (List.replicate 63 0x00)
     faulted s = false ∧ s.dv = false ∧ s.len ≠ 0xFFFFFFFFFFFFFFF8 ∧ s.bufLen.toNat = 63) ∧
    memRead .buf (holding (List.replicate 63 0x00)) 0 63 = .ok (List.replicate 63 0x00) :=
  ⟨rfl, ⟨rfl, rfl⟩, ⟨rfl, rfl, rfl⟩, ⟨rfl, rfl, by decide +kernel, by decide +kernel⟩,
    ⟨rfl, rfl, by decide +kernel, by decide +kernel⟩, rfl⟩

/-- FinalFollowsItsRule, clause by clause: faulted; with a digest; 0 and 55 bytes; 56 and 63 bytes. -/
theorem witness_final : faulted faultState = true ∧ (faulted digestState = false ∧ digestState.dv = true) ∧
    (∀ n ∈ [0, 55], let s := holding (List.replicate n 0x41)
      faulted s = false ∧ s.dv = false ∧ s.bufLen.toNat ≤ 55 ∧ ∃ bs, memRead .buf s 0 s.bufLen.toNat = .ok bs) ∧
    (∀ n ∈ [56, 63], let s := holding (List.replicate n 0x41)
      faulted s = false ∧ s.dv = false ∧ 56 ≤ s.bufLen.toNat ∧ s.bufLen.toNat ≤ 63 ∧
        ∃ bs, memRead .buf s 0 s.bufLen.toNat = .ok bs) := by
  refine ⟨rfl, ⟨rfl, rfl⟩, ?_, ?_⟩ <;> intro n hn <;> simp only [List.mem_cons, List.not_mem_nil, or_false] at hn <;>
    rcases hn with rfl | rfl
  · exact ⟨rfl, rfl, by decide +kernel, [], rfl⟩
  · exact ⟨rfl, rfl, by decide +kernel, List.replicate 55 0x41, rfl⟩
  · exact ⟨rfl, rfl, by decide +kernel, by decide +kernel, List.replicate 56 0x41, rfl⟩
  · exact ⟨rfl, rfl, by decide +kernel, by decide +kernel, List.replicate 63 0x41, rfl⟩

/-- RddFollowsItsRule, clause by clause, the last address; two reads; the ends of the illegal range. -/
theorem witness_rdd : faulted faultState = true ∧ (faulted State.reset = false ∧ State.reset.dv = false) ∧
    (31 ≤ 31 ∧ faulted digestState = false ∧ digestState.dv = true ∧ ∃ t, exec (.rdd 31) digestState = .next t) ∧
    (0x0420 ≤ 0x0420 ∧ 0x04FF ≤ 0x04FF) :=
  ⟨rfl, ⟨rfl, rfl⟩, ⟨by decide, rfl, rfl, _, rfl⟩, by decide⟩

/-- A state that holds three bytes meets the invariants, whatever the host offers. InvariantStatesNeverStop,
RdsReadsTheStatusByte. -/
theorem witness_invariants (x y z : Byte) (ms : List HostInput) :
    Invariants { holding [x, y, z] with inputs := ms } where
  bufLen_le := by show (3 : BitVec 7).toNat ≤ 63; decide
  len_mod := by show (24 : BitVec 64).toNat % 8 = 0; decide
  len_le := by show (24 : BitVec 64).toNat ≤ 2 ^ 64 - 8; decide
  absorbing := fun _ => by show (24 : BitVec 64).toNat % 512 = 8 * (3 : BitVec 7).toNat; decide
  finalised := fun h => by cases h
  err_one := rfl
  err_len := fun h => by cases h
  phase_idle := rfl
  j_zero := rfl
  buf_wf := rfl
  buf_written := by
    intro a ha
    have ha : a < 3 := ha
    match a with
    | 0 => exact ⟨x, rfl⟩
    | 1 => exact ⟨y, rfl⟩
    | 2 => exact ⟨z, rfl⟩
    | n + 3 => omega

/-- EveryStepKeepsTheInvariants: such a state whose step answers a next state. -/
theorem witness_invariant_step : ∃ s t, Invariants s ∧ step s = .next t :=
  ⟨_, _, witness_invariants 0x61 0x62 0x63 [.word 0x0300], rfl⟩

/-- OneOutcomeByPriority, the six points in order. -/
theorem witness_priority : decode 0x0500 = .ok .rds ∧ (faulted faultState = true ∧ decode 0x0300 = .ok .final) ∧
    (faulted digestState = false ∧ decode 0xFFFF = .error .unusedOpcode) ∧
    (digestState.dv = true ∧ decode 0x0261 = .ok (.absorb 0x61)) ∧
    (faulted limitState = false ∧ limitState.dv = false ∧ limitState.len = 0xFFFFFFFFFFFFFFF8) ∧
    (faulted (holding abc) = false ∧ (holding abc).dv = false ∧ ∃ t, execWord 0x0300 (holding abc) = .next t) :=
  ⟨by decide, ⟨rfl, by decide⟩, ⟨rfl, by decide⟩, ⟨rfl, by decide⟩, ⟨rfl, rfl, rfl⟩, rfl, rfl, _, rfl⟩

/-- FaultsArePrecise: each bit newly set. -/
theorem witness_precise :
    (∃ t, execWord 0x0200 limitState = .next t ∧ limitState.err.len = false ∧ t.err.len = true) ∧
    (∃ t, execWord 0x0601 State.reset = .next t ∧ State.reset.err.cmd = false ∧ t.err.cmd = true) ∧
    (∃ t, execWord 0x0400 State.reset = .next t ∧ State.reset.err.seq = false ∧ t.err.seq = true) :=
  ⟨⟨_, rfl, rfl, rfl⟩, ⟨_, rfl, rfl, rfl⟩, ⟨_, rfl, rfl, rfl⟩⟩

/-- FaultedCoreIgnoresCommands: a word that is ignored; a run without INIT. -/
theorem witness_ignored : faulted faultState = true ∧ faultState.err.atMostOne = true ∧
    decode 0x0261 = .ok (.absorb 0x61) ∧ (∀ w ∈ ([0x0500, 0x0400] : List CmdWord), decode w ≠ .ok .init) ∧
    ∃ t, runWords [0x0500, 0x0400] faultState = .next t := by
  have h1 : decode 0x0500 = .ok .rds := by decide
  have h2 : decode 0x0400 = .ok (.rdd 0) := by decide
  have hf : ∀ b, faulted { faultState with dout := b } = true := fun _ => rfl
  refine ⟨rfl, rfl, by decide, ?_, { faultState with dout := status faultState }, ?_⟩
  · intro w hw
    simp only [List.mem_cons, List.not_mem_nil, or_false] at hw
    rcases hw with rfl | rfl <;> decide
  · simp only [runWords, execWord, h1, h2, exec, execRds, execRdd, unlessFaulted, hf, if_true]

/-- OnlyInitAndResetClearFaults: a move that is neither, and the two that clear. -/
theorem witness_recovery : (∃ t, execInput (.word 0x0500) faultState = .next t) ∧
    HostInput.word 0x0500 ≠ .reset ∧ HostInput.word 0x0500 ≠ .word 0x0100 := ⟨⟨_, rfl⟩, by decide, by decide⟩

/-- DigestValidHasTwoWriters, DoutHasFourWriters, ChainingStateAndBufferWriters: moves that answer a next state, among
them a FINAL that completes. -/
theorem witness_writers : (∃ t, execInput (.word 0x0500) digestState = .next t) ∧
    (∃ t, exec .final (holding abc) = .next t ∧ t.err = Err.clear) ∧ (∃ t, exec .init digestState = .next t) ∧
    (∃ t, exec .rds digestState = .next t) ∧ (faulted digestState = false ∧ digestState.dv = true) ∧
    (faulted State.reset = false ∧ State.reset.dv = false) :=
  ⟨⟨_, rfl⟩, after_some (f := State.err) (by decide +kernel), ⟨_, rfl⟩, ⟨_, rfl⟩, ⟨rfl, rfl⟩, rfl, rfl⟩

/-- LengthCounterNeverWraps: at the limit, where one more byte would wrap. -/
theorem witness_length : limitState.len.toNat % 8 = 0 ∧ ∃ t, execInput (.word 0x0200) limitState = .next t :=
  ⟨by decide, _, rfl⟩

/-- OneOutputBeforeFinalShowsNoMessage: two states of different content. -/
theorem witness_unobservable : ∃ t t', (holding abc).dv = false ∧ State.reset.dv = false ∧
    (holding abc).err = State.reset.err ∧ (holding abc).dout = State.reset.dout ∧
    execWord 0x0263 (holding abc) = .next t ∧ execWord 0x0263 State.reset = .next t' :=
  ⟨_, _, rfl, rfl, rfl, rfl, rfl, rfl⟩

/-- RunsBeforeFinalShowNoMessage: two messages of one length, and two runs that differ in the byte of an ABSORB. -/
theorem witness_runs : Invariants (holding abc) ∧ Invariants (holding [0x00, 0x80, 0xFF]) ∧ (holding abc).dv = false ∧
    (holding [0x00, 0x80, 0xFF]).dv = false ∧ (holding abc).err = (holding [0x00, 0x80, 0xFF]).err ∧
    (holding abc).dout = (holding [0x00, 0x80, 0xFF]).dout ∧ (holding abc).len = (holding [0x00, 0x80, 0xFF]).len ∧
    List.Forall₂ SameButData [0x0264, 0x0500] [0x0200, 0x0500] ∧ ∀ w ∈ ([0x0264, 0x0500] : List CmdWord), w ≠ 0x0300 := by
  refine ⟨witness_invariants 0x61 0x62 0x63 [], witness_invariants 0x00 0x80 0xFF [], rfl, rfl, rfl, rfl, rfl, ?_, ?_⟩
  · exact .cons (.inr ⟨0x64, 0x00, by decide, by decide⟩) (.cons (.inl rfl) .nil)
  · intro w hw
    simp only [List.mem_cons, List.not_mem_nil, or_false] at hw
    rcases hw with rfl | rfl <;> decide

/-- StaleContentsNeverMatter: the same message held over different stale contents. -/
theorem witness_stale : (holding abc).bufLen.toNat ≤ 63 ∧ AgreeButStale (holding abc)
    { holding abc with w := Vector.replicate 68 1, r := Vector.replicate 8 1, buf := cells (abc ++ [0xEE]) } :=
  ⟨by decide, rfl, rfl, rfl, rfl, rfl, rfl, rfl, abc, rfl, rfl⟩

/-- AbsorbExtendsTheMessage, FinalGivesTheHash: a state that has absorbed "abc". -/
theorem witness_absorbed : Absorbed Config.hw abc (holding abc) ∧ abc.length + 1 < 2 ^ 61 :=
  ⟨⟨rfl, rfl, by decide, by decide, rfl, rfl⟩, by decide⟩

/-- EveryMoveKeepsTheMessage: the same state, and a move. -/
theorem witness_holds : Holds Config.hw abc (holding abc) ∧ ∃ t, execInput (.word 0x0264) (holding abc) = .next t :=
  ⟨⟨by decide, fun _ => ⟨by decide, rfl, rfl⟩, fun h => by cases h⟩, _, rfl⟩

/-- FeedForwardIsExclusiveOr, its last clause: two configurations that differ in `IV` alone. -/
theorem witness_same_rc : Config.psZ.rc = Config.psG.rc ∧ Config.psZ.iv ≠ Config.psG.iv := ⟨rfl, by decide⟩

/-- CommandLayerComputesHash: "abc" with a NOP and an RDS among its words, and a read-out after it. -/
theorem witness_layer : abc.length < 2 ^ 61 ∧
    ([0x0000, 0x0100, 0x0261, 0x0500, 0x0262, 0x0263, 0x0300, 0x0000] : List CmdWord).filter
      (fun w => decide (w ≠ 0x0000 ∧ w ≠ 0x0500)) = [0x0100] ++ abc.map (fun d => 0x0200 + d.setWidth 16) ++ [0x0300] ∧
    ∀ w ∈ ([0x041F, 0x0000, 0x0500] : List CmdWord),
      w = 0x0000 ∨ w = 0x0500 ∨ ∃ a : Nat, a ≤ 31 ∧ w = 0x0400 + BitVec.ofNat 16 a := by
  refine ⟨by decide, by decide, ?_⟩
  intro w hw
  simp only [List.mem_cons, List.not_mem_nil, or_false] at hw
  rcases hw with rfl | rfl | rfl
  · exact .inr (.inr ⟨31, by decide, by decide⟩)
  · exact .inl rfl
  · exact .inr (.inl rfl)

/-- OverlongMessageHasNoDigest: a message of `2^61 - 1` bytes and a state that has absorbed it. -/
theorem witness_overlong : ∃ (m : List Byte) (s : State), Absorbed Config.hw m s ∧ m.length = 2 ^ 61 - 1 := by
  obtain ⟨m, hm⟩ : ∃ m : List Byte, m = List.replicate (2 ^ 61 - 1) 0x00 := ⟨_, rfl⟩
  have hl : m.length = 2 ^ 61 - 1 := by rw [hm, List.length_replicate]
  refine ⟨m, { limitState with v := compressAll Config.hw Config.hw.iv (m.take (64 * (m.length / 64))) },
    ⟨rfl, rfl, ?_, ?_, rfl, ?_⟩, hl⟩
  · rw [hl]
    show limitState.len.toNat = _
    decide +kernel
  · rw [hl]
    show limitState.bufLen.toNat = _
    decide +kernel
  · have h : (2 ^ 61 - 1) - 64 * ((2 ^ 61 - 1) / 64) = 63 := by decide +kernel
    have h' : (2 ^ 61 - 1) % 64 = 63 := by decide +kernel
    rw [hl, h', hm, List.drop_replicate, h]
    rfl

/-- OverlongMessageHasNoDigest, the later run: words without INIT on the faulted state. -/
theorem witness_overlong_run : (∀ w ∈ ([0x0300, 0x0500] : List CmdWord), w ≠ 0x0100) ∧
    ∃ t, runWords [0x0300, 0x0500] { limitState with err := { limitState.err with len := true } } = .next t := by
  have h1 : decode 0x0300 = .ok .final := by decide
  have h2 : decode 0x0500 = .ok .rds := by decide
  have hf : faulted { limitState with err := { limitState.err with len := true } } = true := rfl
  refine ⟨?_, { limitState with
    err := { limitState.err with len := true },
    dout := status { limitState with err := { limitState.err with len := true } } }, ?_⟩
  · intro w hw
    simp only [List.mem_cons, List.not_mem_nil, or_false] at hw
    rcases hw with rfl | rfl <;> decide
  simp only [runWords, execWord, h1, h2, exec, execFinal, finalWith, execRds, unlessFaulted, hf, if_true]

/-- RotationLaws: the largest amounts and the top bit. -/
theorem witness_rotation : 31 ≤ 31 ∧ 31 < 32 := by decide

/-- LoadBlkReadsBigEndianWords, CompressProcedureComputesCompress, MicroStepsDoTheProcedure: a full buffer. -/
theorem witness_block : (∀ a, a < 64 → readByte .buf (holding (List.replicate 64 0x41)) a = .ok 0x41) ∧
    memRead .buf (holding (List.replicate 64 0x41)) 0 64 = .ok (List.replicate 64 0x41) ∧
    ∃ t, microSteps Config.hw 117 (startCompress (holding (List.replicate 64 0x41))) = .ok t := by
  refine ⟨?_, rfl, _, rfl⟩
  have all : ∀ a : Fin 64, readByte .buf (holding (List.replicate 64 0x41)) a.val = .ok 0x41 := fun a => by
    have h : Memory.read (cells (List.replicate 64 0x41)) a.val = some 0x41 := by revert a; decide +kernel
    simp only [readByte, holding, h, if_pos a.isLt]
  exact fun a ha => all ⟨a, ha⟩

/-- ExpandFollowsTheRecurrence, RoundFollowsTheFormulas: sixteen words; the ends of the ranges of `j`. -/
theorem witness_schedule : (List.replicate 16 (1 : Word)).length = 16 ∧ (16 ≤ 16 ∧ 67 ≤ 67) ∧ 63 ≤ 63 := by decide

/-- ZeroBlockIsAFixedPoint. -/
theorem witness_zero_rc : Config.psZ.rc = Vector.replicate 64 0 := rfl

/-- PadFollowsItsRule, LastBlockLayout, PadIsInjective: 55 and 56 bytes. -/
theorem witness_pad : (List.replicate 55 (0x41 : Byte)).length < 2 ^ 61 ∧
    (∃ p, pad (List.replicate 55 0x41) = .ok p) ∧ (List.replicate 55 (0x41 : Byte)).length % 64 ≤ 55 ∧
    (∃ p, pad (List.replicate 56 0x41) = .ok p) ∧ 56 ≤ (List.replicate 56 (0x41 : Byte)).length % 64 :=
  ⟨by decide, ⟨_, rfl⟩, by decide, ⟨_, rfl⟩, by decide⟩

/-- PadFailsOnOverflowAlone, its failing side: a message too long exists. -/
theorem witness_too_long : ∃ m : List Byte, 2 ^ 61 ≤ m.length ∧ pad m = .error .invalidInput := by
  refine ⟨List.replicate (2 ^ 61) 0x00, by rw [List.length_replicate], ?_⟩
  have h : tooLong (List.replicate (2 ^ 61) 0x00) = true := by
    rw [tooLong, List.length_replicate]; decide +kernel
  simp only [pad, h, if_true]

/-- CompressAllFoldsTheBlocks: two blocks. -/
theorem witness_blocks : (List.replicate 64 (0x41 : Byte)).length = 64 ∧ (List.replicate 64 (0x41 : Byte)).length % 64 = 0 := by
  decide

/-- SerializeIsBigEndian: the last index pair. -/
theorem witness_serialize : 7 < 8 ∧ 3 < 4 ∧ ∃ u v : Words8, serialize u = serialize v := by
  exact ⟨by decide, by decide, Config.ivG, Config.ivG, rfl⟩

/-- ReadableDigestIsStable: the last address; a command that keeps a digest. -/
theorem witness_digest : 31 ≤ 31 ∧ (∃ t, exec (.rdd 31) State.reset = .next t) ∧ digestState.dv = true ∧
    (0x0261 : CmdWord) ≠ 0x0100 ∧ ∃ t, execWord 0x0261 digestState = .next t :=
  ⟨by decide, ⟨_, rfl⟩, rfl, by decide, _, rfl⟩

/-- MemoryReadsWhatWasWritten: a store at the last address; the first address that each space does not have, and the
last that it has; two canonical memories that read alike. -/
theorem witness_memory : (∃ t, storeByte (holding abc) 63 0x80 = .ok t) ∧
    (64 ≤ 64 ∧ readByte .buf (holding abc) 64 = .error (.noSuchAddress .buf 64)) ∧
    (32 ≤ 32 ∧ readByte .dig (holding abc) 32 = .error (.noSuchAddress .dig 32)) ∧
    readByte .buf (holding (List.replicate 64 0x41)) 63 = .ok 0x41 ∧ (∃ b, readByte .dig (holding abc) 31 = .ok b) ∧
    Memory.wf (cells abc) = true ∧ Memory.wf (Memory.write (Memory.write [] 1 0x62) 0 0x61) = true :=
  ⟨⟨_, rfl⟩, ⟨by decide, rfl⟩, ⟨by decide, rfl⟩, rfl, ⟨_, rfl⟩, rfl, rfl⟩

end Sys2Proof.Tests
end

section
/-! The decoder read backwards: what an accepted word says of its fields (30_encoding.md R71, R73). -/

namespace Sys2Proof

/-- A command word is its two fields (30_encoding.md R71). -/
theorem opField_append_immField (w : CmdWord) : opField w ++ immField w = w := by
  rw [opField, immField, BitVec.extractLsb'_append_extractLsb'_eq_extractLsb' (by decide)]
  exact BitVec.extractLsb'_eq_self

theorem noOperand_ok {w : CmdWord} {i k : Instr} : noOperand w i = .ok k ↔ immField w = 0x00 ∧ i = k := by
  unfold noOperand
  split
  · next h => simp [h]
  · next h => exact ⟨nofun, fun hk => absurd hk.1 h⟩

/-- The fields of a word that decodes, command by command. -/
inductive DecodedFields (w : CmdWord) : Instr → Prop
  | nop (op : opField w = 0x00) (imm : immField w = 0x00) : DecodedFields w .nop
  | init (op : opField w = 0x01) (imm : immField w = 0x00) : DecodedFields w .init
  | absorb (op : opField w = 0x02) : DecodedFields w (.absorb (immField w))
  | final (op : opField w = 0x03) (imm : immField w = 0x00) : DecodedFields w .final
  | rdd (op : opField w = 0x04) (imm : (immField w).toNat ≤ 31) : DecodedFields w (.rdd (idxField w))
  | rds (op : opField w = 0x05) (imm : immField w = 0x00) : DecodedFields w .rds

/-- The inversion of `decode`. -/
theorem decode_cases {w : CmdWord} {i : Instr} (h : decode w = .ok i) : DecodedFields w i := by
  unfold decode at h
  split at h
  · next op => obtain ⟨imm, rfl⟩ := noOperand_ok.mp h; exact .nop op imm
  split at h
  · next op => obtain ⟨imm, rfl⟩ := noOperand_ok.mp h; exact .init op imm
  split at h
  · next op => cases h; exact .absorb op
  split at h
  · next op => obtain ⟨imm, rfl⟩ := noOperand_ok.mp h; exact .final op imm
  split at h
  · next op =>
    split at h
    · next imm => cases h; exact .rdd op imm
    · cases h
  split at h
  · next op => obtain ⟨imm, rfl⟩ := noOperand_ok.mp h; exact .rds op imm
  · cases h

/-- The one word of FINAL (30_encoding.md R73). -/
theorem eq_of_decode_final {w : CmdWord} (h : decode w = .ok .final) : w = 0x0300 := by
  cases decode_cases h with
  | final op imm => rw [← opField_append_immField w, op, imm]; rfl

/-- A decoded digest address is in range (30_encoding.md R72). -/
theorem lt_of_decode_rdd {w : CmdWord} {k : Nat} (h : decode w = .ok (.rdd k)) : k < 32 := by
  cases decode_cases h with
  | rdd => exact (w.extractLsb' 0 5).isLt

end Sys2Proof
end

section
/-! The step and the decoded command (00_scope.md R19). -/

namespace Sys2Proof.Machine

/-- Settles O8: the step takes the word, and the word runs its command. -/
theorem stepRunsTheDecodedCommand : Obligations.StepRunsTheDecodedCommand := by
  unfold Obligations.StepRunsTheDecodedCommand
  intro s w rest i hs hw
  rw [step_of_inputs hs]
  simp only [execInput, execWord, hw]

end Sys2Proof.Machine
end

section
/-! Big-endian numbers (00_scope.md R15, 20_memory.md R52). -/

namespace Sys2Proof.Machine

/-- Two parts of a number joined, the first at the higher bits. -/
theorem toNat_append_eq_add {m n : Nat} (x : BitVec m) (y : BitVec n) :
    (x ++ y).toNat = x.toNat * 2 ^ n + y.toNat := by
  rw [BitVec.toNat_append, ← Nat.shiftLeft_add_eq_or_of_lt y.isLt, Nat.shiftLeft_eq]

theorem be32_toNat (b0 b1 b2 b3 : Byte) : (be32 b0 b1 b2 b3).toNat =
    b0.toNat * 2 ^ 24 + b1.toNat * 2 ^ 16 + b2.toNat * 2 ^ 8 + b3.toNat := by
  simp only [be32, toNat_append_eq_add]
  omega

theorem be64_toNat (b0 b1 b2 b3 b4 b5 b6 b7 : Byte) : (be64 b0 b1 b2 b3 b4 b5 b6 b7).toNat =
    (be32 b0 b1 b2 b3).toNat * 2 ^ 32 + (be32 b4 b5 b6 b7).toNat :=
  toNat_append_eq_add _ _

/-- `byteBE` as a digit in base 256 (00_scope.md R15). -/
theorem byteBE_toNat (v n k : Nat) : (byteBE v n k).toNat = v / 2 ^ (8 * (n - 1 - k)) % 2 ^ 8 := by
  rw [byteBE, BitVec.toNat_ofNat, Nat.shiftRight_eq_div_pow]

/-- The eight bytes of a 64-bit number, most significant first, give it back (20_memory.md R52). -/
theorem be64_byteBE (x : BitVec 64) :
    be64 (byteBE x.toNat 8 0) (byteBE x.toNat 8 1) (byteBE x.toNat 8 2) (byteBE x.toNat 8 3)
      (byteBE x.toNat 8 4) (byteBE x.toNat 8 5) (byteBE x.toNat 8 6) (byteBE x.toNat 8 7) = x := by
  apply BitVec.eq_of_toNat_eq
  have hx := x.isLt
  simp only [be64_toNat, be32_toNat, byteBE_toNat]
  omega

/-- Settles O56, by the sums of the digits in base 256. -/
theorem bigEndianNumbers : Obligations.BigEndianNumbers := by
  unfold Obligations.BigEndianNumbers
  exact ⟨be32_toNat, be64_toNat, fun len => ⟨_, _, _, _, _, _, _, _, rfl, be64_byteBE len⟩⟩

end Sys2Proof.Machine
end

section
/-! The named parameter sets (00_scope.md R11). -/

namespace Sys2Proof.Machine

theorem rotl32_eq_rotateLeft (x : Word) {n : Nat} (h : n < 32) : rotl32 x n = x.rotateLeft n := by
  rw [rotl32, BitVec.rotateLeft_def, Nat.mod_eq_of_lt h]

/-- The rule's formula for the round constants of PS-T, by rotation of the library. -/
theorem psT_rc_getElem (j : Nat) (h : j < 64) :
    Config.psT.rc[j] = (Config.tConstant j).rotateLeft (j % 32) := by
  simp only [Config.psT, Vector.getElem_ofFn, rotl32_eq_rotateLeft _ (Nat.mod_lt j (by decide : 0 < 32))]

/-- Settles O58: the formula for every index, and the listed words by evaluation. -/
theorem parameterSetsAreTheTable : Obligations.ParameterSetsAreTheTable := by
  unfold Obligations.ParameterSetsAreTheTable
  refine ⟨rfl, rfl, rfl, rfl, rfl, fun j h => ?_, rfl⟩
  rw [psT_rc_getElem j h, Config.tConstant]
  split <;> rfl

end Sys2Proof.Machine
end

section
/-! The invariants along a command word (10_state.md R35, R38): every word completes and keeps them. -/

namespace Sys2Proof.Machine

/-! ### `BUF` filled from address 0 -/

/-- The memory is canonical and every byte below `n` has been written. -/
structure Memory.FilledTo (n : Nat) (m : Memory) : Prop where
  wf : Memory.wf m = true
  written : ∀ a, a < n → ∃ b, Memory.read m a = some b

theorem Memory.FilledTo.mono {k n : Nat} {m : Memory} (h : Memory.FilledTo n m) (hk : k ≤ n) : Memory.FilledTo k m :=
  ⟨h.wf, fun a ha => h.written a (by omega)⟩

theorem Memory.FilledTo.writeList {n : Nat} {m : Memory} {bs : List Byte} (h : Memory.FilledTo n m)
    (hn : n + bs.length ≤ 64) : Memory.FilledTo (n + bs.length) (Memory.writeList m n bs) := by
  refine ⟨Memory.wf_writeList h.wf hn, fun a ha => ?_⟩
  rw [Memory.read_writeList]
  by_cases hna : n ≤ a
  · rw [if_pos ⟨hna, ha⟩]
    exact ⟨_, List.getElem?_eq_getElem (by omega)⟩
  · rw [if_neg (by omega)]
    exact h.written a (by omega)

theorem memWrite_of_filled {n : Nat} {s : State} {bs : List Byte} (h : Memory.FilledTo n s.buf)
    (hn : n + bs.length ≤ 64) : ∃ t, memWrite s n bs = .ok t ∧ Memory.FilledTo (n + bs.length) t.buf :=
  ⟨_, memWrite_eq s n bs hn, h.writeList hn⟩

theorem Memory.FilledTo.readByte {n : Nat} {s : State} (h : Memory.FilledTo n s.buf) (hn : n ≤ 64) (a : Nat)
    (ha : a < n) : ∃ b, readByte .buf s a = .ok b := by
  obtain ⟨b, hb⟩ := h.written a ha
  exact ⟨b, readByte_buf_ok.mpr ⟨by omega, hb⟩⟩

theorem memRead_of_filled {n : Nat} {s : State} (h : Memory.FilledTo n s.buf) (hn : n ≤ 64) :
    ∃ bs, memRead .buf s 0 n = .ok bs := by
  choose f hf using h.readByte hn
  refine ⟨List.ofFn fun k : Fin n => f k k.isLt, memRead_ok.mpr ⟨List.length_ofFn, fun k hk => ?_⟩⟩
  simpa using hf k (by simpa using hk)

theorem doCompress_of_filled (c : Config) {s : State} (h : Memory.FilledTo 64 s.buf) :
    ∃ t, doCompress c s = .ok t ∧ t.buf = s.buf := by
  obtain ⟨blk, hblk⟩ := memRead_of_filled h (le_refl 64)
  obtain ⟨t, ht⟩ := doCompress_completes c hblk
  exact ⟨t, ht, by rw [doCompress_frame ht]⟩

/-! ### ABSORB and FINAL complete on a filled `BUF` (43_commands.md R143, R144) -/

theorem bufLen_succ_toNat {b : BitVec 7} (h : b.toNat ≤ 63) : (b + 1).toNat = b.toNat + 1 := by bv_omega

theorem appendByte_of_filled (c : Config) (d : Byte) {s : State} (h : Memory.FilledTo s.bufLen.toNat s.buf)
    (hn : s.bufLen.toNat ≤ 63) :
    ∃ t, appendByte c d s = .ok t ∧ Memory.FilledTo (s.bufLen.toNat + 1) t.buf := by
  obtain ⟨s1, h1, f1⟩ := memWrite_of_filled (bs := [d]) h (Nat.succ_le_succ hn)
  have hlen : s1.bufLen = s.bufLen := by rw [(memWrite_ok h1).1]
  simp only [appendByte, h1, hlen]
  by_cases h64 : s.bufLen + 1 = 64
  · have hn64 : s.bufLen.toNat + 1 = 64 := by rw [← bufLen_succ_toNat hn, h64]; rfl
    obtain ⟨s2, h2, hb⟩ := doCompress_of_filled c (s := { s1 with bufLen := s.bufLen + 1, len := s1.len + 8 })
      (f1.mono hn64.ge)
    rw [if_pos h64, h2]
    exact ⟨_, rfl, hb ▸ f1⟩
  · rw [if_neg h64]
    exact ⟨_, rfl, f1⟩

/-- The next free address after the first block is 56 or less (43_commands.md R144). -/
theorem closeFirstBlock_of_filled (c : Config) {n : Nat} {s : State} (h : Memory.FilledTo n s.buf) (hn : n ≤ 64) :
    ∃ t k, closeFirstBlock c n s = .ok (t, k) ∧ k ≤ 56 ∧ Memory.FilledTo k t.buf := by
  by_cases h56 : n > 56
  · have hz : n + (List.replicate (64 - n) (0x00 : Byte)).length = 64 := by rw [List.length_replicate]; omega
    obtain ⟨s1, h1, f1⟩ := memWrite_of_filled h hz.le
    obtain ⟨s2, h2, hb⟩ := doCompress_of_filled c (f1.mono hz.ge)
    exact ⟨s2, 0, by simp only [closeFirstBlock, if_pos h56, h1, h2], by decide, hb ▸ f1.mono (Nat.zero_le _)⟩
  · exact ⟨s, n, by rw [closeFirstBlock, if_neg h56], by omega, h⟩

theorem closeLastBlock_of_filled (c : Config) {n : Nat} {s : State} (h : Memory.FilledTo n s.buf) (hn : n ≤ 56) :
    ∃ t, closeLastBlock c n s = .ok t ∧ Memory.FilledTo 64 t.buf := by
  have hz : n + (List.replicate (56 - n) (0x00 : Byte)).length = 56 := by rw [List.length_replicate]; omega
  obtain ⟨s1, h1, f1⟩ := memWrite_of_filled h (hz.le.trans (by decide))
  obtain ⟨s2, h2, f2⟩ := memWrite_of_filled (bs := lengthField s1.len) (f1.mono hz.ge) (le_refl 64)
  obtain ⟨t, ht, hb⟩ := doCompress_of_filled c f2
  exact ⟨t, by simp only [closeLastBlock, h1, h2, ht], hb ▸ f2⟩

theorem finishMessage_of_filled (c : Config) {s : State} (h : Memory.FilledTo s.bufLen.toNat s.buf)
    (hn : s.bufLen.toNat ≤ 63) : ∃ t, finishMessage c s = .ok t ∧ Memory.FilledTo 64 t.buf := by
  obtain ⟨s1, h1, f1⟩ := memWrite_of_filled (bs := [padByte]) h (Nat.succ_le_succ hn)
  obtain ⟨s2, n, h2, hn2, f2⟩ := closeFirstBlock_of_filled c f1 (Nat.succ_le_succ hn)
  obtain ⟨s3, h3, f3⟩ := closeLastBlock_of_filled c f2 hn2
  have ht : finishMessage c s = .ok { s3 with bufLen := 0, dv := true } := by
    rw [List.length_singleton] at h2
    simp only [finishMessage, h1, h2, h3]
  exact ⟨_, ht, f3⟩

/-! ### The invariants along a command word (10_state.md R35) -/

theorem Invariants.filled {s : State} (h : Invariants s) : Memory.FilledTo s.bufLen.toNat s.buf := by
  refine ⟨h.buf_wf, fun a ha => ?_⟩
  obtain ⟨b, hb⟩ := h.buf_written a ha
  exact ⟨b, (readByte_buf_ok.mp hb).2⟩

/-- A fault raised outside the faulted state; `InvalidInput` comes from ABSORB, so before FINAL (10_state.md R35). -/
theorem Invariants.raise {x : Cause} {s : State} (h : Invariants s) (hf : faulted s = false)
    (hx : x = .invalidInput → s.dv = false) : Invariants (raise x s) := by
  have he := faulted_eq_false.mp hf
  have hone : (Machine.raise x s).err.atMostOne = true := by
    rw [raise_err, he]; cases x <;> rfl
  have hlen : (Machine.raise x s).err.len = true → s.dv = false := by
    rw [raise_err, he]
    cases x with
    | invalidInput => exact fun _ => hx rfl
    | illegalCommand => exact nofun
    | seqError => exact nofun
  exact { h with err_one := hone, err_len := hlen }

theorem Invariants.beginMessage {s : State} (h : Invariants s) (c : Config) : Invariants (beginMessage c s) where
  bufLen_le := Nat.zero_le _
  len_mod := rfl
  len_le := Nat.zero_le _
  absorbing := fun _ => rfl
  finalised := nofun
  err_one := rfl
  err_len := nofun
  phase_idle := rfl
  j_zero := rfl
  buf_wf := h.buf_wf
  buf_written := nofun

theorem Invariants.setDout {s : State} (h : Invariants s) (b : Byte) : Invariants { s with dout := b } := { h with }

/-- What ABSORB's effect leaves of the elements outside `COMPRESS` and `BUF` (43_commands.md R143). -/
theorem appendByte_fields {c : Config} {d : Byte} {s t : State} (h : appendByte c d s = .ok t) :
    t.dv = s.dv ∧ t.err = s.err ∧ t.dout = s.dout ∧ t.len = s.len + 8 := by
  obtain ⟨-, -, hl, ⟨-, ht⟩ | ⟨-, ht⟩⟩ := appendByte_frame h <;>
    exact ⟨by rw [ht], by rw [ht], by rw [ht], hl⟩

theorem appendByte_bufLen {c : Config} {d : Byte} {s t : State} (h : appendByte c d s = .ok t) :
    t.bufLen.toNat = (s.bufLen.toNat + 1) % 64 := by
  obtain ⟨hn, -, -, ⟨h64, ht⟩ | ⟨h64, ht⟩⟩ := appendByte_frame h
  · rw [ht]
    show (s.bufLen + 1).toNat = _
    bv_omega
  · rw [ht]
    show 0 = _
    bv_omega

theorem appendByte_idle {c : Config} {d : Byte} {s t : State} (h : appendByte c d s = .ok t)
    (hp : s.phase = .idle) (hj : s.j = 0) : t.phase = .idle ∧ t.j = 0 := by
  obtain ⟨-, -, -, ⟨-, ht⟩ | ⟨-, ht⟩⟩ := appendByte_frame h
  · rw [ht]; exact ⟨hp, hj⟩
  · rw [ht]; exact ⟨rfl, rfl⟩

/-- Below the length limit `LEN + 8` does not wrap (10_state.md R26). -/
theorem Invariants.len_add_eight {s : State} (h : Invariants s) (hl : s.len ≠ lenMax) :
    (s.len + 8).toNat = s.len.toNat + 8 ∧ s.len.toNat + 8 ≤ 2 ^ 64 - 8 := by
  have hne : s.len.toNat ≠ 2 ^ 64 - 8 := fun he => hl (BitVec.eq_of_toNat_eq he)
  have hle := h.len_le
  have hmod := h.len_mod
  exact ⟨by bv_omega, by omega⟩

theorem Invariants.appendByte {c : Config} {d : Byte} {s t : State} (h : Invariants s) (hd : s.dv = false)
    (hl : s.len ≠ lenMax) (ht : appendByte c d s = .ok t) : Invariants t := by
  obtain ⟨u, hu, hfill⟩ := appendByte_of_filled c d h.filled h.bufLen_le
  obtain rfl : u = t := Except.ok.inj (hu.symm.trans ht)
  obtain ⟨hdv, herr, -, hlen⟩ := appendByte_fields ht
  obtain ⟨hphase, hj⟩ := appendByte_idle ht h.phase_idle h.j_zero
  obtain ⟨hlen8, hmax⟩ := h.len_add_eight hl
  have hbuf := appendByte_bufLen ht
  have hmod := h.len_mod
  have habs := h.absorbing hd
  have hle := h.bufLen_le
  rw [hd] at hdv
  rw [← hlen] at hlen8
  exact {
    bufLen_le := by omega
    len_mod := by omega
    len_le := by omega
    absorbing := fun _ => by omega
    finalised := fun hdv' => absurd (hdv.symm.trans hdv') nofun
    err_one := herr ▸ h.err_one
    err_len := fun _ => hdv
    phase_idle := hphase
    j_zero := hj
    buf_wf := hfill.wf
    buf_written := fun a ha => hfill.readByte (by omega) a (by omega) }

theorem Invariants.finishMessage {c : Config} {s t : State} (h : Invariants s) (hf : faulted s = false)
    (ht : finishMessage c s = .ok t) : Invariants t := by
  obtain ⟨u, hu, hfill⟩ := finishMessage_of_filled c h.filled h.bufLen_le
  obtain rfl : u = t := Except.ok.inj (hu.symm.trans ht)
  have herr := faulted_eq_false.mp hf
  rw [(finishMessage_frame ht).2]
  exact {
    bufLen_le := Nat.zero_le _
    len_mod := h.len_mod
    len_le := h.len_le
    absorbing := nofun
    finalised := fun _ => rfl
    err_one := h.err_one
    err_len := by show s.err.len = true → _; rw [herr]; exact nofun
    phase_idle := rfl
    j_zero := rfl
    buf_wf := hfill.wf
    buf_written := nofun }

/-- Every command word keeps the invariants between commands (10_state.md R35). -/
theorem execWord_keeps_invariants {w : CmdWord} {s t : State} (h : Invariants s) (ht : execWord w s = .next t) :
    Invariants t := by
  cases execWord_cases ht with
  | nop _ e => exact e ▸ h
  | init _ e => exact e ▸ h.beginMessage _
  | rds _ e => exact e ▸ h.setDout _
  | ignored _ _ e => exact e ▸ h
  | illegal _ hf _ e => exact e ▸ h.raise hf nofun
  | absorbLate _ hf _ _ e => exact e ▸ h.raise hf nofun
  | absorbLong _ hf _ hd _ e => exact e ▸ h.raise hf fun _ => hd
  | absorb _ _ _ hd hl e => exact h.appendByte hd hl e
  | finalLate hf _ _ e => exact e ▸ h.raise hf nofun
  | final hf _ _ e => exact h.finishMessage hf e
  | rddEarly _ hf _ _ e => exact e ▸ h.raise hf nofun
  | rdd _ _ _ _ e => exact e ▸ h.setDout _

theorem unlessFaulted_completes {s : State} {x : Host.Outcome State Fault Refusal} (h : ∃ t, x = .next t) :
    ∃ t, unlessFaulted s x = .next t := by
  rw [unlessFaulted]
  split
  · exact ⟨s, rfl⟩
  · exact h

theorem execAbsorb_completes {s : State} (h : Invariants s) (d : Byte) : ∃ t, execAbsorb d s = .next t := by
  obtain ⟨u, hu, -⟩ := appendByte_of_filled Config.hw d h.filled h.bufLen_le
  refine unlessFaulted_completes ?_
  split
  · exact ⟨_, rfl⟩
  · split
    · exact ⟨_, rfl⟩
    · exact ⟨u, toOutcome_next.mpr hu⟩

theorem execFinal_completes {s : State} (h : Invariants s) : ∃ t, execFinal s = .next t := by
  obtain ⟨u, hu, -⟩ := finishMessage_of_filled Config.hw h.filled h.bufLen_le
  refine unlessFaulted_completes ?_
  split
  · exact ⟨_, rfl⟩
  · exact ⟨u, toOutcome_next.mpr hu⟩

theorem execRdd_completes (s : State) {k : Nat} (hk : k < 32) : ∃ t, execRdd k s = .next t := by
  refine unlessFaulted_completes ?_
  split
  · exact ⟨_, toOutcome_next.mpr (by rw [readDigest, readByte, dif_pos hk])⟩
  · exact ⟨_, rfl⟩

/-- No command word stops a state that meets the invariants (10_state.md R38, 20_memory.md R57). -/
theorem execWord_completes {s : State} (h : Invariants s) (w : CmdWord) : ∃ t, execWord w s = .next t := by
  rw [execWord]
  split
  · next i hi =>
    cases i with
    | nop => exact ⟨_, rfl⟩
    | init => exact ⟨_, rfl⟩
    | absorb d => exact execAbsorb_completes h d
    | final => exact execFinal_completes h
    | rdd k => exact execRdd_completes s (lt_of_decode_rdd hi)
    | rds => exact ⟨_, rfl⟩
  · exact unlessFaulted_completes ⟨_, rfl⟩

end Sys2Proof.Machine
end

section
/-! What a host sees before FINAL (00_scope.md R7, 10_state.md R21). Its view of a state (`ERR`, `DOUT` and `LEN`) after a
command other than FINAL is a function of the view before it and of the command without its message byte, so two runs
that differ in message bytes alone look alike. -/

namespace Sys2Proof.Machine

/-- What of a state before FINAL a host sees or has sent: `ERR`, `DOUT` and the number of bits. -/
structure HostView where
  err : Err
  dout : Byte
  len : BitVec 64

/-- The host's view of a state. -/
def hostView (s : State) : HostView := ⟨s.err, s.dout, s.len⟩

/-- The view with the bit of a cause set, unless the core is faulted (60_exceptions.md R163, R164). -/
def HostView.raise (x : Cause) (v : HostView) : HostView := if v.err.any then v else { v with err := v.err.set x }

/-- The view after a command other than FINAL, in a state that is not finalised: it reads no message byte. -/
def HostView.after (x : Except Reject Instr) (v : HostView) : HostView :=
  match x with
  | .ok .nop => v
  | .ok .init => ⟨Err.clear, 0x00, 0⟩
  | .ok (.absorb _) =>
    if v.len = lenMax then v.raise .invalidInput else if v.err.any then v else { v with len := v.len + 8 }
  | .ok .final => v
  | .ok (.rdd _) => v.raise .seqError
  | .ok .rds => { v with dout := statusByte false v.err }
  | .error _ => v.raise .illegalCommand

theorem HostView.raise_of_faulted {x : Cause} {s : State} (hf : faulted s = true) :
    (hostView s).raise x = hostView s := if_pos hf

theorem hostView_raise {x : Cause} {s : State} (hf : faulted s = false) :
    hostView (raise x s) = (hostView s).raise x := by
  rw [HostView.raise, if_neg (show ¬ (hostView s).err.any = true from ne_true_of_eq_false hf)]
  rfl

theorem HostView.after_of_faulted {x : Except Reject Instr} {s : State} (hf : faulted s = true)
    (hx : x ≠ .ok .nop ∧ x ≠ .ok .init ∧ x ≠ .ok .rds) : (hostView s).after x = hostView s := by
  obtain ⟨hnop, hinit, hrds⟩ := hx
  have hraise : ∀ y, (hostView s).raise y = hostView s := fun _ => raise_of_faulted hf
  match x with
  | .ok .nop => rfl
  | .ok .init => exact absurd rfl hinit
  | .ok (.absorb _) =>
    rw [after, hraise, if_pos (show (hostView s).err.any = true from hf), ite_self]
  | .ok .final => rfl
  | .ok (.rdd _) => exact hraise _
  | .ok .rds => exact absurd rfl hrds
  | .error _ => exact hraise _

/-- The message byte of an ABSORB has no part in what the host sees. -/
theorem HostView.after_eq_of_sameButData {w w' : CmdWord} (h : SameButData w w') (v : HostView) :
    v.after (decode w) = v.after (decode w') := by
  rcases h with rfl | ⟨d, d', hw, hw'⟩
  · rfl
  · rw [hw, hw']; rfl

theorem sameButData_ne_final {w w' : CmdWord} (h : SameButData w w') (hw : decode w ≠ .ok .final) :
    decode w' ≠ .ok .final := by
  rcases h with rfl | ⟨d, d', -, hw'⟩
  · exact hw
  · rw [hw']; nofun

/-- A command other than FINAL leaves a state that is not finalised so, and its view depends on the view before it. -/
theorem execWord_hostView {w : CmdWord} {s t : State} (hw : decode w ≠ .ok .final) (hd : s.dv = false)
    (ht : execWord w s = .next t) : t.dv = false ∧ hostView t = (hostView s).after (decode w) := by
  cases execWord_cases ht with
  | nop hi e => rw [hi, e]; exact ⟨hd, rfl⟩
  | init hi e => rw [hi, e]; exact ⟨rfl, rfl⟩
  | rds hi e => rw [hi, e]; exact ⟨hd, by rw [status, hd]; rfl⟩
  | ignored hf hi e => rw [e]; exact ⟨hd, (HostView.after_of_faulted hf hi).symm⟩
  | illegal _ hf hi e => rw [hi, e]; exact ⟨hd, hostView_raise hf⟩
  | absorbLate _ _ _ hd' _ => exact absurd (hd.symm.trans hd') nofun
  | absorbLong _ hf hi _ hl e =>
    rw [hi, e, HostView.after, if_pos (show (hostView s).len = lenMax from hl)]
    exact ⟨hd, hostView_raise hf⟩
  | absorb _ hf hi _ hl e =>
    obtain ⟨hdv, herr, hdout, hlen⟩ := appendByte_fields e
    rw [hi, HostView.after, if_neg (show ¬ (hostView s).len = lenMax from hl),
      if_neg (show ¬ (hostView s).err.any = true from ne_true_of_eq_false hf), hostView, herr, hdout, hlen]
    exact ⟨hdv.trans hd, rfl⟩
  | finalLate _ hi _ _ => exact absurd hi hw
  | final _ hi _ _ => exact absurd hi hw
  | rddEarly _ hf hi _ e => rw [hi, e]; exact ⟨hd, hostView_raise hf⟩
  | rdd _ _ _ hd' _ => exact absurd (hd.symm.trans hd') nofun

/-- Two states before FINAL that the host cannot tell apart, whatever message bytes they hold. -/
structure LookAlike (s t : State) : Prop where
  left : Invariants s
  right : Invariants t
  left_dv : s.dv = false
  right_dv : t.dv = false
  view : hostView s = hostView t

/-- One command other than FINAL completes in both states and keeps them alike. -/
theorem LookAlike.execWord {w w' : CmdWord} {s s' : State} (h : LookAlike s s') (hw : SameButData w w')
    (hfin : w ≠ 0x0300) :
    ∃ t t', execWord w s = .next t ∧ execWord w' s' = .next t' ∧ LookAlike t t' := by
  obtain ⟨t, ht⟩ := execWord_completes h.left w
  obtain ⟨t', ht'⟩ := execWord_completes h.right w'
  have hne : decode w ≠ .ok .final := fun hi => hfin (eq_of_decode_final hi)
  obtain ⟨hd, hv⟩ := execWord_hostView hne h.left_dv ht
  obtain ⟨hd', hv'⟩ := execWord_hostView (sameButData_ne_final hw hne) h.right_dv ht'
  refine ⟨t, t', ht, ht', execWord_keeps_invariants h.left ht, execWord_keeps_invariants h.right ht', hd, hd', ?_⟩
  rw [hv, hv', h.view, HostView.after_eq_of_sameButData hw]

/-- A run without FINAL completes in both states, shows the same `DOUT` throughout and keeps them alike. -/
theorem LookAlike.runWords {ws ws' : List CmdWord} (hws : List.Forall₂ SameButData ws ws') :
    ∀ {s s' : State}, LookAlike s s' → (∀ w ∈ ws, w ≠ 0x0300) →
      ∃ t t', runWords ws s = .next t ∧ runWords ws' s' = .next t' ∧ doutTrace ws s = doutTrace ws' s' ∧
        LookAlike t t' := by
  induction hws with
  | nil => exact fun h _ => ⟨_, _, rfl, rfl, rfl, h⟩
  | cons hw _ ih =>
    intro s s' h hfin
    rw [List.forall_mem_cons] at hfin
    obtain ⟨t, t', ht, ht', h1⟩ := h.execWord hw hfin.1
    obtain ⟨u, u', hu, hu', htrace, h2⟩ := ih h1 hfin.2
    have hdout : t.dout = t'.dout := congrArg HostView.dout h1.view
    refine ⟨u, u', ?_, ?_, ?_, h2⟩
    · simp only [Machine.runWords, ht, hu]
    · simp only [Machine.runWords, ht', hu']
    · simp only [doutTrace, ht, ht', hdout, htrace]

/-- Settles O57, by induction on the two runs with `LookAlike` as the invariant. -/
theorem runsBeforeFinalShowNoMessage : Obligations.RunsBeforeFinalShowNoMessage := by
  unfold Obligations.RunsBeforeFinalShowNoMessage
  intro ws ws' s s' hs hs' hd hd' herr hdout hlen hws hfin
  have h : LookAlike s s' := ⟨hs, hs', hd, hd', by rw [hostView, hostView, herr, hdout, hlen]⟩
  obtain ⟨t, t', ht, ht', htrace, h'⟩ := h.runWords hws hfin
  exact ⟨t, t', ht, ht', htrace, h'.left_dv, h'.right_dv, congrArg HostView.err h'.view,
    congrArg HostView.dout h'.view, congrArg HostView.len h'.view⟩

end Sys2Proof.Machine
end

section
/-! The one word of each command (30_encoding.md R73, R83), and the flags a command reads. -/

namespace Sys2Proof

theorem toNat_eq_fields (w : CmdWord) : w.toNat = (opField w).toNat * 2 ^ 8 + (immField w).toNat := by
  rw [← Machine.toNat_append_eq_add, opField_append_immField]

/-- Below 32 the operand byte is the digest address (30_encoding.md R72). -/
theorem idxField_eq_immField {w : CmdWord} (h : (immField w).toNat ≤ 31) : idxField w = (immField w).toNat := by
  have hw := toNat_eq_fields w
  rw [idxField, BitVec.extractLsb'_toNat, Nat.shiftRight_zero]
  omega

/-- A word that decodes is the encoding of its command (30_encoding.md R83). -/
theorem encode_of_decode {w : CmdWord} {i : Instr} (h : decode w = .ok i) : encode i = w := by
  have hw := toNat_eq_fields w
  apply BitVec.eq_of_toNat_eq
  rw [hw]
  cases decode_cases h with
  | nop op imm => rw [op, imm]; rfl
  | init op imm => rw [op, imm]; rfl
  | final op imm => rw [op, imm]; rfl
  | rds op imm => rw [op, imm]; rfl
  | absorb op => rw [op, encode]; bv_omega
  | rdd op imm => rw [op, encode, idxField_eq_immField imm]; bv_omega

theorem word_of_decode {w : CmdWord} {i : Instr} (h : decode w = .ok i) :
    Machine.HostInput.word w = .word (encode i) := by rw [encode_of_decode h]

end Sys2Proof
end

section
/-! What ABSORB, FINAL and RDD do by the state they meet (43_commands.md R143, R144, R145). -/

namespace Sys2Proof.Machine

theorem unlessFaulted_of_not_faulted {s : State} {x : Host.Outcome State Fault Refusal} (hf : faulted s = false) :
    unlessFaulted s x = x := if_neg (ne_true_of_eq_false hf)

theorem exec_absorb_of_dv {s : State} (d : Byte) (hf : faulted s = false) (hd : s.dv = true) :
    exec (.absorb d) s = .next (raise .seqError s) :=
  (unlessFaulted_of_not_faulted hf).trans (if_pos hd)

theorem exec_absorb_of_absorbing {s : State} (d : Byte) (hf : faulted s = false) (hd : s.dv = false)
    (hl : s.len ≠ lenMax) : exec (.absorb d) s = toOutcome (appendByte Config.hw d s) :=
  (unlessFaulted_of_not_faulted hf).trans ((if_neg (ne_true_of_eq_false hd)).trans (if_neg hl))

theorem exec_final_of_dv {s : State} (hf : faulted s = false) (hd : s.dv = true) :
    exec .final s = .next (raise .seqError s) :=
  (unlessFaulted_of_not_faulted hf).trans (if_pos hd)

theorem exec_final_of_absorbing {s : State} (hf : faulted s = false) (hd : s.dv = false) :
    exec .final s = toOutcome (finishMessage Config.hw s) :=
  (unlessFaulted_of_not_faulted hf).trans (if_neg (ne_true_of_eq_false hd))

/-- The inversion of FINAL (43_commands.md R144). -/
theorem exec_final_cases {s t : State} (h : exec .final s = .next t) :
    (faulted s = true ∧ t = s) ∨ t = raise .seqError s ∨ finishMessage Config.hw s = .ok t := by
  cases hf : faulted s with
  | true => exact .inl ⟨rfl, (Host.Outcome.next.inj ((if_pos hf).symm.trans h)).symm⟩
  | false =>
    cases hd : s.dv with
    | true =>
      rw [exec_final_of_dv hf hd] at h
      exact .inr (.inl (Host.Outcome.next.inj h).symm)
    | false =>
      rw [exec_final_of_absorbing hf hd] at h
      exact .inr (.inr (toOutcome_next.mp h))

theorem exec_rdd_of_absorbing {s : State} (k : Nat) (hf : faulted s = false) (hd : s.dv = false) :
    exec (.rdd k) s = .next (raise .seqError s) :=
  (unlessFaulted_of_not_faulted hf).trans (if_neg (ne_true_of_eq_false hd))

/-! ### The effect of a move of the host -/

/-- Everything one move of the host can do to the elements besides `ERR`, with what it does to the absorbed message where
that is nothing. -/
inductive MoveEffect (s t : State) : HostInput → Prop
  | reset (h : t = takeReset s) : MoveEffect s t .reset
  | kept (m : HostInput) (e : Err) (hm : ∀ l, absorbedAfter m s l = l) (h : t = { s with err := e }) :
    MoveEffect s t m
  | init (w : CmdWord) (hw : decode w = .ok .init) (h : t = beginMessage Config.hw s) : MoveEffect s t (.word w)
  | rds (w : CmdWord) (hw : decode w = .ok .rds) (h : t = { s with dout := status s }) : MoveEffect s t (.word w)
  | rdd (w : CmdWord) (k : Fin 32) (hw : decode w = .ok (.rdd k.val)) (hf : faulted s = false) (hd : s.dv = true)
      (h : t = { s with dout := dig s.v k }) : MoveEffect s t (.word w)
  | absorb (w : CmdWord) (d : Byte) (hw : decode w = .ok (.absorb d)) (hf : faulted s = false) (hd : s.dv = false)
      (hl : s.len ≠ lenMax) (h : appendByte Config.hw d s = .ok t) : MoveEffect s t (.word w)
  | final (w : CmdWord) (hw : decode w = .ok .final) (hf : faulted s = false) (hd : s.dv = false)
      (h : finishMessage Config.hw s = .ok t) : MoveEffect s t (.word w)

/-- A word other than INIT, and other than an ABSORB that appends its byte, leaves the absorbed message. -/
theorem absorbedAfter_word_eq_self {w : CmdWord} {s : State} (hi : decode w ≠ .ok .init)
    (ha : ∀ d, decode w = .ok (.absorb d) → faulted s = true ∨ s.dv = true ∨ s.len = lenMax) (l : List Byte) :
    absorbedAfter (.word w) s l = l := by
  simp only [absorbedAfter]
  split
  · next h => exact absurd h hi
  · next d h => exact if_pos (ha d h)
  all_goals rfl

/-- The inversion of `execInput`. -/
theorem execInput_cases {m : HostInput} {s t : State} (h : execInput m s = .next t) : MoveEffect s t m := by
  cases m with
  | reset => cases h; exact .reset rfl
  | word w =>
    cases execWord_cases h with
    | init hw e => exact .init w hw e
    | rds hw e => exact .rds w hw e
    | rdd k hf hw hd e => exact .rdd w k hw hf hd e
    | absorb d hf hw hd hl e => exact .absorb w d hw hf hd hl e
    | final hf hw hd e => exact .final w hw hf hd e
    | nop hw e => exact .kept _ s.err (absorbedAfter_word_eq_self (by simp [hw]) (by simp [hw])) e
    | ignored hf hw e =>
      obtain ⟨-, hinit, -⟩ := hw
      exact .kept _ s.err (absorbedAfter_word_eq_self hinit fun _ _ => .inl hf) e
    | illegal _ _ hw e => exact .kept _ _ (absorbedAfter_word_eq_self (by simp [hw]) (by simp [hw])) e
    | absorbLate _ _ hw hd e =>
      exact .kept _ _ (absorbedAfter_word_eq_self (by simp [hw]) fun _ _ => .inr (.inl hd)) e
    | absorbLong _ _ hw _ hl e =>
      exact .kept _ _ (absorbedAfter_word_eq_self (by simp [hw]) fun _ _ => .inr (.inr hl)) e
    | finalLate _ hw _ e => exact .kept _ _ (absorbedAfter_word_eq_self (by simp [hw]) (by simp [hw])) e
    | rddEarly _ _ hw _ e => exact .kept _ _ (absorbedAfter_word_eq_self (by simp [hw]) (by simp [hw])) e

end Sys2Proof.Machine
end

section
/-! Steps and runs from reset keep the invariants (10_state.md R35, R38; 70_reset_and_hazards.md R187). -/

namespace Sys2Proof.Machine

theorem invariants_reset : Invariants State.reset where
  bufLen_le := by decide
  len_mod := by decide
  len_le := by decide
  absorbing := fun _ => rfl
  finalised := nofun
  err_one := rfl
  err_len := nofun
  phase_idle := rfl
  j_zero := rfl
  buf_wf := reset_buf_wf
  buf_written := nofun

/-- The invariants do not speak of the host's moves. -/
theorem Invariants.setInputs {s : State} (h : Invariants s) (ms : List HostInput) : Invariants { s with inputs := ms } :=
  { h with }

theorem execInput_keeps_invariants {x : HostInput} {s t : State} (h : Invariants s) (ht : execInput x s = .next t) :
    Invariants t := by
  cases x with
  | word w => exact execWord_keeps_invariants h ht
  | reset => cases ht; exact invariants_reset.setInputs _

theorem execInput_completes {s : State} (h : Invariants s) (x : HostInput) : ∃ t, execInput x s = .next t := by
  cases x with
  | word w => exact execWord_completes h w
  | reset => exact ⟨_, rfl⟩

theorem step_keeps_invariants {s t : State} (h : Invariants s) (ht : step s = .next t) : Invariants t := by
  cases hi : s.inputs with
  | nil => rw [step_idle hi] at ht; cases ht; exact h
  | cons x rest => rw [step_of_inputs hi] at ht; exact execInput_keeps_invariants (h.setInputs rest) ht

theorem step_completes {s : State} (h : Invariants s) : ∃ t, step s = .next t := by
  cases hi : s.inputs with
  | nil => exact ⟨s, step_idle hi⟩
  | cons x rest => rw [step_of_inputs hi]; exact execInput_completes (h.setInputs rest) x

theorem run_succ_of_step (k : Nat) {s t : State} (ht : step s = .next t) :
    Host.Core.run Sys2Proof.core (k + 1) s = Host.Core.run Sys2Proof.core k t := by
  have hs : Sys2Proof.core.step s = .next t := ht
  simp only [Host.Core.run, hs]

theorem safeRun_of_invariants (k : Nat) {s : State} (h : Invariants s) : SafeRun k s := by
  induction k generalizing s with
  | zero => exact ⟨s, rfl, h⟩
  | succ k ih =>
    obtain ⟨t, ht⟩ := step_completes h
    obtain ⟨u, hu, hinv⟩ := ih (step_keeps_invariants h ht)
    exact ⟨u, (run_succ_of_step k ht).trans hu, hinv⟩

/-- Settles O29, by the host's next move. -/
theorem everyStepKeepsTheInvariants : Obligations.EveryStepKeepsTheInvariants := by
  unfold Obligations.EveryStepKeepsTheInvariants
  exact fun _ _ h ht => step_keeps_invariants h ht

/-- Settles O30, by the host's next move. -/
theorem invariantStatesNeverStop : Obligations.InvariantStatesNeverStop := by
  unfold Obligations.InvariantStatesNeverStop
  exact fun _ h => step_completes h

/-- Settles O28, item by item. -/
theorem invariantsHoldAtReset : Obligations.InvariantsHoldAtReset := by
  unfold Obligations.InvariantsHoldAtReset
  exact invariants_reset

/-- Settles O31, by induction on the number of steps with the invariants carried along. -/
theorem everyRunFromResetIsSafe : Obligations.EveryRunFromResetIsSafe := by
  unfold Obligations.EveryRunFromResetIsSafe
  exact fun ms k => safeRun_of_invariants k (invariants_reset.setInputs ms)

end Sys2Proof.Machine
end

section
/-! Who writes `DV`, `DOUT`, `LEN`, `V` and `BUF` (10_state.md R21, R26, R27, R29; 20_memory.md R64). -/

namespace Sys2Proof.Machine

/-! ### The values after reset and INIT (10_state.md R36) -/

theorem cleanEntry_reset : CleanEntry Config.hw State.reset := ⟨rfl, rfl, rfl, rfl, rfl, rfl, rfl, rfl⟩

theorem cleanEntry_beginMessage (c : Config) (s : State) : CleanEntry c (beginMessage c s) :=
  ⟨rfl, rfl, rfl, rfl, rfl, rfl, rfl, rfl⟩

/-- A byte of `BUF` depends on no other element. -/
theorem readByte_buf_congr {s t : State} (h : t.buf = s.buf) (a : Nat) : readByte .buf t a = readByte .buf s a := by
  simp only [readByte, h]

/-- Settles O11, element by element. -/
theorem resetAndInitValues : Obligations.ResetAndInitValues := by
  unfold Obligations.ResetAndInitValues
  exact ⟨cleanEntry_reset,
    fun s => ⟨_, rfl, cleanEntry_beginMessage _ s, rfl, rfl, readByte_buf_congr (beginMessage_buf _ s)⟩⟩

/-! ### `DV` (10_state.md R27) -/

theorem appendByte_inputs {c : Config} {d : Byte} {s t : State} (h : appendByte c d s = .ok t) :
    t.inputs = s.inputs := by
  obtain ⟨-, -, -, ⟨-, ht⟩ | ⟨-, ht⟩⟩ := appendByte_frame h <;> rw [ht]

theorem finishMessage_fields {c : Config} {s t : State} (h : finishMessage c s = .ok t) :
    t.dv = true ∧ t.err = s.err ∧ t.dout = s.dout ∧ t.len = s.len ∧ t.bufLen = 0 ∧ t.inputs = s.inputs := by
  rw [(finishMessage_frame h).2]
  exact ⟨rfl, rfl, rfl, rfl, rfl, rfl⟩

/-- What a move of the host does to `DV`. -/
theorem execInput_dv {m : HostInput} {s t : State} (h : execInput m s = .next t) :
    t.dv = s.dv ∨ (t.dv = true ∧ m = .word 0x0300 ∧ t.err = s.err) ∨
      (t.dv = false ∧ (m = .reset ∨ m = .word 0x0100)) := by
  cases execInput_cases h with
  | reset e => exact .inr (.inr ⟨by rw [e]; rfl, .inl rfl⟩)
  | kept _ _ _ e => exact .inl (by rw [e])
  | init w hw e => exact .inr (.inr ⟨by rw [e]; rfl, .inr (word_of_decode hw)⟩)
  | rds _ _ e => exact .inl (by rw [e])
  | rdd _ _ _ _ _ e => exact .inl (by rw [e])
  | absorb _ _ _ _ _ _ e => exact .inl (appendByte_fields e).1
  | final w hw _ _ e =>
    obtain ⟨hdv, herr, -⟩ := finishMessage_fields e
    exact .inr (.inl ⟨hdv, word_of_decode hw, herr⟩)

/-- A raised fault is seen in `ERR` (60_exceptions.md R163). -/
theorem raise_err_ne_clear (x : Cause) (s : State) : (raise x s).err ≠ Err.clear := by
  rw [raise_err, Err.clear]
  cases x <;> simp [Err.set]

/-- A FINAL that leaves no fault has made the digest (43_commands.md R144). -/
theorem exec_final_dv {s t : State} (h : exec .final s = .next t) (he : t.err = Err.clear) : t.dv = true := by
  rcases exec_final_cases h with ⟨hf, rfl⟩ | rfl | hfin
  · exact absurd (faulted_eq_false.mpr he) (ne_false_of_eq_true hf)
  · exact absurd he (raise_err_ne_clear _ _)
  · exact (finishMessage_fields hfin).1

theorem statusByte_getLsbD_zero (dv : Bool) (e : Err) : (statusByte dv e).getLsbD 0 = dv := by
  have hflag : (flagBit dv)[0] = dv := by cases dv <;> rfl
  simp [statusByte, hflag]

/-- Settles O22, by the effect of each command. -/
theorem digestValidHasTwoWriters : Obligations.DigestValidHasTwoWriters := by
  unfold Obligations.DigestValidHasTwoWriters
  refine ⟨fun m s t h => execInput_dv h, fun s t => exec_final_dv, fun s t h => ?_, fun s => rfl, fun d k s hf => ?_,
    fun s t h => ?_⟩
  · cases h; rfl
  · exact ⟨fun hd => ⟨exec_absorb_of_dv d hf hd, exec_final_of_dv hf hd⟩, exec_rdd_of_absorbing k hf⟩
  · cases h; exact statusByte_getLsbD_zero _ _

/-! ### `DOUT` (10_state.md R29) -/

/-- Settles O23, by the effect of each command. -/
theorem doutHasFourWriters : Obligations.DoutHasFourWriters := by
  unfold Obligations.DoutHasFourWriters
  intro m s t h
  cases execInput_cases h with
  | reset e => exact .inr (.inl ⟨rfl, by rw [e]; rfl⟩)
  | kept _ _ _ e => exact .inl (by rw [e])
  | init w hw e => exact .inr (.inr (.inl ⟨word_of_decode hw, by rw [e]; rfl⟩))
  | rds w hw e => exact .inr (.inr (.inr (.inl ⟨word_of_decode hw, by rw [e]⟩)))
  | rdd w k hw hf hd e => exact .inr (.inr (.inr (.inr ⟨k, word_of_decode hw, hd, hf, by rw [e]⟩)))
  | absorb _ _ _ _ _ _ e => obtain ⟨-, -, hdout, -⟩ := appendByte_fields e; exact .inl hdout
  | final _ _ _ _ e => obtain ⟨-, -, hdout, -⟩ := finishMessage_fields e; exact .inl hdout

@[simp] theorem HostView.raise_dout (x : Cause) (v : HostView) : (v.raise x).dout = v.dout := by
  rw [raise]; split <;> rfl

/-- `LEN` has no part in `DOUT` before FINAL. -/
theorem HostView.after_dout_congr {v v' : HostView} (herr : v.err = v'.err) (hdout : v.dout = v'.dout)
    (x : Except Reject Instr) : (v.after x).dout = (v'.after x).dout := by
  have habsorb : ∀ (u : HostView) (d : Byte), (u.after (.ok (.absorb d))).dout = u.dout := by
    intro u d
    simp only [after]
    split
    · exact HostView.raise_dout _ _
    · split <;> rfl
  match x with
  | .ok .nop => exact hdout
  | .ok .init => rfl
  | .ok (.absorb d) => rw [habsorb, habsorb, hdout]
  | .ok .final => exact hdout
  | .ok (.rdd _) => simpa only [after, HostView.raise_dout] using hdout
  | .ok .rds => simp only [after, herr]
  | .error _ => simpa only [after, HostView.raise_dout] using hdout

/-- FINAL leaves `DOUT` as it is (10_state.md R29). -/
theorem exec_final_dout {s t : State} (h : exec .final s = .next t) : t.dout = s.dout := by
  rcases exec_final_cases h with ⟨-, rfl⟩ | rfl | hfin
  · rfl
  · rfl
  · obtain ⟨-, -, hdout, -⟩ := finishMessage_fields hfin
    exact hdout

/-- Settles O26: the host's view of both states after the word is the same function of the view before it, and FINAL
leaves `DOUT`. -/
theorem oneOutputBeforeFinalShowsNoMessage : Obligations.OneOutputBeforeFinalShowsNoMessage := by
  unfold Obligations.OneOutputBeforeFinalShowsNoMessage
  intro w s s' t t' hd hd' herr hdout h h'
  by_cases hw : decode w = .ok .final
  · simp only [execWord, hw] at h h'
    rw [exec_final_dout h, exec_final_dout h', hdout]
  · have hv := (execWord_hostView hw hd h).2
    have hv' := (execWord_hostView hw hd' h').2
    calc t.dout = ((hostView s).after (decode w)).dout := congrArg HostView.dout hv
      _ = ((hostView s').after (decode w)).dout := HostView.after_dout_congr herr hdout _
      _ = t'.dout := (congrArg HostView.dout hv').symm

/-! ### `LEN` (10_state.md R26) -/

/-- A multiple of 8 is at most `2^64 - 8`. -/
theorem len_le_of_mod {x : BitVec 64} (h : x.toNat % 8 = 0) : x.toNat ≤ 2 ^ 64 - 8 := by
  have hx := x.isLt
  omega

/-- Below the limit `LEN + 8` does not wrap. -/
theorem len_add_eight_toNat {x : BitVec 64} (h : x.toNat % 8 = 0) (hl : x ≠ lenMax) :
    (x + 8).toNat = x.toNat + 8 := by
  have hne : x.toNat ≠ 2 ^ 64 - 8 := fun he => hl (BitVec.eq_of_toNat_eq he)
  bv_omega

/-- What a move of the host does to `LEN`. -/
theorem execInput_len {m : HostInput} {s t : State} (h8 : s.len.toNat % 8 = 0) (h : execInput m s = .next t) :
    t.len = s.len ∨ (t.len = 0 ∧ (m = .reset ∨ m = .word 0x0100)) ∨
      (t.len.toNat = s.len.toNat + 8 ∧ ∃ d : Byte, m = .word (0x0200 + d.setWidth 16)) := by
  cases execInput_cases h with
  | reset e => exact .inr (.inl ⟨by rw [e]; rfl, .inl rfl⟩)
  | kept _ _ _ e => exact .inl (by rw [e])
  | init w hw e => exact .inr (.inl ⟨by rw [e]; rfl, .inr (word_of_decode hw)⟩)
  | rds _ _ e => exact .inl (by rw [e])
  | rdd _ _ _ _ _ e => exact .inl (by rw [e])
  | absorb w d hw _ _ hl e =>
    obtain ⟨-, -, -, hlen⟩ := appendByte_fields e
    exact .inr (.inr ⟨by rw [hlen, len_add_eight_toNat h8 hl], d, word_of_decode hw⟩)
  | final _ _ _ _ e => obtain ⟨-, -, -, hlen, -⟩ := finishMessage_fields e; exact .inl hlen

/-- Settles O24: every writer keeps a multiple of 8, which is never above the limit. -/
theorem lengthCounterNeverWraps : Obligations.LengthCounterNeverWraps := by
  unfold Obligations.LengthCounterNeverWraps
  intro m s t h8 h
  have hlen := execInput_len h8 h
  have hmod : t.len.toNat % 8 = 0 := by
    rcases hlen with h | ⟨h, -⟩ | ⟨h, -⟩
    · rw [h, h8]
    · rw [h]; rfl
    · omega
  exact ⟨hlen, hmod, len_le_of_mod hmod⟩

/-! ### `V` and `BUF` (10_state.md R21, 20_memory.md R64) -/

/-- An ABSORB writes `V` exactly when it fills the block (43_commands.md R143). -/
theorem appendByte_v {c : Config} {d : Byte} {s t : State} (h : appendByte c d s = .ok t) :
    t.v = s.v ∨ s.bufLen.toNat = 63 := by
  obtain ⟨-, -, -, ⟨-, ht⟩ | ⟨h64, -⟩⟩ := appendByte_frame h
  · exact .inl (by rw [ht])
  · exact .inr (by bv_omega)

/-- An ABSORB writes its byte at `BUFLEN` and no other (43_commands.md R143). -/
theorem appendByte_readByte {c : Config} {d : Byte} {s t : State} (h : appendByte c d s = .ok t) (a : Nat) :
    readByte .buf t a = if a = s.bufLen.toNat then .ok d else readByte .buf s a := by
  obtain ⟨hn, hbuf, -⟩ := appendByte_frame h
  simp only [readByte, hbuf, Memory.read_write]
  by_cases ha : a = s.bufLen.toNat
  · simp only [if_pos ha, if_pos (ha ▸ hn)]
  · simp only [if_neg ha]

/-- Settles O25, by the effect of each command. -/
theorem chainingStateAndBufferWriters : Obligations.ChainingStateAndBufferWriters := by
  unfold Obligations.ChainingStateAndBufferWriters
  intro m s t h
  cases execInput_cases h with
  | reset e => exact ⟨.inr (.inl ⟨.inl rfl, by rw [e]; rfl⟩), fun _ => .inr (.inl rfl)⟩
  | kept _ _ _ e => rw [e]; exact ⟨.inl rfl, fun _ => .inl rfl⟩
  | init w hw e => rw [e]; exact ⟨.inr (.inl ⟨.inr (word_of_decode hw), rfl⟩), fun _ => .inl rfl⟩
  | rds _ _ e => rw [e]; exact ⟨.inl rfl, fun _ => .inl rfl⟩
  | rdd _ _ _ _ _ e => rw [e]; exact ⟨.inl rfl, fun _ => .inl rfl⟩
  | absorb w d hw _ hd _ e =>
    refine ⟨(appendByte_v e).imp_right fun h63 => .inr (.inl ⟨⟨d, word_of_decode hw⟩, h63, hd⟩), fun a => ?_⟩
    have hr := appendByte_readByte e a
    by_cases ha : a = s.bufLen.toNat
    · rw [if_pos ha] at hr
      exact .inr (.inr (.inr ⟨ha, d, word_of_decode hw, hr⟩))
    · rw [if_neg ha] at hr
      exact .inl hr
  | final w hw _ hd _ =>
    exact ⟨.inr (.inr (.inr ⟨word_of_decode hw, hd⟩)), fun _ => .inr (.inr (.inl ⟨word_of_decode hw, hd⟩))⟩

end Sys2Proof.Machine
end

section
/-! The round and `COMPRESS` on the state (10_state.md R23, 41_compression.md R105, R118, R120): the block that stands in
`BUF` is compressed into `V`. -/

namespace Sys2Proof.Machine

/-! ### The registers a round passes on (10_state.md R23) -/

theorem roundAt_set_seven (c : Config) (w : Nat → Word) (j : Nat) (r : Words8) (x : Word) :
    roundAt c w j (r.set 7 x) = roundAt c w j r := by
  simp [roundAt, roundFn, tt1, tt2, ss1, ss2]

theorem roundAt_getElem_five (c : Config) (w : Nat → Word) (j : Nat) (r : Words8) : (roundAt c w j r)[5] = r[4] := rfl

theorem roundAt_getElem_six (c : Config) (w : Nat → Word) (j : Nat) (r : Words8) : (roundAt c w j r)[6] = r[5] := rfl

theorem roundAt_getElem_seven (c : Config) (w : Nat → Word) (j : Nat) (r : Words8) : (roundAt c w j r)[7] = r[6] := rfl

/-- Settles O43: `E` moves to `F`, `G` and `H` in the last three rounds. -/
theorem oldHIsNeverRead : Obligations.OldHIsNeverRead := by
  unfold Obligations.OldHIsNeverRead
  refine ⟨roundAt_set_seven, fun c w r => ?_⟩
  rw [rounds, roundsUpTo_succ, roundAt_getElem_seven, roundsUpTo_succ, roundAt_getElem_six, roundsUpTo_succ,
    roundAt_getElem_five]

/-! ### `BUF` begins with a list of bytes -/

/-- The bytes of a list stand in the memory from address 0 on. -/
def Memory.Begins (m : Memory) (bs : List Byte) : Prop := ∀ k (h : k < bs.length), Memory.read m k = some bs[k]

theorem Memory.begins_nil (m : Memory) : Memory.Begins m [] := nofun

/-- Bytes written behind the ones that stand in the memory. -/
theorem Memory.Begins.writeList {m : Memory} {bs : List Byte} (h : Memory.Begins m bs) (cs : List Byte) :
    Memory.Begins (Memory.writeList m bs.length cs) (bs ++ cs) := by
  intro k hk
  rw [List.length_append] at hk
  rw [Memory.read_writeList]
  by_cases hlt : k < bs.length
  · rw [if_neg (by omega), h k hlt, List.getElem_append_left hlt]
  · rw [if_pos ⟨by omega, hk⟩, List.getElem_append_right (by omega), List.getElem?_eq_getElem]

/-- A read from address 0 of a list that stands in `BUF`. -/
theorem memRead_iff_begins {s : State} {bs : List Byte} {n : Nat} (hn : n ≤ 64) :
    memRead .buf s 0 n = .ok bs ↔ bs.length = n ∧ Memory.Begins s.buf bs := by
  rw [memRead_ok]
  refine and_congr_right fun hlen => forall₂_congr fun k hk => ?_
  rw [Nat.zero_add, readByte_buf_ok]
  exact and_iff_right (by omega)

/-- A write behind the bytes that stand in `BUF`. -/
theorem memWrite_of_begins {s : State} {bs cs : List Byte} (h : Memory.Begins s.buf bs)
    (hn : bs.length + cs.length ≤ 64) :
    ∃ m, memWrite s bs.length cs = .ok { s with buf := m } ∧ Memory.Begins m (bs ++ cs) :=
  ⟨_, memWrite_eq s _ cs hn, h.writeList cs⟩

/-! ### `COMPRESS` (41_compression.md R120) -/

theorem at32_putBlock (blk : List Byte) (w : Vector Word 68) {i : Nat} (h : i < 16) :
    at32 (putBlock blk w) i = (blockWords blk).getD i 0 := by
  simp [at32, putBlock, blockWords, h, show i < 68 by omega]

/-- The micro-steps compute `Compress` of the block in `BUF` (41_compression.md R118, R120). -/
theorem doCompress_v {c : Config} {s : State} {blk : List Byte} (h : Memory.Begins s.buf blk) (hl : blk.length = 64) :
    ∃ t, doCompress c s = .ok t ∧ t.v = compress c s.v blk := by
  have hread : memRead .buf { s with phase := .loadblk } 0 64 = .ok blk := (memRead_iff_begins (le_refl 64)).mpr ⟨hl, h⟩
  obtain ⟨w', hloop, hw'⟩ := expandLoop_eq { s with phase := .expand, w := putBlock blk s.w, r := s.v }
  have hsched := hw' (blockWords blk) (blockWords_length blk) fun i hi => at32_putBlock blk s.w hi
  refine ⟨_, by simp only [doCompress, doLoadBlk, hread]; rfl, ?_⟩
  simp only [hloop, roundLoop_eq, doFeed, compress, rounds]
  rw [roundsUpTo_congr c 64 s.v hsched]

/-! ### `CompressAll` (42_output_and_hash.md R135) -/

theorem blk_append_left {a : List Byte} (b : List Byte) {n : Nat} (h : 64 * n + 64 ≤ a.length) :
    blk (a ++ b) n = blk a n := by
  rw [blk, blk, List.drop_append_of_le_length (by omega), List.take_append_of_le_length (by rw [List.length_drop]; omega)]

theorem blk_append_right {a : List Byte} (b : List Byte) (n : Nat) {k : Nat} (h : a.length = 64 * k) :
    blk (a ++ b) (k + n) = blk b n := by
  rw [blk, blk, show 64 * (k + n) = a.length + 64 * n by omega, List.drop_length_add_append]

/-- The blocks before a block boundary are compressed first. -/
theorem compressAll_append (c : Config) (v : Words8) {a : List Byte} (b : List Byte) (h : a.length % 64 = 0) :
    compressAll c v (a ++ b) = compressAll c (compressAll c v a) b := by
  obtain ⟨k, hk⟩ := Nat.dvd_of_mod_eq_zero h
  have hblocks : (a ++ b).length / 64 = k + b.length / 64 := by rw [List.length_append]; omega
  have hka : a.length / 64 = k := by omega
  have hfirst : (List.range k).foldl (fun v n => compress c v (blk (a ++ b) n)) v = compressAll c v a := by
    rw [compressAll, hka]
    exact List.foldl_ext _ _ _ fun v n hn => by rw [blk_append_left b (by have := List.mem_range.mp hn; omega)]
  rw [compressAll, hblocks, List.range_add, List.foldl_append, List.foldl_map, hfirst]
  simp only [blk_append_right b _ hk]
  rfl

theorem compressAll_block (c : Config) (v : Words8) {b : List Byte} (h : b.length = 64) :
    compressAll c v b = compress c v b := by
  rw [compressAll, h]
  show compress c v (blk b 0) = _
  rw [blk, Nat.mul_zero, List.drop_zero, List.take_of_length_le h.le]

end Sys2Proof.Machine
end

section
/-! ABSORB and FINAL on a `BUF` that begins with the rest of the message (43_commands.md R143, R144). -/

namespace Sys2Proof.Machine

/-- A byte appended: the block is compressed as soon as it is full, and else stands in `BUF` (43_commands.md R143). -/
theorem appendByte_of_begins (c : Config) (d : Byte) {s : State} {bs : List Byte} (h : Memory.Begins s.buf bs)
    (hl : bs.length = s.bufLen.toNat) (hn : s.bufLen.toNat ≤ 63) :
    ∃ t, appendByte c d s = .ok t ∧ t.v = (if bs.length = 63 then compress c s.v (bs ++ [d]) else s.v) ∧
      Memory.Begins t.buf (if bs.length = 63 then [] else bs ++ [d]) := by
  obtain ⟨m, hw, hm⟩ := memWrite_of_begins (cs := [d]) h (by rw [hl]; exact Nat.succ_le_succ hn)
  rw [hl] at hw
  simp only [appendByte, hw]
  by_cases h63 : bs.length = 63
  · obtain ⟨u, hu, hv⟩ := doCompress_v (c := c)
      (s := { s with buf := m, bufLen := s.bufLen + 1, len := s.len + 8 }) hm (by rw [List.length_append, h63]; rfl)
    rw [if_pos (show s.bufLen + 1 = 64 by bv_omega), hu, if_pos h63, if_pos h63]
    exact ⟨_, rfl, hv, Memory.begins_nil _⟩
  · have h64 : s.bufLen + 1 ≠ 64 := by bv_omega
    rw [if_neg h64, if_neg h63, if_neg h63]
    exact ⟨_, rfl, rfl, hm⟩

/-- What stands behind the rest of a message at its end: the pad byte, zero bytes and the length field
(40_padding.md R90, 43_commands.md R144). -/
def closing (n : Nat) (len : BitVec 64) : List Byte :=
  [padByte] ++ List.replicate (zeroCount n) 0x00 ++ lengthField len

theorem lengthField_length (len : BitVec 64) : (lengthField len).length = 8 := by simp [lengthField, bytesBE]

/-- The first block closed: what is left to compress is the same, and ends below the length field. -/
theorem closeFirstBlock_of_begins (c : Config) {s : State} {bs : List Byte} (h : Memory.Begins s.buf bs)
    (hl : bs.length ≤ 64) :
    ∃ t rest, closeFirstBlock c bs.length s = .ok (t, rest.length) ∧ Memory.Begins t.buf rest ∧ rest.length ≤ 56 ∧
      t.len = s.len ∧ ∀ tail, compressAll c s.v (bs ++ List.replicate ((120 - bs.length) % 64) 0x00 ++ tail) =
        compressAll c t.v (rest ++ List.replicate (56 - rest.length) 0x00 ++ tail) := by
  by_cases h56 : bs.length > 56
  · have hlen : (bs ++ List.replicate (64 - bs.length) (0x00 : Byte)).length = 64 := by simp; omega
    obtain ⟨m, hw, hm⟩ := memWrite_of_begins (cs := List.replicate (64 - bs.length) 0x00) h
      (by rw [← List.length_append]; exact hlen.le)
    obtain ⟨t, ht, hv⟩ := doCompress_v (c := c) (s := { s with buf := m }) hm hlen
    refine ⟨t, [], by simp only [closeFirstBlock, if_pos h56, hw, ht, List.length_nil], Memory.begins_nil _, by decide,
      by rw [doCompress_frame ht], fun tail => ?_⟩
    have hzero : (120 - bs.length) % 64 = (64 - bs.length) + 56 := by omega
    rw [hzero, List.replicate_add, ← List.append_assoc, List.append_assoc _ _ tail,
      compressAll_append c _ _ (by rw [hlen]), compressAll_block c _ hlen, hv]
    rfl
  · refine ⟨s, bs, by rw [closeFirstBlock, if_neg h56], h, by omega, rfl, fun tail => ?_⟩
    rw [show (120 - bs.length) % 64 = 56 - bs.length by omega]

/-- The last block compressed. -/
theorem closeLastBlock_of_begins (c : Config) {s : State} {bs : List Byte} (h : Memory.Begins s.buf bs)
    (hl : bs.length ≤ 56) :
    ∃ t, closeLastBlock c bs.length s = .ok t ∧
      t.v = compressAll c s.v (bs ++ List.replicate (56 - bs.length) 0x00 ++ lengthField s.len) := by
  have hzero : (bs ++ List.replicate (56 - bs.length) (0x00 : Byte)).length = 56 := by simp; omega
  have hlen : (bs ++ List.replicate (56 - bs.length) (0x00 : Byte) ++ lengthField s.len).length = 64 := by
    rw [List.length_append, hzero, lengthField_length]
  obtain ⟨m, hw, hm⟩ := memWrite_of_begins (cs := List.replicate (56 - bs.length) 0x00) h
    (by rw [← List.length_append, hzero]; decide)
  obtain ⟨m', hw', hm'⟩ := memWrite_of_begins (s := { s with buf := m }) (cs := lengthField s.len) hm
    (by rw [← List.length_append]; exact hlen.le)
  obtain ⟨t, ht, hv⟩ := doCompress_v (c := c) (s := { s with buf := m' }) hm' hlen
  rw [hzero] at hw'
  exact ⟨t, by simp only [closeLastBlock, hw, hw', ht], by rw [hv, compressAll_block c _ hlen]⟩

/-- FINAL compresses the rest of the message and what closes it, in one block or two (43_commands.md R144). -/
theorem finishMessage_of_begins (c : Config) {s : State} {bs : List Byte} (h : Memory.Begins s.buf bs)
    (hl : bs.length = s.bufLen.toNat) (hn : s.bufLen.toNat ≤ 63) :
    ∃ t, finishMessage c s = .ok t ∧ t.v = compressAll c s.v (bs ++ closing bs.length s.len) := by
  have hpad : (bs ++ [padByte]).length = bs.length + 1 := List.length_append
  obtain ⟨m, hw, hm⟩ := memWrite_of_begins (cs := [padByte]) h (by rw [hl]; exact Nat.succ_le_succ hn)
  obtain ⟨s2, rest, h2, hrest, h56, hlen, hv⟩ := closeFirstBlock_of_begins c (s := { s with buf := m }) hm (by omega)
  obtain ⟨s3, h3, hv3⟩ := closeLastBlock_of_begins c hrest h56
  rw [hpad, hl] at h2
  rw [hl] at hw
  have ht : finishMessage c s = .ok { s3 with bufLen := 0, dv := true } := by simp only [finishMessage, hw, h2, h3]
  have hzero : zeroCount bs.length = (120 - (bs.length + 1)) % 64 := by rw [zeroCount]; omega
  refine ⟨_, ht, ?_⟩
  show s3.v = _
  rw [hv3, ← hv, hpad, ← hzero, hlen, closing]
  simp only [List.append_assoc]

end Sys2Proof.Machine
end

section
/-! The absorbed message and its hash (10_state.md R35 items 6 and 7, 40_padding.md R90, 42_output_and_hash.md R134). -/

namespace Sys2Proof.Machine

/-! ### The whole blocks of a message and the rest -/

/-- The whole blocks of a message, which are compressed already (10_state.md R35, item 6). -/
def wholeBlocks (m : List Byte) : List Byte := m.take (64 * (m.length / 64))

/-- The bytes of a message behind its whole blocks, which stand in `BUF` (10_state.md R35, item 6). -/
def restBytes (m : List Byte) : List Byte := m.drop (64 * (m.length / 64))

theorem wholeBlocks_append_restBytes (m : List Byte) : wholeBlocks m ++ restBytes m = m := List.take_append_drop _ m

theorem restBytes_length (m : List Byte) : (restBytes m).length = m.length % 64 := by
  rw [restBytes, List.length_drop]; omega

theorem wholeBlocks_length_mod (m : List Byte) : (wholeBlocks m).length % 64 = 0 := by
  rw [wholeBlocks, List.length_take]; omega

/-- A cut of a message at a block boundary, with less than a block behind it, is this one. -/
theorem wholeBlocks_restBytes_of_append {a b : List Byte} (ha : a.length % 64 = 0) (hb : b.length < 64) :
    wholeBlocks (a ++ b) = a ∧ restBytes (a ++ b) = b := by
  have hlen : 64 * ((a ++ b).length / 64) = a.length := by rw [List.length_append]; omega
  exact ⟨by rw [wholeBlocks, hlen, List.take_left], by rw [restBytes, hlen, List.drop_left]⟩

/-- The cut after one more byte, whether or not it fills the block. -/
theorem wholeBlocks_restBytes_concat (m : List Byte) (d : Byte) :
    wholeBlocks (m ++ [d]) =
        (if (restBytes m).length = 63 then wholeBlocks m ++ (restBytes m ++ [d]) else wholeBlocks m) ∧
      restBytes (m ++ [d]) = if (restBytes m).length = 63 then [] else restBytes m ++ [d] := by
  have hm : m ++ [d] = wholeBlocks m ++ (restBytes m ++ [d]) := by
    rw [← List.append_assoc, wholeBlocks_append_restBytes]
  have hw := wholeBlocks_length_mod m
  have hr := restBytes_length m
  have hd : (restBytes m ++ [d]).length = (restBytes m).length + 1 := List.length_append
  by_cases h63 : (restBytes m).length = 63
  · have hfull : (wholeBlocks m ++ (restBytes m ++ [d])).length % 64 = 0 := by rw [List.length_append]; omega
    rw [if_pos h63, if_pos h63, hm]
    simpa only [List.append_nil] using wholeBlocks_restBytes_of_append (b := []) hfull (by decide)
  · rw [if_neg h63, if_neg h63, hm]
    exact wholeBlocks_restBytes_of_append hw (by omega)

/-! ### Item 6: a message under way -/

/-- The part of `Absorbed` and `Holds` that speaks of the message before FINAL (10_state.md R35, items 2, 3 and 6). -/
structure Pending (c : Config) (m : List Byte) (s : State) : Prop where
  len : s.len.toNat = 8 * m.length
  bufLen : s.bufLen.toNat = m.length % 64
  v : s.v = compressAll c c.iv (wholeBlocks m)
  buf : Memory.Begins s.buf (restBytes m)

theorem memRead_restBytes_iff {m : List Byte} {s : State} :
    memRead .buf s 0 (m.length % 64) = .ok (restBytes m) ↔ Memory.Begins s.buf (restBytes m) := by
  rw [memRead_iff_begins (Nat.mod_lt _ (by decide)).le]
  exact and_iff_right (restBytes_length m)

theorem Absorbed.pending {c : Config} {m : List Byte} {s : State} (h : Absorbed c m s) : Pending c m s :=
  ⟨h.len, h.bufLen, h.v, memRead_restBytes_iff.mp h.buf⟩

theorem Pending.absorbed {c : Config} {m : List Byte} {s : State} (h : Pending c m s) (hd : s.dv = false)
    (he : s.err = Err.clear) : Absorbed c m s :=
  ⟨hd, he, h.len, h.bufLen, h.v, memRead_restBytes_iff.mpr h.buf⟩

theorem Holds.pending {c : Config} {m : List Byte} {s : State} (h : Holds c m s) (hd : s.dv = false) :
    Pending c m s := by
  obtain ⟨hbl, hv, hbuf⟩ := h.absorbing hd
  exact ⟨h.len, hbl, hv, memRead_restBytes_iff.mp hbuf⟩

theorem Pending.holds {c : Config} {m : List Byte} {s : State} (h : Pending c m s) (hd : s.dv = false) :
    Holds c m s :=
  ⟨h.len, fun _ => ⟨h.bufLen, h.v, memRead_restBytes_iff.mpr h.buf⟩, fun hd' => absurd (hd.symm.trans hd') nofun⟩

theorem pending_nil {c : Config} {s : State} (hv : s.v = c.iv) (hbl : s.bufLen = 0) (hlen : s.len = 0) :
    Pending c [] s :=
  ⟨by rw [hlen]; rfl, by rw [hbl]; rfl, hv, Memory.begins_nil _⟩

theorem CleanEntry.pending {c : Config} {s : State} (h : CleanEntry c s) : Pending c [] s :=
  pending_nil h.v h.bufLen h.len

/-- ABSORB extends the message under way (43_commands.md R143). -/
theorem Pending.appendByte {c : Config} {m : List Byte} {s : State} (h : Pending c m s) (d : Byte)
    (hl : s.len ≠ lenMax) : ∃ t, appendByte c d s = .ok t ∧ Pending c (m ++ [d]) t := by
  have hbl := h.bufLen
  have hlen := h.len
  obtain ⟨t, ht, hv, hbuf⟩ := appendByte_of_begins c d h.buf (by rw [restBytes_length, hbl]) (by omega)
  obtain ⟨-, -, -, hlen'⟩ := appendByte_fields ht
  obtain ⟨hwhole, hrest⟩ := wholeBlocks_restBytes_concat m d
  have hconcat : (m ++ [d]).length = m.length + 1 := List.length_append
  refine ⟨t, ht, ?_, ?_, ?_, hrest ▸ hbuf⟩
  · rw [hlen', len_add_eight_toNat (by omega) hl, hconcat, hlen, Nat.mul_succ]
  · rw [appendByte_bufLen ht, hconcat, hbl, Nat.mod_add_mod]
  · rw [hv, hwhole, h.v]
    by_cases h63 : (restBytes m).length = 63
    · rw [if_pos h63, if_pos h63, compressAll_append c _ _ (wholeBlocks_length_mod m),
        compressAll_block c _ (b := restBytes m ++ [d]) (by rw [List.length_append, h63]; rfl)]
    · rw [if_neg h63, if_neg h63]

/-! ### Item 7: a message finalised -/

/-- The part of `Finalised` and `Holds` that speaks of the message after FINAL (10_state.md R35, items 2, 3 and 7). -/
structure Closed (c : Config) (m : List Byte) (s : State) : Prop where
  len : s.len.toNat = 8 * m.length
  bufLen : s.bufLen = 0
  v : ∃ p, pad m = .ok p ∧ s.v = compressAll c c.iv p
  dig : hashMessage c m = .ok ((List.finRange 32).map (dig s.v))

/-- `Serialize` reads the digest space (42_output_and_hash.md R130, R131). -/
theorem serialize_eq_map_dig (v : Words8) : serialize v = (List.finRange 32).map (dig v) := by
  have hv : v.toList = (List.finRange 8).map fun i => v[i] :=
    List.ext_getElem (by rw [Vector.length_toList, List.length_map, List.length_finRange]) fun i _ _ => by
      rw [Vector.getElem_toList, List.getElem_map, List.getElem_finRange]
      rfl
  rw [serialize, hv]
  rfl

/-- The padded message behind its whole blocks (40_padding.md R90). -/
theorem pad_eq_append_closing {m : List Byte} {len : BitVec 64} (h : len.toNat = 8 * m.length) :
    pad m = .ok (m ++ closing m.length len) := by
  have hshort : ¬ tooLong m = true := by
    have := len.isLt
    simp only [tooLong, decide_eq_true_eq]
    omega
  rw [pad, if_neg hshort, closing, lengthField, h]
  simp only [List.append_assoc]
  rfl

/-- The zero bytes depend on the length of the rest alone (40_padding.md R92). -/
theorem closing_mod (n : Nat) (len : BitVec 64) : closing (n % 64) len = closing n len := by
  rw [closing, closing, zeroCount, zeroCount, Nat.mod_mod]

/-- FINAL closes the message under way (43_commands.md R144, 42_output_and_hash.md R134). -/
theorem Pending.finishMessage {c : Config} {m : List Byte} {s : State} (h : Pending c m s) :
    ∃ t, finishMessage c s = .ok t ∧ Closed c m t := by
  have hbl := h.bufLen
  obtain ⟨t, ht, hv⟩ := finishMessage_of_begins c h.buf (by rw [restBytes_length, hbl]) (by omega)
  obtain ⟨-, -, -, hlen, hzero, -⟩ := finishMessage_fields ht
  have hpad := pad_eq_append_closing h.len
  have hv : t.v = compressAll c c.iv (m ++ closing m.length s.len) := by
    rw [hv, h.v, restBytes_length, closing_mod, ← compressAll_append c _ _ (wholeBlocks_length_mod m),
      ← List.append_assoc, wholeBlocks_append_restBytes]
  refine ⟨t, ht, hlen ▸ h.len, hzero, ⟨_, hpad, hv⟩, ?_⟩
  simp only [hashMessage, hpad, serialize_eq_map_dig, hv]

theorem Closed.holds {c : Config} {m : List Byte} {s : State} (h : Closed c m s) (hd : s.dv = true) : Holds c m s :=
  ⟨h.len, fun hd' => absurd (hd.symm.trans hd') nofun, fun _ => ⟨h.bufLen, h.v, h.dig⟩⟩

/-! ### The statements -/

/-- Settles O33: FINAL compresses the rest of `m` and what `Pad` appends, and `V` held the whole blocks. -/
theorem finalGivesTheHash : Obligations.FinalGivesTheHash := by
  unfold Obligations.FinalGivesTheHash
  intro m s h
  obtain ⟨t, ht, hc⟩ := h.pending.finishMessage
  obtain ⟨hdv, herr, hdout, -⟩ := finishMessage_fields ht
  refine ⟨t, ?_, ⟨hdv, herr.trans h.err, hc.len, hc.bufLen, hc.v, hc.dig⟩, hdout⟩
  rw [exec_final_of_absorbing (faulted_eq_false.mpr h.err) h.dv, ht, toOutcome]

/-- Settles O32: the byte goes behind the rest, which becomes a whole block when it is full. -/
theorem absorbExtendsTheMessage : Obligations.AbsorbExtendsTheMessage := by
  unfold Obligations.AbsorbExtendsTheMessage
  refine ⟨fun s t h => ?_, cleanEntry_reset.pending.absorbed rfl rfl, fun m d s h hm => ?_⟩
  · cases h
    exact (cleanEntry_beginMessage _ s).pending.absorbed rfl rfl
  · have hl : s.len ≠ lenMax := by
      intro he
      have hlen := h.len
      rw [he, show lenMax.toNat = 2 ^ 64 - 8 from rfl] at hlen
      omega
    obtain ⟨t, ht, hp⟩ := h.pending.appendByte d hl
    obtain ⟨hdv, herr, hdout, -⟩ := appendByte_fields ht
    refine ⟨t, ?_, hp.absorbed (hdv.trans h.dv) (herr.trans h.err), hdout⟩
    rw [exec_absorb_of_absorbing d (faulted_eq_false.mpr h.err) h.dv hl, ht, toOutcome]

/-- `ERR` and `DOUT` have no part in the message a state holds. -/
theorem Holds.congr {c : Config} {m : List Byte} {s t : State} (h : Holds c m s) (hv : t.v = s.v)
    (hbuf : t.buf = s.buf) (hbl : t.bufLen = s.bufLen) (hlen : t.len = s.len) (hdv : t.dv = s.dv) : Holds c m t where
  len := hlen ▸ h.len
  absorbing := fun hd => by rw [hbl, hv, memRead_congr hbuf hv]; exact h.absorbing (hdv ▸ hd)
  finalised := fun hd => by rw [hbl, hv]; exact h.finalised (hdv ▸ hd)

theorem absorbedAfter_init {w : CmdWord} (hw : decode w = .ok .init) (s : State) (m : List Byte) :
    absorbedAfter (.word w) s m = [] := by
  simp only [absorbedAfter, hw]

theorem absorbedAfter_absorb {w : CmdWord} {d : Byte} {s : State} (hw : decode w = .ok (.absorb d))
    (hf : faulted s = false) (hd : s.dv = false) (hl : s.len ≠ lenMax) (m : List Byte) :
    absorbedAfter (.word w) s m = m ++ [d] := by
  simp [absorbedAfter, hw, hf, hd, hl]

/-- Every move of the host keeps `V`, `BUF` and the digest those of the message absorbed so far. -/
theorem Holds.execInput {x : HostInput} {m : List Byte} {s t : State} (h : Holds Config.hw m s)
    (ht : execInput x s = .next t) : Holds Config.hw (absorbedAfter x s m) t := by
  cases execInput_cases ht with
  | reset e => rw [e]; exact (pending_nil rfl rfl rfl).holds rfl
  | kept _ _ hm e => rw [hm, e]; exact h.congr rfl rfl rfl rfl rfl
  | init w hw e => rw [absorbedAfter_init hw, e]; exact (pending_nil rfl rfl rfl).holds rfl
  | rds w hw e =>
    rw [absorbedAfter_word_eq_self (by simp [hw]) (by simp [hw]), e]
    exact h.congr rfl rfl rfl rfl rfl
  | rdd w k hw _ _ e =>
    rw [absorbedAfter_word_eq_self (by simp [hw]) (by simp [hw]), e]
    exact h.congr rfl rfl rfl rfl rfl
  | absorb w d hw hf hd hl e =>
    obtain ⟨u, hu, hp⟩ := (h.pending hd).appendByte d hl
    obtain rfl : u = t := Except.ok.inj (hu.symm.trans e)
    rw [absorbedAfter_absorb hw hf hd hl]
    exact hp.holds ((appendByte_fields e).1.trans hd)
  | final w hw _ hd e =>
    obtain ⟨u, hu, hc⟩ := (h.pending hd).finishMessage
    obtain rfl : u = t := Except.ok.inj (hu.symm.trans e)
    rw [absorbedAfter_word_eq_self (by simp [hw]) (by simp [hw])]
    exact hc.holds (finishMessage_fields e).1

/-- Settles O34, by the effect of each move. -/
theorem everyMoveKeepsTheMessage : Obligations.EveryMoveKeepsTheMessage := by
  unfold Obligations.EveryMoveKeepsTheMessage
  exact ⟨cleanEntry_reset.pending.holds rfl, fun _ _ _ _ h ht => h.execInput ht⟩

end Sys2Proof.Machine
end

section
/-! Stale contents (10_state.md R38): two states that agree on everything else answer every word alike. -/

namespace Sys2Proof.Machine

/-- Two outcomes that are both a next state, agreeing on all but stale contents, with a `BUFLEN` in range. -/
def CompleteAlike (x y : Host.Outcome State Fault Refusal) : Prop :=
  ∃ t t', x = .next t ∧ y = .next t' ∧ AgreeButStale t t' ∧ t.bufLen.toNat ≤ 63

theorem AgreeButStale.completeAlike {s s' : State} (h : AgreeButStale s s') (hn : s.bufLen.toNat ≤ 63) :
    CompleteAlike (.next s) (.next s') := ⟨s, s', rfl, rfl, h, hn⟩

/-- Two states with the same bytes below the same `BUFLEN` that agree on the other elements. -/
theorem AgreeButStale.of_begins {s s' : State} {bs : List Byte} (hb : Memory.Begins s.buf bs)
    (hb' : Memory.Begins s'.buf bs) (hl : bs.length = s.bufLen.toNat) (hn : s.bufLen.toNat ≤ 63) (hv : s.v = s'.v)
    (hbl : s.bufLen = s'.bufLen) (hlen : s.len = s'.len) (hdv : s.dv = s'.dv) (herr : s.err = s'.err)
    (hdout : s.dout = s'.dout) (hin : s.inputs = s'.inputs) : AgreeButStale s s' :=
  have h64 : s.bufLen.toNat ≤ 64 := Nat.le_succ_of_le hn
  ⟨hv, hbl, hlen, hdv, herr, hdout, hin, bs, (memRead_iff_begins h64).mpr ⟨hl, hb⟩,
    (memRead_iff_begins h64).mpr ⟨hl, hb'⟩⟩

theorem AgreeButStale.execInit {s s' : State} (h : AgreeButStale s s') : CompleteAlike (execInit s) (execInit s') :=
  (AgreeButStale.of_begins (s := beginMessage Config.hw s) (s' := beginMessage Config.hw s') (Memory.begins_nil _)
    (Memory.begins_nil _) rfl (Nat.zero_le _) rfl rfl rfl rfl rfl rfl h.inputs).completeAlike (Nat.zero_le _)

theorem readDigest_eq {k : Nat} (hk : k < 32) (s : State) :
    readDigest k s = .ok { s with dout := dig s.v ⟨k, hk⟩ } := by
  rw [readDigest, readByte, dif_pos hk]

section
variable {s s' : State} (h : AgreeButStale s s') (hn : s.bufLen.toNat ≤ 63)
include h hn

theorem AgreeButStale.begins : ∃ bs, bs.length = s.bufLen.toNat ∧ Memory.Begins s.buf bs ∧ Memory.Begins s'.buf bs := by
  obtain ⟨bs, hbs, hbs'⟩ := h.buf
  obtain ⟨hl, hb⟩ := (memRead_iff_begins (Nat.le_succ_of_le hn)).mp hbs
  obtain ⟨-, hb'⟩ := (memRead_iff_begins (Nat.le_succ_of_le hn)).mp hbs'
  exact ⟨bs, hl, hb, hb'⟩

theorem AgreeButStale.raise (x : Cause) : CompleteAlike (.next (raise x s)) (.next (raise x s')) := by
  obtain ⟨bs, hl, hb, hb'⟩ := h.begins hn
  exact (AgreeButStale.of_begins (s := Machine.raise x s) (s' := Machine.raise x s') hb hb' hl hn h.v h.bufLen h.len h.dv
    (congrArg (Err.set · x) h.err) h.dout h.inputs).completeAlike hn

theorem AgreeButStale.setDout (b : Byte) :
    CompleteAlike (.next { s with dout := b }) (.next { s' with dout := b }) := by
  obtain ⟨bs, hl, hb, hb'⟩ := h.begins hn
  exact (AgreeButStale.of_begins (s := { s with dout := b }) (s' := { s' with dout := b }) hb hb' hl hn h.v h.bufLen
    h.len h.dv h.err rfl h.inputs).completeAlike hn

theorem AgreeButStale.unlessFaulted {x y : Host.Outcome State Fault Refusal} (hxy : CompleteAlike x y) :
    CompleteAlike (unlessFaulted s x) (unlessFaulted s' y) := by
  have hf : faulted s' = faulted s := by rw [faulted, faulted, h.err]
  rw [Machine.unlessFaulted, Machine.unlessFaulted, hf]
  split
  · exact h.completeAlike hn
  · exact hxy

/-- The byte goes behind the same bytes, and a block that is full is the same. -/
theorem AgreeButStale.appendByte (c : Config) (d : Byte) :
    CompleteAlike (toOutcome (appendByte c d s)) (toOutcome (appendByte c d s')) := by
  obtain ⟨bs, hl, hb, hb'⟩ := h.begins hn
  obtain ⟨t, ht, hv, ht_buf⟩ := appendByte_of_begins c d hb hl hn
  obtain ⟨t', ht', hv', ht_buf'⟩ := appendByte_of_begins c d hb' (h.bufLen ▸ hl) (h.bufLen ▸ hn)
  obtain ⟨hdv, herr, hdout, hlen⟩ := appendByte_fields ht
  obtain ⟨hdv', herr', hdout', hlen'⟩ := appendByte_fields ht'
  have hbl := appendByte_bufLen ht
  have hbl' := appendByte_bufLen ht'
  have hrest : (if bs.length = 63 then [] else bs ++ [d]).length = t.bufLen.toNat := by
    rw [hbl, ← hl]
    split
    · next h63 => rw [h63]; rfl
    · rw [List.length_append, List.length_singleton]; omega
  refine ⟨t, t', toOutcome_next.mpr ht, toOutcome_next.mpr ht', ?_, by omega⟩
  refine AgreeButStale.of_begins ht_buf ht_buf' hrest (by omega) ?_ ?_ ?_ ?_ ?_ ?_ ?_
  · rw [hv, hv', h.v]
  · exact BitVec.eq_of_toNat_eq (by rw [hbl, hbl', h.bufLen])
  · rw [hlen, hlen', h.len]
  · rw [hdv, hdv', h.dv]
  · rw [herr, herr', h.err]
  · rw [hdout, hdout', h.dout]
  · rw [appendByte_inputs ht, appendByte_inputs ht', h.inputs]

/-- The blocks that FINAL compresses are the same, and it leaves no byte of the message in `BUF`. -/
theorem AgreeButStale.finishMessage (c : Config) :
    CompleteAlike (toOutcome (finishMessage c s)) (toOutcome (finishMessage c s')) := by
  obtain ⟨bs, hl, hb, hb'⟩ := h.begins hn
  obtain ⟨t, ht, hv⟩ := finishMessage_of_begins c hb hl hn
  obtain ⟨t', ht', hv'⟩ := finishMessage_of_begins c hb' (h.bufLen ▸ hl) (h.bufLen ▸ hn)
  obtain ⟨hdv, herr, hdout, hlen, hbl, hin⟩ := finishMessage_fields ht
  obtain ⟨hdv', herr', hdout', hlen', hbl', hin'⟩ := finishMessage_fields ht'
  have hzero : t.bufLen.toNat = 0 := by rw [hbl]; rfl
  refine ⟨t, t', toOutcome_next.mpr ht, toOutcome_next.mpr ht', ?_, by omega⟩
  refine AgreeButStale.of_begins (Memory.begins_nil _) (Memory.begins_nil _) hzero.symm (by omega) ?_ ?_ ?_ ?_ ?_ ?_ ?_
  · rw [hv, hv', h.v, h.len]
  · rw [hbl, hbl']
  · rw [hlen, hlen', h.len]
  · rw [hdv, hdv']
  · rw [herr, herr', h.err]
  · rw [hdout, hdout', h.dout]
  · rw [hin, hin', h.inputs]

theorem AgreeButStale.execRds : CompleteAlike (execRds s) (execRds s') := by
  rw [Machine.execRds, Machine.execRds, show status s' = status s by rw [status, status, h.dv, h.err]]
  exact h.setDout hn _

theorem AgreeButStale.execAbsorb (d : Byte) : CompleteAlike (execAbsorb d s) (execAbsorb d s') := by
  refine h.unlessFaulted hn ?_
  rw [← h.dv, ← h.len]
  split
  · exact h.raise hn _
  split
  · exact h.raise hn _
  · exact h.appendByte hn _ d

theorem AgreeButStale.execFinal : CompleteAlike (execFinal s) (execFinal s') := by
  refine h.unlessFaulted hn ?_
  rw [← h.dv]
  split
  · exact h.raise hn _
  · exact h.finishMessage hn _

theorem AgreeButStale.execRdd {k : Nat} (hk : k < 32) : CompleteAlike (execRdd k s) (execRdd k s') := by
  refine h.unlessFaulted hn ?_
  rw [← h.dv]
  split
  · rw [readDigest_eq hk, readDigest_eq hk, show dig s'.v ⟨k, hk⟩ = dig s.v ⟨k, hk⟩ by rw [h.v]]
    exact h.setDout hn _
  · exact h.raise hn _

/-- One word completes in both states and they go on agreeing. -/
theorem AgreeButStale.execWord (w : CmdWord) : CompleteAlike (execWord w s) (execWord w s') := by
  rw [Machine.execWord, Machine.execWord]
  split
  · next i hi =>
    cases i with
    | nop => exact h.completeAlike hn
    | init => exact h.execInit
    | absorb d => exact h.execAbsorb hn d
    | final => exact h.execFinal hn
    | rdd k => exact h.execRdd hn (lt_of_decode_rdd hi)
    | rds => exact h.execRds hn
  · exact h.unlessFaulted hn (h.raise hn _)

end

/-- Settles O27, by induction on the run with `AgreeButStale` and the range of `BUFLEN` carried along. -/
theorem staleContentsNeverMatter : Obligations.StaleContentsNeverMatter := by
  unfold Obligations.StaleContentsNeverMatter
  intro ws
  induction ws with
  | nil => exact fun s s' _ h => ⟨s, s', rfl, rfl, h, rfl⟩
  | cons w ws ih =>
    intro s s' hn h
    obtain ⟨t, t', ht, ht', h1, hn1⟩ := h.execWord hn w
    obtain ⟨u, u', hu, hu', h2, htrace⟩ := ih t t' hn1 h1
    refine ⟨u, u', ?_, ?_, h2, ?_⟩
    · simp only [runWords, ht, hu]
    · simp only [runWords, ht', hu']
    · simp only [doutTrace, ht, ht', h1.dout, htrace]

end Sys2Proof.Machine
end

section
/-! The byte spaces: read after write, frame, range, and the canonical form of `BUF` (20_memory.md R50, R57, R59). -/

namespace Sys2Proof.Machine

/-! ### Memories that read alike (log entry 17) -/

@[simp] theorem Memory.read_cons_same (x : Nat) (b : Byte) (m : Memory) : Memory.read ((x, b) :: m) x = some b :=
  if_pos rfl

theorem Memory.read_cons_other {a x : Nat} (b : Byte) (m : Memory) (h : x ≠ a) :
    Memory.read ((x, b) :: m) a = Memory.read m a :=
  if_neg h

/-- The addresses behind the first cell rise from it. -/
theorem Memory.risesFrom_tail {lo : Option Nat} {x : Nat} {b : Byte} {m : Memory}
    (h : Memory.risesFrom lo ((x, b) :: m) = true) : Memory.risesFrom (some x) m = true :=
  (Bool.and_eq_true_iff.mp h).2

theorem Memory.read_eq_none_of_risesFrom {m : Memory} {a lo : Nat} (h : Memory.risesFrom (some lo) m = true)
    (ha : a ≤ lo) : Memory.read m a = none := by
  induction m generalizing lo with
  | nil => rfl
  | cons c m ih =>
    obtain ⟨x, b⟩ := c
    have hx : lo < x := of_decide_eq_true (Bool.and_eq_true_iff.mp h).1
    rw [Memory.read_cons_other b m (by omega)]
    exact ih (Memory.risesFrom_tail h) (by omega)

/-- The first address listed is the lowest that reads. -/
theorem Memory.head_le_of_read {lo : Option Nat} {a x : Nat} {b d : Byte} {m : Memory}
    (h : Memory.risesFrom lo ((x, b) :: m) = true) (hr : Memory.read ((x, b) :: m) a = some d) : x ≤ a := by
  by_contra hlt
  rw [Memory.read_cons_other b m (by omega),
    Memory.read_eq_none_of_risesFrom (Memory.risesFrom_tail h) (by omega)] at hr
  cases hr

/-- Two rising lists that read alike are equal: each first address reads in the other list too, so the first cells agree,
and neither rest lists that address again. -/
theorem Memory.eq_of_read_eq {m m' : Memory} {lo lo' : Option Nat} (h : Memory.risesFrom lo m = true)
    (h' : Memory.risesFrom lo' m' = true) (hr : ∀ a, Memory.read m a = Memory.read m' a) : m = m' := by
  induction m generalizing m' lo lo' with
  | nil =>
    cases m' with
    | nil => rfl
    | cons c' m' =>
      obtain ⟨x', b'⟩ := c'
      simpa using hr x'
  | cons c m ih =>
    obtain ⟨x, b⟩ := c
    cases m' with
    | nil => simpa using hr x
    | cons c' m' =>
      obtain ⟨x', b'⟩ := c'
      have hx : x = x' := le_antisymm (Memory.head_le_of_read h ((hr x').trans (Memory.read_cons_same ..)))
        (Memory.head_le_of_read h' ((hr x).symm.trans (Memory.read_cons_same ..)))
      subst hx
      have hb : b = b' := by simpa using hr x
      have hrest : ∀ a, Memory.read m a = Memory.read m' a := by
        intro a
        by_cases ha : x = a
        · rw [Memory.read_eq_none_of_risesFrom (Memory.risesFrom_tail h) ha.ge,
            Memory.read_eq_none_of_risesFrom (Memory.risesFrom_tail h') ha.ge]
        · simpa only [Memory.read_cons_other _ _ ha] using hr a
      rw [hb, ih (Memory.risesFrom_tail h) (Memory.risesFrom_tail h') hrest]

theorem Memory.risesFrom_of_wf {m : Memory} (h : Memory.wf m = true) : Memory.risesFrom none m = true :=
  (Bool.and_eq_true_iff.mp h).1

/-! ### A store of one byte -/

/-- A store below 64 completes. -/
theorem storeByte_eq (s : State) {a : Nat} (b : Byte) (ha : a < 64) :
    storeByte s a b = .ok { s with buf := Memory.write s.buf a b } :=
  if_pos ha

theorem readByte_storeByte_same {s t : State} {a : Nat} {b : Byte} (h : storeByte s a b = .ok t) :
    readByte .buf t a = .ok b := by
  obtain ⟨ha, rfl⟩ := storeByte_ok h
  exact readByte_buf_ok.mpr ⟨ha, Memory.read_write_same _ _ _⟩

theorem readByte_storeByte_other {s t : State} {a x : Nat} {b : Byte} (h : storeByte s a b = .ok t) (hx : x ≠ a) :
    readByte .buf t x = readByte .buf s x := by
  obtain ⟨-, rfl⟩ := storeByte_ok h
  simp only [readByte, Memory.read_write_other _ _ hx]

theorem wf_storeByte {s t : State} {a : Nat} {b : Byte} (h : storeByte s a b = .ok t)
    (hs : Memory.wf s.buf = true) : Memory.wf t.buf = true := by
  obtain ⟨ha, rfl⟩ := storeByte_ok h
  exact Memory.wf_write b hs ha

/-! ### The addresses a space has (log entries 11 and 12) -/

/-- Below 64 a byte of `BUF` reads or is unwritten, which is another fault. -/
theorem readByte_buf_noSuchAddress {s : State} {a : Nat} :
    readByte .buf s a = .error (.noSuchAddress .buf a) ↔ 64 ≤ a := by
  simp only [readByte]
  split
  · next ha => cases Memory.read s.buf a <;> simp [ha]
  · next ha => simpa using ha

theorem readByte_dig_noSuchAddress {s : State} {a : Nat} :
    readByte .dig s a = .error (.noSuchAddress .dig a) ↔ 32 ≤ a := by
  simp only [readByte]
  split
  · next ha => simp [ha]
  · next ha => simpa using ha

/-- Settles O55, clause by clause. -/
theorem memoryReadsWhatWasWritten : Obligations.MemoryReadsWhatWasWritten := by
  unfold Obligations.MemoryReadsWhatWasWritten
  refine ⟨?store, fun s a b ha => ⟨_, storeByte_eq s b ha⟩,
    fun s a => ⟨readByte_buf_noSuchAddress, readByte_dig_noSuchAddress⟩,
    fun m m' h h' => Memory.eq_of_read_eq (Memory.risesFrom_of_wf h) (Memory.risesFrom_of_wf h')⟩
  intro s t a b h
  obtain ⟨ha, ht⟩ := storeByte_ok h
  exact ⟨ha, by rw [ht], readByte_storeByte_same h, fun x => readByte_storeByte_other h, wf_storeByte h⟩

end Sys2Proof.Machine
end

section
/-! Decoding and encoding are inverse (30_encoding.md R71, R83). A command word is the pair `op ++ imm` of its fields:
the encoder is read as giving such a pair, and the decoder as taking one. -/

namespace Sys2Proof

@[simp] theorem opField_append (op imm : Byte) : opField (op ++ imm) = op :=
  BitVec.extractLsb'_append_eq_left

@[simp] theorem immField_append (op imm : Byte) : immField (op ++ imm) = imm :=
  BitVec.extractLsb'_append_eq_right

theorem encode_absorb (d : Byte) : encode (.absorb d) = (0x02 : Byte) ++ d := by
  apply BitVec.eq_of_toNat_eq
  rw [Machine.toNat_append_eq_add, encode]
  bv_omega

theorem encode_rdd {k : Nat} (h : k ≤ 31) : encode (.rdd k) = (0x04 : Byte) ++ BitVec.ofNat 8 k := by
  apply BitVec.eq_of_toNat_eq
  rw [Machine.toNat_append_eq_add, encode]
  bv_omega

@[simp] theorem wellFormed_rdd {k : Nat} : (Instr.rdd k).wellFormed = true ↔ k ≤ 31 :=
  decide_eq_true_iff

theorem decode_of_opField_absorb {w : CmdWord} (op : opField w = 0x02) : decode w = .ok (.absorb (immField w)) := by
  simp [decode, op]

theorem decode_of_opField_rdd {w : CmdWord} (op : opField w = 0x04) (imm : (immField w).toNat ≤ 31) :
    decode w = .ok (.rdd (immField w).toNat) := by
  simp [decode, op, imm, idxField_eq_immField imm]

/-- `decode(encode(c)) = c` for every legal `c` (30_encoding.md R83). -/
theorem decode_encode {i : Instr} (h : i.wellFormed = true) : decode (encode i) = .ok i := by
  cases i with
  | nop | init | final | rds => rfl
  | absorb d => rw [encode_absorb, decode_of_opField_absorb (opField_append ..), immField_append]
  | rdd k =>
    have hk : k ≤ 31 := wellFormed_rdd.mp h
    have himm : (immField ((0x04 : Byte) ++ BitVec.ofNat 8 k)).toNat = k := by
      rw [immField_append, BitVec.toNat_ofNat]
      omega
    rw [encode_rdd hk, decode_of_opField_rdd (opField_append ..) (himm.trans_le hk), himm]

theorem wellFormed_of_decode {w : CmdWord} {i : Instr} (h : decode w = .ok i) : i.wellFormed = true := by
  cases i with
  | rdd k => exact wellFormed_rdd.mpr (Nat.le_of_lt_succ (lt_of_decode_rdd h))
  | nop | init | absorb | final | rds => rfl

/-- The legal words are the encodings of the well-formed commands. -/
theorem decode_eq_ok_iff {w : CmdWord} {i : Instr} : decode w = .ok i ↔ i.wellFormed = true ∧ encode i = w := by
  constructor
  · exact fun h => ⟨wellFormed_of_decode h, encode_of_decode h⟩
  · rintro ⟨h, rfl⟩
    exact decode_encode h

/-- A word is illegal when it is no command's. -/
theorem exists_decode_error_iff {w : CmdWord} : (∃ e, decode w = .error e) ↔ ¬ ∃ i, decode w = .ok i := by
  cases decode w <;> simp

/-- Settles O1: the encoder's words by definition, and the two inverse laws. -/
theorem decodeAndEncodeAreInverse : Obligations.DecodeAndEncodeAreInverse := by
  unfold Obligations.DecodeAndEncodeAreInverse
  exact ⟨⟨rfl, rfl, fun _ => rfl, rfl, fun _ _ => rfl, rfl⟩, fun _ => decode_encode,
    fun _ _ => decode_eq_ok_iff.mp⟩

/-- Settles O4, by evaluation. -/
theorem wordsOfTheSpecDecode : Obligations.WordsOfTheSpecDecode := by
  unfold Obligations.WordsOfTheSpecDecode
  decide

end Sys2Proof
end

section
/-! The opcode map (30_encoding.md R73, R78): which words are legal, row by row and range by range, how many they are,
and what the others do. -/

namespace Sys2Proof

/-! ### The rows -/

theorem rowOf_mem_opcodeRows (i : Instr) : rowOf i ∈ opcodeRows := by
  cases i <;> simp [rowOf, opcodeRows]

theorem rowMatches_encode {i : Instr} (h : i.wellFormed = true) : rowMatches (rowOf i) (encode i) = true :=
  match i with
  | .nop => Laws.RowMatch.nop h
  | .init => Laws.RowMatch.init h
  | .absorb d => Laws.RowMatch.absorb d h
  | .final => Laws.RowMatch.final h
  | .rdd k => Laws.RowMatch.rdd k h
  | .rds => Laws.RowMatch.rds h

/-- A masked word read on its two fields. -/
theorem and_append_eq_fields (w : CmdWord) (mop mimm : Byte) :
    w &&& (mop ++ mimm : CmdWord) = (opField w &&& mop) ++ (immField w &&& mimm) := by
  rw [← BitVec.and_append, opField_append_immField]

theorem fields_of_and_append_eq {w : CmdWord} {mimm op imm : Byte}
    (h : w &&& ((0xFF : Byte) ++ mimm : CmdWord) = op ++ imm) : opField w = op ∧ immField w &&& mimm = imm := by
  rw [and_append_eq_fields] at h
  have hop := congrArg opField h
  have himm := congrArg immField h
  rw [opField_append, opField_append, show (0xFF : Byte) = BitVec.allOnes 8 from rfl, BitVec.and_allOnes] at hop
  rw [immField_append, immField_append] at himm
  exact ⟨hop, himm⟩

/-- The five low bits of a byte, the three others clear. -/
theorem toNat_le_of_and_eq_zero {b : Byte} (h : b &&& 0xE0 = 0x00) : b.toNat ≤ 31 := by
  revert b
  decide +kernel

/-- A word that matches a row decodes to a command of that row. -/
theorem exists_decode_of_rowMatches {w : CmdWord} {row : OpcodeRow} (hrow : row ∈ opcodeRows)
    (hw : rowMatches row w = true) : ∃ i, decode w = .ok i ∧ rowOf i = row := by
  have hm : w &&& row.mask = row.value := eq_of_beq hw
  simp only [opcodeRows, List.mem_cons, List.not_mem_nil, or_false] at hrow
  have full {v : CmdWord} (h : w &&& BitVec.allOnes 16 = v) : w = v := by rwa [BitVec.and_allOnes] at h
  obtain rfl | rfl | rfl | rfl | rfl | rfl := hrow
  · exact ⟨.nop, by rw [full hm]; rfl, rfl⟩
  · exact ⟨.init, by rw [full hm]; rfl, rfl⟩
  · obtain ⟨op, -⟩ := fields_of_and_append_eq (mimm := 0x00) (op := 0x02) (imm := 0x00) hm
    exact ⟨_, decode_of_opField_absorb op, rfl⟩
  · exact ⟨.final, by rw [full hm]; rfl, rfl⟩
  · obtain ⟨op, imm⟩ := fields_of_and_append_eq (mimm := 0xE0) (op := 0x04) (imm := 0x00) hm
    exact ⟨_, decode_of_opField_rdd op (toNat_le_of_and_eq_zero imm), rfl⟩
  · exact ⟨.rds, by rw [full hm]; rfl, rfl⟩

/-- A word is the command of a row exactly when `(w & mask) = match` (30_encoding.md R73). -/
theorem rowMatches_iff {w : CmdWord} {row : OpcodeRow} (hrow : row ∈ opcodeRows) :
    rowMatches row w = true ↔ ∃ i, decode w = .ok i ∧ rowOf i = row := by
  constructor
  · exact exists_decode_of_rowMatches hrow
  · rintro ⟨i, hi, rfl⟩
    obtain ⟨hwf, rfl⟩ := decode_eq_ok_iff.mp hi
    exact rowMatches_encode hwf

theorem exists_decode_error_iff_rows {w : CmdWord} :
    (∃ e, decode w = .error e) ↔ ∀ row ∈ opcodeRows, rowMatches row w = false := by
  rw [exists_decode_error_iff]
  constructor
  · intro h row hrow
    rw [Bool.eq_false_iff, ne_eq, rowMatches_iff hrow]
    exact fun ⟨i, hi, _⟩ => h ⟨i, hi⟩
  · rintro h ⟨i, hi⟩
    have hrow := rowOf_mem_opcodeRows i
    exact Bool.false_ne_true ((h _ hrow).symm.trans ((rowMatches_iff hrow).mpr ⟨i, hi, rfl⟩))

/-- Two rows that one word matches are the row of its command, and no row stands twice in the map. -/
theorem opcodeRows_disjoint :
    opcodeRows.Pairwise (fun a b => ∀ w : CmdWord, ¬ (rowMatches a w = true ∧ rowMatches b w = true)) := by
  have hnodup : opcodeRows.Pairwise (· ≠ ·) := by decide
  refine hnodup.imp_of_mem fun {a b} ha hb hne w => ?_
  rintro ⟨hwa, hwb⟩
  obtain ⟨i, hi, rfl⟩ := (rowMatches_iff ha).mp hwa
  obtain ⟨j, hj, rfl⟩ := (rowMatches_iff hb).mp hwb
  rw [hi] at hj
  cases hj
  exact hne rfl

/-! ### The count of the legal words -/

/-- The 256 values of a byte. -/
def allBytes : List Byte := (List.range 256).map (BitVec.ofNat 8)

/-- The well-formed commands, in the order of the opcode map. -/
def commands : List Instr :=
  .nop :: .init :: (absorbs allBytes ++ .final :: (rdDigest ++ [.rds]))

@[simp] theorem mem_absorbs {i : Instr} {bs : List Byte} : i ∈ absorbs bs ↔ ∃ b ∈ bs, .absorb b = i := by
  simp [absorbs]

@[simp] theorem mem_rdDigest {i : Instr} : i ∈ rdDigest ↔ ∃ k < 32, .rdd k = i := by
  simp [rdDigest]

theorem nodup_absorbs {bs : List Byte} (h : bs.Nodup) : (absorbs bs).Nodup :=
  h.map fun _ _ => Instr.absorb.inj

theorem nodup_rdDigest : rdDigest.Nodup :=
  List.nodup_range.map fun _ _ => Instr.rdd.inj

theorem nodup_allBytes : allBytes.Nodup := by
  refine List.nodup_range.map_on fun m hm n hn h => ?_
  rw [List.mem_range] at hm hn
  bv_omega

theorem mem_allBytes (b : Byte) : b ∈ allBytes :=
  List.mem_map.mpr ⟨b.toNat, List.mem_range.mpr b.isLt, BitVec.ofNat_toNat ..⟩

theorem mem_commands {i : Instr} : i ∈ commands ↔ i.wellFormed = true := by
  cases i with
  | nop | init | final | rds => simp [commands, Instr.wellFormed]
  | absorb d => simpa [commands, Instr.wellFormed] using mem_allBytes d
  | rdd k => simp [commands, Nat.lt_succ_iff]

/-- Each command stands once: the operands of a row differ, and the rows do. -/
theorem nodup_commands : commands.Nodup := by
  have hlast : (.final :: (rdDigest ++ [.rds])).Nodup := by simp [List.nodup_append, nodup_rdDigest]
  have hdisjoint : List.Disjoint (absorbs allBytes) (.final :: (rdDigest ++ [.rds])) := by
    intro i hi hj
    obtain ⟨b, -, rfl⟩ := mem_absorbs.mp hi
    simp at hj
  have htail := (nodup_absorbs nodup_allBytes).append hlast hdisjoint
  exact List.nodup_cons.mpr ⟨by simp, List.nodup_cons.mpr ⟨by simp, htail⟩⟩

/-- The legal words, in the order of the opcode map. -/
def legalWords : List CmdWord := commands.map encode

theorem mem_legalWords {w : CmdWord} : w ∈ legalWords ↔ ∃ i, decode w = .ok i := by
  simp only [legalWords, List.mem_map, mem_commands, decode_eq_ok_iff]

theorem nodup_legalWords : legalWords.Nodup := by
  refine nodup_commands.map_on fun i hi j hj h => ?_
  have hdecode := congrArg decode h
  rw [decode_encode (mem_commands.mp hi), decode_encode (mem_commands.mp hj)] at hdecode
  exact Except.ok.inj hdecode

theorem length_legalWords : legalWords.length = 292 := by
  simp [legalWords, commands, absorbs, allBytes, rdDigest]

/-- The illegal words are the others of the `2^16` words. -/
theorem exists_illegalWords :
    ∃ l : List CmdWord, l.Nodup ∧ l.length = 65244 ∧ ∀ w, w ∈ l ↔ ∃ e, decode w = .error e := by
  have hcard : Fintype.card CmdWord = 65536 :=
    (FinEnum.card_eq_fintypeCard (α := CmdWord)).symm.trans (FinEnum.card_bitVec 16)
  refine ⟨legalWords.toFinsetᶜ.toList, Finset.nodup_toList _, ?_, fun w => ?_⟩
  · rw [Finset.length_toList, Finset.card_compl, List.toFinset_card_of_nodup nodup_legalWords, length_legalWords,
      hcard]
  · rw [Finset.mem_toList, Finset.mem_compl, List.mem_toFinset, mem_legalWords, exists_decode_error_iff]

/-- Settles O2, with the lists `legalWords` and its complement for the two counts. -/
theorem legalWordsAreTheTableRows : Obligations.LegalWordsAreTheTableRows := by
  unfold Obligations.LegalWordsAreTheTableRows
  exact ⟨rfl, fun _ _ => rowMatches_iff, fun _ => exists_decode_error_iff_rows, opcodeRows_disjoint,
    ⟨legalWords, nodup_legalWords, length_legalWords, fun _ => mem_legalWords⟩, exists_illegalWords⟩

/-! ### The ranges of the illegal words (30_encoding.md R78) -/

theorem exists_decode_ok_iff_toNat {w : CmdWord} : (∃ i, decode w = .ok i) ↔
    (w.toNat = 0x0000 ∨ w.toNat = 0x0100 ∨ (0x0200 ≤ w.toNat ∧ w.toNat ≤ 0x02FF) ∨ w.toNat = 0x0300 ∨
      (0x0400 ≤ w.toNat ∧ w.toNat ≤ 0x041F) ∨ w.toNat = 0x0500) := by
  have hw := toNat_eq_fields w
  constructor
  · rintro ⟨i, hi⟩
    cases decode_cases hi with
    | nop op imm | init op imm | final op imm | rds op imm => rw [hw, op, imm]; decide
    | absorb op | rdd op _ => rw [op] at hw; bv_omega
  · have word {i : Instr} (hi : i.wellFormed = true) (h : w.toNat = (encode i).toNat) : ∃ i, decode w = .ok i :=
      ⟨i, by rw [BitVec.eq_of_toNat_eq h, decode_encode hi]⟩
    rintro (h | h | h | h | h | h)
    · exact word (i := .nop) rfl h
    · exact word (i := .init) rfl h
    · exact ⟨_, decode_of_opField_absorb (by bv_omega)⟩
    · exact word (i := .final) rfl h
    · exact ⟨_, decode_of_opField_rdd (by bv_omega) (by bv_omega)⟩
    · exact word (i := .rds) rfl h

/-- An illegal word is executed as one (43_commands.md R142). -/
theorem execWord_of_decode_error {w : CmdWord} {e : Reject} (h : decode w = .error e) (s : Machine.State) :
    Machine.execWord w s = Machine.execIllegal s := by
  simp only [Machine.execWord, h]

/-- Settles O3: the ranges are those that the legal words leave out. -/
theorem illegalWordsRaiseIllegalCommand : Obligations.IllegalWordsRaiseIllegalCommand := by
  unfold Obligations.IllegalWordsRaiseIllegalCommand
  refine ⟨fun w => ?_, fun w e s he => ?_⟩
  · rw [exists_decode_error_iff, exists_decode_ok_iff_toNat]
    omega
  · rw [execWord_of_decode_error he]
    constructor
    · intro hf
      exact Machine.unlessFaulted_of_not_faulted hf
    · intro hf
      exact if_pos hf

end Sys2Proof
end

section
/-! Reading the pieces of a line of text (30_encoding.md R81). -/

namespace Sys2Proof

/-! ### One character, and the pieces behind it -/

theorem lex_cons {st st' : LexState} {c : Char} {cs : List Char} {done ts : List Token}
    (hc : lexStep st c = .ok (st', done)) (hcs : lex st' cs = .ok ts) : lex st (c :: cs) = .ok (done ++ ts) := by
  simp only [lex, hc, hcs]

/-- The inversion of `lex` on a character and a rest. -/
theorem lex_cons_cases {st : LexState} {c : Char} {cs : List Char} {ts : List Token} (h : lex st (c :: cs) = .ok ts) :
    ∃ st' done rest, lexStep st c = .ok (st', done) ∧ lex st' cs = .ok rest ∧ ts = done ++ rest := by
  rw [lex] at h
  split at h
  · cases h
  · next st' done hc =>
    split at h
    · cases h
    · next rest hcs =>
      cases h
      exact ⟨st', done, rest, hc, hcs, rfl⟩

/-- A line end that is read without an error gives a piece of its own. -/
theorem endOfLine_mem_of_lexStep {st st' : LexState} {done : List Token} (h : lexStep st newLine = .ok (st', done)) :
    .endOfLine ∈ done := by
  cases st with
  | between | inWord | inComment => cases h; simp
  | afterQuote | inText => cases h
  | closeQuote q => cases h

/-- A text whose pieces are those of one line has no line end. -/
theorem newLine_notMem_of_lex {st : LexState} {cs : List Char} {ts : List Token} (h : lex st cs = .ok ts)
    (hts : .endOfLine ∉ ts) : newLine ∉ cs := by
  induction cs generalizing st ts with
  | nil => exact List.not_mem_nil
  | cons c cs ih =>
    obtain ⟨st', done, rest, hc, hcs, rfl⟩ := lex_cons_cases h
    rw [List.mem_append, not_or] at hts
    rw [List.mem_cons, not_or]
    refine ⟨?_, ih hcs hts.2⟩
    rintro rfl
    exact hts.1 (endOfLine_mem_of_lexStep hc)

/-! ### Assembling one line -/

/-- A text of one line is joined to itself. -/
theorem joinLines_of_newLine_notMem {cs : List Char} (h : newLine ∉ cs) : joinLines cs = cs := by
  induction cs using joinLines.induct with
  | case1 => rfl
  | case2 c => rfl
  | case3 c d rest hcd _ =>
    obtain ⟨rfl, rfl⟩ := hcd
    simp at h
  | case4 c d rest hne ih =>
    rw [joinLines, if_neg hne, ih fun hmem => h (List.mem_cons_of_mem _ hmem)]

theorem assembleLines_of_line {ts : List Token} (h : .endOfLine ∉ ts) (rev : List Token) :
    assembleLines rev ts = assembleLine (rev.reverse ++ ts) := by
  induction ts generalizing rev with
  | nil => rw [assembleLines, List.append_nil]
  | cons t ts ih =>
    rw [List.mem_cons, not_or] at h
    cases t with
    | endOfLine => exact absurd rfl h.1
    | word | quoted | text => rw [assembleLines, ih h.2, List.reverse_cons, List.append_assoc, List.singleton_append]

/-- A text of one line assembles to the words of the commands of its pieces. -/
theorem assemble_of_lex {cs : List Char} {ts : List Token} (h : lex .between cs = .ok ts) (hts : .endOfLine ∉ ts) :
    assemble cs = (assembleLine ts).map (·.map encode) := by
  rw [assemble, joinLines_of_newLine_notMem (newLine_notMem_of_lex h hts), h]
  simp only [assembleLines_of_line hts, List.reverse_nil, List.nil_append]
  cases assembleLine ts <;> rfl

/-! ### Words -/

/-- The characters that end a word or begin another piece: the line end, the blanks, the comment and the quotes. -/
def separators : List Char := [newLine, ' ', Char.ofNat 9, Char.ofNat 13, ';', singleQuote, doubleQuote]

/-- The characters of a mnemonic or a number: at least one, and no separator. -/
structure PlainWord (cs : List Char) : Prop where
  ne_nil : cs ≠ []
  plain : ∀ c ∈ cs, c ∉ separators

theorem lexStep_between_plain {c : Char} (h : c ∉ separators) : lexStep .between c = .ok (.inWord [c], []) := by
  simp only [separators, List.mem_cons, List.not_mem_nil, or_false, not_or] at h
  simp [lexStep, blank, h]

theorem lexStep_inWord_plain {c : Char} (h : c ∉ separators) (rev : List Char) :
    lexStep (.inWord rev) c = .ok (.inWord (c :: rev), []) := by
  simp only [separators, List.mem_cons, List.not_mem_nil, or_false, not_or] at h
  simp [lexStep, blank, h]

theorem lex_inWord {cs rest : List Char} {ts : List Token} (h : ∀ c ∈ cs, c ∉ separators) (rev : List Char)
    (hrest : lex (.inWord (cs.reverse ++ rev)) rest = .ok ts) : lex (.inWord rev) (cs ++ rest) = .ok ts := by
  induction cs generalizing rev with
  | nil => exact hrest
  | cons c cs ih =>
    rw [List.forall_mem_cons] at h
    rw [List.reverse_cons, List.append_assoc] at hrest
    exact lex_cons (lexStep_inWord_plain h.1 rev) (ih h.2 _ hrest)

/-- A word is read to its end, and the rest from within it. -/
theorem lex_plainWord_append {cs rest : List Char} {ts : List Token} (h : PlainWord cs)
    (hrest : lex (.inWord cs.reverse) rest = .ok ts) : lex .between (cs ++ rest) = .ok ts := by
  obtain ⟨hne, hplain⟩ := h
  cases cs with
  | nil => exact absurd rfl hne
  | cons c cs =>
    rw [List.forall_mem_cons] at hplain
    rw [List.reverse_cons] at hrest
    exact lex_cons (lexStep_between_plain hplain.1) (lex_inWord hplain.2 _ hrest)

theorem lex_plainWord {cs : List Char} (h : PlainWord cs) : lex .between cs = .ok [.word cs] := by
  have hend : lex (.inWord cs.reverse) [] = .ok [.word cs] := by rw [lex, List.reverse_reverse]
  simpa using lex_plainWord_append h hend

theorem lex_plainWord_blank {cs rest : List Char} {ts : List Token} (h : PlainWord cs)
    (hrest : lex .between rest = .ok ts) : lex .between (cs ++ ' ' :: rest) = .ok (.word cs :: ts) := by
  refine lex_plainWord_append h ?_
  have hc : lexStep (.inWord cs.reverse) ' ' = .ok (.between, [.word cs]) := by
    simp [lexStep, newLine, blank]
  exact lex_cons hc hrest

theorem lex_inComment {cs : List Char} (h : newLine ∉ cs) : lex .inComment cs = .ok [] := by
  induction cs with
  | nil => rfl
  | cons c cs ih =>
    rw [List.mem_cons, not_or] at h
    have hc : lexStep .inComment c = .ok (.inComment, []) := if_neg (Ne.symm h.1)
    exact lex_cons hc (ih h.2)

theorem lex_plainWord_comment {cs com : List Char} (h : PlainWord cs) (hcom : newLine ∉ com) :
    lex .between (cs ++ ';' :: com) = .ok [.word cs] := by
  refine lex_plainWord_append h ?_
  have hc : lexStep (.inWord cs.reverse) ';' = .ok (.inComment, [.word cs]) := by
    simp [lexStep, newLine, blank]
  exact lex_cons hc (lex_inComment hcom)

/-- Words separated by blanks. -/
theorem lex_plainWords {cs : List Char} (h : PlainWord cs) {ws : List (List Char)} (hws : ∀ w ∈ ws, PlainWord w) :
    lex .between (cs ++ ws.flatMap (' ' :: ·)) = .ok (.word cs :: ws.map .word) := by
  induction ws generalizing cs with
  | nil => simpa using lex_plainWord h
  | cons w ws ih =>
    rw [List.forall_mem_cons] at hws
    simpa using lex_plainWord_blank h (ih hws.1 hws.2)

/-! ### Quotes -/

theorem lex_quoted {c : Char} (h : printable c = true) :
    lex .between [singleQuote, c, singleQuote] = .ok [.quoted c] := by
  have hopen : lexStep .between singleQuote = .ok (.afterQuote, []) := rfl
  have hc : lexStep .afterQuote c = .ok (.closeQuote c, []) := if_pos h
  have hclose : lexStep (.closeQuote c) singleQuote = .ok (.between, [.quoted c]) := by simp [lexStep]
  have hend : lex .between [] = .ok [] := rfl
  exact lex_cons hopen (lex_cons hc (lex_cons hclose hend))

theorem lex_inText {cs : List Char} (h : ∀ c ∈ cs, printable c = true ∧ c ≠ doubleQuote) (rev : List Char) :
    lex (.inText rev) (cs ++ [doubleQuote]) = .ok [.text (rev.reverse ++ cs)] := by
  induction cs generalizing rev with
  | nil =>
    have hclose : lexStep (.inText rev) doubleQuote = .ok (.between, [.text rev.reverse]) := by simp [lexStep]
    have hend : lex .between [] = .ok [] := rfl
    rw [List.append_nil]
    exact lex_cons hclose hend
  | cons c cs ih =>
    rw [List.forall_mem_cons] at h
    have hc : lexStep (.inText rev) c = .ok (.inText (c :: rev), []) := by simp [lexStep, h.1]
    simpa using lex_cons hc (ih h.2 (c :: rev))

theorem lex_text {cs : List Char} (h : ∀ c ∈ cs, printable c = true ∧ c ≠ doubleQuote) :
    lex .between ([doubleQuote] ++ cs ++ [doubleQuote]) = .ok [.text cs] := by
  have hopen : lexStep .between doubleQuote = .ok (.inText [], []) := rfl
  exact lex_cons hopen (lex_inText h [])

end Sys2Proof
end

section
/-! Numbers in a text (30_encoding.md R81): the value of their digits, and the words they are written as. -/

namespace Sys2Proof

/-! ### Digits -/

theorem digitsValue_cons {base acc d : Nat} {c : Char} {cs : List Char} (hc : digitValue c = some d) (hd : d < base) :
    digitsValue base acc (c :: cs) = digitsValue base (base * acc + d) cs := by
  simp only [digitsValue, hc, if_pos hd]

/-- The inversion of `digitsValue` on a digit and a rest. -/
theorem digitsValue_cons_cases {base acc n : Nat} {c : Char} {cs : List Char}
    (h : digitsValue base acc (c :: cs) = some n) :
    ∃ d, digitValue c = some d ∧ d < base ∧ digitsValue base (base * acc + d) cs = some n := by
  rw [digitsValue] at h
  split at h
  · cases h
  · next d hc =>
    split at h
    · next hd => exact ⟨d, hc, hd, h⟩
    · cases h

theorem digitsValue_append {base acc m : Nat} {cs ds : List Char} (h : digitsValue base acc cs = some m) :
    digitsValue base acc (cs ++ ds) = digitsValue base m ds := by
  induction cs generalizing acc with
  | nil => cases h; rfl
  | cons c cs ih =>
    obtain ⟨d, hc, hd, hcs⟩ := digitsValue_cons_cases h
    rw [List.cons_append, digitsValue_cons hc hd, ih hcs]

theorem notMem_separators_of_digitValue {c : Char} {d : Nat} (h : digitValue c = some d) : c ∉ separators := by
  have hnone : ∀ x ∈ separators, digitValue x = none := by
    simp [separators, digitValue, newLine, singleQuote, doubleQuote]
  intro hc
  rw [hnone c hc] at h
  cases h

theorem notMem_separators_of_digitsValue {base acc n : Nat} {cs : List Char} (h : digitsValue base acc cs = some n) :
    ∀ c ∈ cs, c ∉ separators := by
  induction cs generalizing acc with
  | nil => simp
  | cons c cs ih =>
    obtain ⟨d, hc, -, hcs⟩ := digitsValue_cons_cases h
    exact List.forall_mem_cons.mpr ⟨notMem_separators_of_digitValue hc, ih hcs⟩

/-- The digits of a number in the library's form, each written by `f` as one of its value, are read back. -/
theorem digitsValue_map_toDigits {base : Nat} (hbase : 1 < base) {f : Char → Char}
    (hf : ∀ d < base, digitValue (f d.digitChar) = some d) (n : Nat) :
    digitsValue base 0 ((Nat.toDigits base n).map f) = some n := by
  induction n using Nat.strong_induction_on with
  | _ n ih =>
    rw [Nat.toDigits_eq_if hbase]
    split
    · next hn =>
      rw [List.map_singleton, digitsValue_cons (hf n hn) hn, Nat.mul_zero, Nat.zero_add, digitsValue]
    · next hn =>
      have hmod : n % base < base := Nat.mod_lt n (by omega)
      rw [List.map_append, List.map_singleton, digitsValue_append (ih (n / base) (Nat.div_lt_self (by omega) hbase)),
        digitsValue_cons (hf _ hmod) hmod, Nat.div_add_mod, digitsValue]

theorem digitValue_digitChar {d : Nat} (h : d < 16) : digitValue d.digitChar = some d := by
  have all : ∀ d : Fin 16, digitValue d.val.digitChar = some d.val := by decide
  exact all ⟨d, h⟩

theorem digitValue_toUpper_digitChar {d : Nat} (h : d < 16) : digitValue d.digitChar.toUpper = some d := by
  have all : ∀ d : Fin 16, digitValue d.val.digitChar.toUpper = some d.val := by decide
  exact all ⟨d, h⟩

theorem digitsValue_toDigits {base : Nat} (hbase : 1 < base) (hle : base ≤ 16) (n : Nat) :
    digitsValue base 0 (Nat.toDigits base n) = some n := by
  simpa using digitsValue_map_toDigits hbase (f := id) (fun d hd => digitValue_digitChar (hd.trans_le hle)) n

theorem digitsValue_toDigits_toUpper (n : Nat) :
    digitsValue 16 0 ((Nat.toDigits 16 n).map Char.toUpper) = some n :=
  digitsValue_map_toDigits (by decide) (fun _ => digitValue_toUpper_digitChar) n

theorem digitValue_hexDigit {d : Nat} (h : d < 16) : digitValue (hexDigit d) = some d := by
  have all : ∀ d : Fin 16, digitValue (hexDigit d.val) = some d.val := by decide
  exact all ⟨d, h⟩

/-- The most significant digit stands first. -/
theorem hexDigits_succ (v n : Nat) : hexDigits v (n + 1) = hexDigit (v / 16 ^ n % 16) :: hexDigits v n := by
  simp [hexDigits, List.range_succ_eq_map, Nat.sub_sub, Nat.add_comm]

theorem digitsValue_hexDigits (v n acc : Nat) :
    digitsValue 16 acc (hexDigits v n) = some (16 ^ n * acc + v % 16 ^ n) := by
  induction n generalizing acc with
  | zero => simp [hexDigits, digitsValue, Nat.mod_one]
  | succ n ih =>
    have hlt : v / 16 ^ n % 16 < 16 := Nat.mod_lt _ (by decide)
    rw [hexDigits_succ, digitsValue_cons (digitValue_hexDigit hlt) hlt, ih, Nat.pow_succ, Nat.mod_mul]
    ring_nf

/-! ### The texts of a number -/

/-- Digits of a base do not begin with `0x`. -/
theorem not_hex_of_digitsValue {base acc n : Nat} {c d : Char} {cs : List Char}
    (h : digitsValue base acc (c :: d :: cs) = some n) : ¬ (c = '0' ∧ d = 'x') := by
  rintro ⟨-, rfl⟩
  obtain ⟨_, -, -, hx⟩ := digitsValue_cons_cases h
  obtain ⟨_, hnone, -⟩ := digitsValue_cons_cases hx
  cases hnone

/-- Without `0x` digits in base 16 are read as such in a byte list. -/
theorem hexNumber_of_digitsValue {ds : List Char} {n : Nat} (hne : ds ≠ []) (h : digitsValue 16 0 ds = some n) :
    hexNumber ds = some n :=
  match ds with
  | [] => absurd rfl hne
  | [_] => h
  | _ :: _ :: _ => (if_neg (not_hex_of_digitsValue h)).trans h

/-- The text of a number: a word, and the value it is read as. -/
structure Numeral (cs : List Char) (n : Nat) : Prop where
  word : PlainWord cs
  value : number cs = some n

theorem plainWord_of_digitsValue {base acc n : Nat} {ds : List Char} (hne : ds ≠ [])
    (h : digitsValue base acc ds = some n) : PlainWord ds :=
  ⟨hne, notMem_separators_of_digitsValue h⟩

/-- Without `0x` a number is decimal (30_encoding.md R81). -/
theorem Numeral.decimal {ds : List Char} {n : Nat} (hne : ds ≠ []) (h : digitsValue 10 0 ds = some n) :
    Numeral ds n where
  word := plainWord_of_digitsValue hne h
  value :=
    match ds with
    | [] => absurd rfl hne
    | [_] => h
    | _ :: _ :: _ => (if_neg (not_hex_of_digitsValue h)).trans h

/-- After `0x` a number is hexadecimal (30_encoding.md R81). -/
theorem Numeral.hex {ds : List Char} {n : Nat} (hne : ds ≠ []) (h : digitsValue 16 0 ds = some n) :
    Numeral ('0' :: 'x' :: ds) n where
  word :=
    { ne_nil := List.cons_ne_nil _ _
      plain := by
        have hds := (plainWord_of_digitsValue hne h).plain
        simpa [separators, newLine, singleQuote, doubleQuote] using hds }
  value :=
    match ds with
    | [] => absurd rfl hne
    | _ :: _ => h

theorem Numeral.toDigits_ten (n : Nat) : Numeral (Nat.toDigits 10 n) n :=
  .decimal Nat.toDigits_ne_nil (digitsValue_toDigits (by decide) (by decide) n)

theorem Numeral.toDigits_sixteen (n : Nat) : Numeral ('0' :: 'x' :: Nat.toDigits 16 n) n :=
  .hex Nat.toDigits_ne_nil (digitsValue_toDigits (by decide) (by decide) n)

theorem Numeral.toDigits_toUpper (n : Nat) : Numeral ('0' :: 'x' :: (Nat.toDigits 16 n).map Char.toUpper) n :=
  .hex (by simp [Nat.toDigits_ne_nil]) (digitsValue_toDigits_toUpper n)

end Sys2Proof
end

section
/-! The spellings of an operand (30_encoding.md R81). -/

namespace Sys2Proof

/-! ### A mnemonic alone -/

/-- The mnemonics (30_encoding.md R73) and the names of the pseudo-instructions (R82). -/
def mnemonics : List (List Char) :=
  ["NOP".toList, "INIT".toList, "ABSORB".toList, "FINAL".toList, "RDD".toList, "RDS".toList, "ABSORBS".toList,
    "HASH".toList, "RDDIGEST".toList]

theorem plainWord_mnemonic {m : List Char} (h : m ∈ mnemonics) : PlainWord m := by
  have hall : ∀ m ∈ mnemonics, m ≠ [] ∧ ∀ c ∈ m, c ∉ separators := by
    simp [mnemonics, separators, newLine, singleQuote, doubleQuote]
  exact ⟨(hall m h).1, (hall m h).2⟩

theorem assemble_mnemonic (m : List Char) (hm : m ∈ mnemonics) {is : List Instr}
    (h : assembleLine [.word m] = .ok is) : assemble m = .ok (is.map encode) := by
  rw [assemble_of_lex (lex_plainWord (plainWord_mnemonic hm)) (by simp), h]
  rfl

/-! ### ABSORB and RDD -/

theorem assembleLine_absorb (op : Token) :
    assembleLine [.word "ABSORB".toList, op] = (byteOperand op).map (fun b => [.absorb b]) := by
  cases h : byteOperand op <;> simp [assembleLine, h] <;> rfl

theorem assembleLine_rdd (op : Token) :
    assembleLine [.word "RDD".toList, op] = (idxOperand op).map (fun k => [.rdd k]) := by
  cases h : idxOperand op <;> simp [assembleLine, h] <;> rfl

theorem encode_absorb_ofNat {n : Nat} (h : n < 256) :
    encode (.absorb (BitVec.ofNat 8 n)) = 0x0200 + BitVec.ofNat 16 n := by
  rw [encode, BitVec.setWidth_ofNat_of_le_of_lt (by decide) h]

/-- The word of a byte, or the range error. -/
def absorbWord (n : Nat) : Except AsmError (List CmdWord) :=
  if n ≤ 255 then .ok [0x0200 + BitVec.ofNat 16 n] else .error .operandOutOfRange

/-- The word of an index, or the range error. -/
def rddWord (n : Nat) : Except AsmError (List CmdWord) :=
  if n ≤ 31 then .ok [0x0400 + BitVec.ofNat 16 n] else .error .operandOutOfRange

theorem byteOperand_word {cs : List Char} {n : Nat} (h : number cs = some n) : byteOperand (.word cs) = toByte n := by
  rw [byteOperand, h]

theorem idxOperand_word {cs : List Char} {n : Nat} (h : number cs = some n) :
    idxOperand (.word cs) = if n ≤ 31 then .ok n else .error .operandOutOfRange := by
  rw [idxOperand, h]

/-- ABSORB before a text that reads as one operand. -/
theorem assemble_absorb {text : List Char} {op : Token} {n : Nat} (hlex : lex .between text = .ok [op])
    (hline : op ≠ .endOfLine) (hop : byteOperand op = toByte n) :
    assemble ("ABSORB ".toList ++ text) = absorbWord n := by
  have hall : lex .between ("ABSORB ".toList ++ text) = .ok [.word "ABSORB".toList, op] :=
    lex_plainWord_blank (plainWord_mnemonic (m := "ABSORB".toList) (by decide)) hlex
  rw [assemble_of_lex hall (by simp [hline.symm]), assembleLine_absorb, hop, toByte, absorbWord]
  by_cases hn : n < 256
  · rw [if_pos hn, if_pos (by omega), ← encode_absorb_ofNat hn]
    rfl
  · rw [if_neg hn, if_neg (by omega)]
    rfl

/-- RDD before a text that reads as one number. -/
theorem assemble_rdd {text cs : List Char} {n : Nat} (hlex : lex .between text = .ok [.word cs])
    (hn : number cs = some n) : assemble ("RDD ".toList ++ text) = rddWord n := by
  have hall : lex .between ("RDD ".toList ++ text) = .ok [.word "RDD".toList, .word cs] :=
    lex_plainWord_blank (plainWord_mnemonic (m := "RDD".toList) (by decide)) hlex
  rw [assemble_of_lex hall (by simp), assembleLine_rdd, idxOperand_word hn, rddWord]
  split <;> rfl

theorem Numeral.assemble_absorb {cs : List Char} {n : Nat} (h : Numeral cs n) :
    assemble ("ABSORB ".toList ++ cs) = absorbWord n :=
  Sys2Proof.assemble_absorb (lex_plainWord h.word) nofun (byteOperand_word h.value)

theorem Numeral.assemble_rdd {cs : List Char} {n : Nat} (h : Numeral cs n) :
    assemble ("RDD ".toList ++ cs) = rddWord n :=
  Sys2Proof.assemble_rdd (lex_plainWord h.word) h.value

/-- A comment after the operand, a blank before it. -/
theorem Numeral.assemble_absorb_comment {cs com : List Char} {n : Nat} (h : Numeral cs n) (hcom : newLine ∉ com) :
    assemble ("ABSORB ".toList ++ (cs ++ ' ' :: ';' :: com)) = absorbWord n := by
  have hc : lexStep .between ';' = .ok (.inComment, []) := by simp [lexStep, newLine, blank]
  exact Sys2Proof.assemble_absorb (lex_plainWord_blank h.word (lex_cons hc (lex_inComment hcom))) nofun
    (byteOperand_word h.value)

/-- A comment right after the operand. -/
theorem Numeral.assemble_rdd_comment {cs com : List Char} {n : Nat} (h : Numeral cs n) (hcom : newLine ∉ com) :
    assemble ("RDD ".toList ++ (cs ++ ';' :: com)) = rddWord n :=
  Sys2Proof.assemble_rdd (lex_plainWord_comment h.word hcom) h.value

theorem assemble_absorb_quoted {c : Char} (h : printable c = true) :
    assemble ("ABSORB ".toList ++ [singleQuote, c, singleQuote]) = absorbWord c.toNat :=
  assemble_absorb (lex_quoted h) nofun rfl

theorem toNat_ofNat_of_le {n : Nat} (h : n ≤ 126) : (Char.ofNat n).toNat = n := by
  rw [Char.toNat_ofNat, if_pos (Or.inl (by omega))]

theorem assembleLine_alone {m : List Char} (hm : m ∈ ["NOP".toList, "INIT".toList, "FINAL".toList, "RDS".toList])
    (t : Token) (ts : List Token) : assembleLine (.word m :: t :: ts) = .error .badOperand := by
  simp only [List.mem_cons, List.not_mem_nil, or_false] at hm
  obtain rfl | rfl | rfl | rfl := hm <;> rfl

/-- Settles O6: every spelling of a number is a `Numeral`, whose operand assembles to its word. -/
theorem operandSpellingsAssemble : Obligations.OperandSpellingsAssemble := by
  unfold Obligations.OperandSpellingsAssemble
  have byte {n : Nat} (hn : n ≤ 255) : absorbWord n = .ok [0x0200 + BitVec.ofNat 16 n] := if_pos hn
  have idx {n : Nat} (hn : n ≤ 31) : rddWord n = .ok [0x0400 + BitVec.ofNat 16 n] := if_pos hn
  refine ⟨fun n hlo hhi => ?quoted,
    fun n hn => ⟨((Numeral.toDigits_sixteen n).assemble_absorb_comment (by decide)).trans (byte hn),
      (Numeral.toDigits_ten n).assemble_absorb.trans (byte hn)⟩,
    fun n hn => ⟨(Numeral.toDigits_sixteen n).assemble_rdd.trans (idx hn),
      ((Numeral.toDigits_ten n).assemble_rdd_comment (by decide)).trans (idx hn)⟩,
    (Numeral.hex (ds := ['1', 'F']) (by simp) rfl).assemble_rdd,
    fun n hn => (Numeral.toDigits_toUpper n).assemble_absorb.trans (byte hn),
    fun n hn => (Numeral.toDigits_toUpper n).assemble_rdd.trans (idx hn),
    fun ds n hne h => ⟨(Numeral.hex hne h).assemble_absorb, (Numeral.hex hne h).assemble_rdd⟩,
    ⟨assemble_mnemonic "NOP".toList (by decide) rfl, assemble_mnemonic "INIT".toList (by decide) rfl,
      assemble_mnemonic "FINAL".toList (by decide) rfl, assemble_mnemonic "RDS".toList (by decide) rfl⟩,
    fun _ => assembleLine_alone, fun cs n h => ⟨fun hn => ?byteRange, fun hn => ?idxRange⟩⟩
  case quoted =>
    have hc := toNat_ofNat_of_le hhi
    have hprintable : printable (Char.ofNat n) = true := decide_eq_true (by rw [hc]; exact ⟨hlo, hhi⟩)
    rw [assemble_absorb_quoted hprintable, hc, byte (by omega)]
  case byteRange =>
    rw [assembleLine_absorb, byteOperand_word h, toByte, if_neg (by omega)]
    rfl
  case idxRange =>
    rw [assembleLine_rdd, idxOperand_word h, if_neg (by omega)]
    rfl

end Sys2Proof
end

section
/-! Disassembly (30_encoding.md R84): the text of a legal word is its command's, and assembles back. -/

namespace Sys2Proof

theorem disassemble_of_decode {w : CmdWord} {i : Instr} (h : decode w = .ok i) : disassemble w = commandText i := by
  rw [disassemble, h]

theorem disassemble_encode {i : Instr} (h : i.wellFormed = true) : disassemble (encode i) = commandText i :=
  disassemble_of_decode (decode_encode h)

theorem disassemble_absorb (d : Byte) :
    disassemble (0x0200 + d.setWidth 16) = "ABSORB 0x".toList ++ hexDigits d.toNat 2 := by
  have htext : commandText (.absorb d) = "ABSORB 0x".toList ++ hexDigits d.toNat 2 := rfl
  exact (disassemble_encode (i := .absorb d) rfl).trans htext

theorem disassemble_rdd {k : Nat} (h : k ≤ 31) :
    disassemble (0x0400 + BitVec.ofNat 16 k) = "RDD 0x".toList ++ hexDigits k 2 := by
  have htext : commandText (.rdd k) = "RDD 0x".toList ++ hexDigits k 2 := rfl
  exact (disassemble_encode (wellFormed_rdd.mpr h)).trans htext

theorem disassemble_of_decode_error {w : CmdWord} {e : Reject} (h : decode w = .error e) :
    disassemble w = "ILLEGAL 0x".toList ++ hexDigits w.toNat 4 := by
  rw [disassemble, h]

/-- As many digits as the value needs hold it. -/
theorem digitsValue_hexDigits_of_lt {v n : Nat} (h : v < 16 ^ n) : digitsValue 16 0 (hexDigits v n) = some v := by
  rw [digitsValue_hexDigits, Nat.mul_zero, Nat.zero_add, Nat.mod_eq_of_lt h]

/-- The two digits of a byte, as disassembly writes them. -/
theorem Numeral.hexDigits_two {v : Nat} (h : v < 256) : Numeral ('0' :: 'x' :: hexDigits v 2) v :=
  .hex (List.cons_ne_nil _ _) (digitsValue_hexDigits_of_lt h)

theorem assemble_commandText {i : Instr} (h : i.wellFormed = true) : assemble (commandText i) = .ok [encode i] := by
  cases i with
  | nop => exact assemble_mnemonic "NOP".toList (by decide) rfl
  | init => exact assemble_mnemonic "INIT".toList (by decide) rfl
  | final => exact assemble_mnemonic "FINAL".toList (by decide) rfl
  | rds => exact assemble_mnemonic "RDS".toList (by decide) rfl
  | absorb d =>
    have hd : d.toNat ≤ 255 := Nat.le_of_lt_succ d.isLt
    refine (Numeral.hexDigits_two d.isLt).assemble_absorb.trans ?_
    rw [absorbWord, if_pos hd, ← encode_absorb_ofNat d.isLt, BitVec.ofNat_toNat, BitVec.setWidth_eq]
  | rdd k =>
    have hk : k ≤ 31 := wellFormed_rdd.mp h
    exact (Numeral.hexDigits_two (by omega)).assemble_rdd.trans (if_pos hk)

/-- Settles O5, by the text of each command and the value of its digits. -/
theorem disassemblyAssemblesBack : Obligations.DisassemblyAssemblesBack := by
  unfold Obligations.DisassemblyAssemblesBack
  have hbyte (d : Byte) : d.toNat < 16 ^ 2 := d.isLt
  have hword (w : CmdWord) : w.toNat < 16 ^ 4 := w.isLt
  refine ⟨⟨?_, ?_, ?_, ?_⟩, fun d => ?_, fun k hk => ?_, fun w i h => ?_, fun w e h => ?_⟩
  · exact disassemble_encode (i := .nop) rfl
  · exact disassemble_encode (i := .init) rfl
  · exact disassemble_encode (i := .final) rfl
  · exact disassemble_encode (i := .rds) rfl
  · exact ⟨_, disassemble_absorb d, digitsValue_hexDigits_of_lt (hbyte d)⟩
  · exact ⟨_, disassemble_rdd hk, digitsValue_hexDigits_of_lt (by omega)⟩
  · rw [disassemble_of_decode h, assemble_commandText (wellFormed_of_decode h), encode_of_decode h]
  · exact ⟨_, disassemble_of_decode_error h, by simp [hexDigits], digitsValue_hexDigits_of_lt (hword w)⟩

end Sys2Proof
end

section
/-! The pseudo-instructions (30_encoding.md R82). -/

namespace Sys2Proof

theorem lex_mnemonic_text {m cs : List Char} (hm : m ∈ mnemonics) (h : ∀ c ∈ cs, printable c = true ∧ c ≠ doubleQuote) :
    lex .between (m ++ ' ' :: ([doubleQuote] ++ cs ++ [doubleQuote])) = .ok [.word m, .text cs] :=
  lex_plainWord_blank (plainWord_mnemonic hm) (lex_text h)

theorem encode_absorbs (bs : List Byte) : (absorbs bs).map encode = bs.map (fun b => 0x0200 + b.setWidth 16) :=
  List.map_map

theorem encode_rdDigest : rdDigest.map encode = (List.range 32).map (fun i => 0x0400 + BitVec.ofNat 16 i) :=
  List.map_map

theorem encode_hashCommands (bs : List Byte) : (hashCommands bs).map encode =
    [0x0100] ++ (absorbs bs).map encode ++ [0x0300] ++ rdDigest.map encode := by
  simp only [hashCommands, List.map_append, List.map_cons, List.map_nil, encode]

/-- The words of a string of printable characters. -/
theorem encode_absorbs_stringBytes {cs : List Char} (h : ∀ c ∈ cs, printable c = true) :
    (absorbs (stringBytes cs)).map encode = cs.map (fun c => 0x0200 + BitVec.ofNat 16 c.toNat) := by
  rw [encode_absorbs, stringBytes, List.map_map]
  refine List.map_congr_left fun c hc => ?_
  have hle : c.toNat ≤ 126 := (of_decide_eq_true (h c hc)).2
  exact encode_absorb_ofNat (by omega)

theorem hexBytes_hexDigits (bs : List Byte) : hexBytes (bs.map (fun b => .word (hexDigits b.toNat 2))) = .ok bs := by
  induction bs with
  | nil => rfl
  | cons b bs ih =>
    have hb : hexNumber (hexDigits b.toNat 2) = some b.toNat :=
      hexNumber_of_digitsValue (List.cons_ne_nil _ _) (digitsValue_hexDigits_of_lt b.isLt)
    have hbyte : toByte b.toNat = .ok b := by
      rw [toByte, if_pos b.isLt, BitVec.ofNat_toNat, BitVec.setWidth_eq]
    simp only [List.map_cons, hexBytes, hb, hbyte, ih]

theorem assembleLine_absorbs_bytes {ts : List Token} {bs : List Byte} (h : hexBytes ts = .ok bs) :
    assembleLine (.word "ABSORBS".toList :: ts) = .ok (absorbs bs) := by
  cases ts with
  | nil => cases h; rfl
  | cons t ts =>
    cases t with
    | word cs => simp [assembleLine, h]
    | quoted | text | endOfLine => cases h

theorem assemble_absorbs_bytes (bs : List Byte) :
    assemble ("ABSORBS".toList ++ bs.flatMap (fun b => ' ' :: hexDigits b.toNat 2)) =
      .ok (bs.map (fun b => 0x0200 + b.setWidth 16)) := by
  have hword (b : Byte) : PlainWord (hexDigits b.toNat 2) :=
    plainWord_of_digitsValue (List.cons_ne_nil _ _) (digitsValue_hexDigits_of_lt b.isLt)
  have hlex := lex_plainWords (plainWord_mnemonic (m := "ABSORBS".toList) (by decide))
    (ws := bs.map (fun b => hexDigits b.toNat 2)) (by simp [hword])
  rw [List.flatMap_map, List.map_map] at hlex
  have hline := assembleLine_absorbs_bytes (hexBytes_hexDigits bs)
  rw [assemble_of_lex hlex (by simp), Function.comp_def, hline, ← encode_absorbs]
  rfl

/-- Settles O7: each line's pieces, its commands, and their words. -/
theorem pseudoInstructionsExpand : Obligations.PseudoInstructionsExpand := by
  unfold Obligations.PseudoInstructionsExpand
  refine ⟨fun cs h => ?strings, assemble_absorbs_bytes, ?digest⟩
  case strings =>
    have hwords := encode_absorbs_stringBytes fun c hc => (h c hc).1
    constructor
    · have hlex := lex_mnemonic_text (m := "ABSORBS".toList) (by decide) h
      rw [← hwords]
      exact assemble_of_lex hlex (by simp)
    · have hlex := lex_mnemonic_text (m := "HASH".toList) (by decide) h
      rw [← hwords, ← encode_rdDigest, ← encode_hashCommands]
      exact assemble_of_lex hlex (by simp)
  case digest =>
    rw [← encode_rdDigest]
    exact assemble_mnemonic "RDDIGEST".toList (by decide) rfl

end Sys2Proof
end

section
/-! `Pad` (40_padding.md R90 to R98): when it fails, how long its result is, where the pad byte and the length field
stand, and what it gives back. -/

namespace Sys2Proof.Machine

/-! ### The bytes of a number (00_scope.md R15) -/

@[simp] theorem bytesBE_length (v n : Nat) : (bytesBE v n).length = n := by simp [bytesBE]

theorem bytesBE_getD {v n i : Nat} (h : i < n) : (bytesBE v n).getD i 0 = byteBE v n i := by
  simp [bytesBE, List.getD_eq_getElem?_getD, h]

theorem blockWord_drop (b : List Byte) (k i : Nat) : blockWord (b.drop (4 * k)) i = blockWord b (k + i) := by
  simp only [blockWord, List.getD_eq_getElem?_getD, List.getElem?_drop, Nat.mul_add, Nat.add_assoc]

/-- The two words of a 64-bit number are its halves (40_padding.md R93). -/
theorem blockWord_bytesBE {v : Nat} (h : v < 2 ^ 64) :
    (blockWord (bytesBE v 8) 0).toNat = v / 2 ^ 32 ∧ (blockWord (bytesBE v 8) 1).toNat = v % 2 ^ 32 := by
  simp (disch := decide) only [blockWord, bytesBE_getD, be32_toNat, byteBE_toNat]
  omega

theorem bytesBE_eight_inj {v v' : Nat} (h : v < 2 ^ 64) (h' : v' < 2 ^ 64) (he : bytesBE v 8 = bytesBE v' 8) :
    v = v' := by
  obtain ⟨hhigh, hlow⟩ := blockWord_bytesBE h
  obtain ⟨hhigh', hlow'⟩ := blockWord_bytesBE h'
  rw [he] at hhigh hlow
  omega

/-! ### Success and failure (40_padding.md R95) -/

theorem tooLong_iff {m : List Byte} : tooLong m = true ↔ 2 ^ 61 ≤ m.length := by
  simp only [tooLong, decide_eq_true_eq]
  omega

/-- `Pad` can fail in one way. -/
theorem pad_error_iff {m : List Byte} {e : Cause} : pad m = .error e ↔ 2 ^ 61 ≤ m.length ∧ e = .invalidInput := by
  rw [← tooLong_iff, pad]
  split
  · next h => rw [and_iff_right h, Except.error.injEq, eq_comm]
  · next h => simp only [h, reduceCtorEq, false_and]

/-- What `Pad` gives when it does not fail (40_padding.md R90). -/
theorem pad_ok_iff {m p : List Byte} : pad m = .ok p ↔ m.length < 2 ^ 61 ∧
    p = m ++ [0x80] ++ List.replicate (zeroCount m.length) 0x00 ++ bytesBE (8 * m.length) 8 := by
  rw [← not_le, ← tooLong_iff, pad]
  split
  · next h => simp only [h, reduceCtorEq, not_true, false_and]
  · next h => rw [and_iff_right h, Except.ok.injEq, eq_comm]

/-- `Hash` fails where `Pad` does, and with its failure (42_output_and_hash.md R134). -/
theorem hashMessage_error_iff {c : Config} {m : List Byte} {e : Cause} :
    hashMessage c m = .error e ↔ pad m = .error e := by
  rw [hashMessage]
  split
  · next hp => rw [hp]
  · next hp => simp only [hp, reduceCtorEq]

theorem serialize_length (v : Words8) : (serialize v).length = 32 := by
  rw [serialize_eq_map_dig, List.length_map, List.length_finRange]

/-- Settles O50: `Pad` tests the length alone, and `Hash` fails where `Pad` does. -/
theorem padFailsOnOverflowAlone : Obligations.PadFailsOnOverflowAlone := by
  unfold Obligations.PadFailsOnOverflowAlone
  intro c m
  have hpad : pad m = .error .invalidInput ↔ 2 ^ 61 ≤ m.length := pad_error_iff.trans (and_iff_left rfl)
  refine ⟨hpad, hashMessage_error_iff.trans hpad, fun e he => (pad_error_iff.mp he).2, fun hm => ?_⟩
  have hok := pad_ok_iff.mpr ⟨hm, rfl⟩
  exact ⟨_, by rw [hashMessage, hok], serialize_length _⟩

/-! ### The number of zero bytes (40_padding.md R91, R92) -/

theorem zeroCount_of_le {n : Nat} (h : n % 64 ≤ 55) : zeroCount n = 55 - n % 64 := by rw [zeroCount]; omega

theorem zeroCount_of_ge {n : Nat} (h : 56 ≤ n % 64) : zeroCount n = 119 - n % 64 := by rw [zeroCount]; omega

theorem add_zeroCount_mod (n : Nat) : (n + 1 + zeroCount n) % 64 = 56 := by rw [zeroCount]; omega

theorem add_mod_ne_of_lt_zeroCount {n k : Nat} (h : k < zeroCount n) : (n + 1 + k) % 64 ≠ 56 := by
  rw [zeroCount] at h; omega

/-- The padded length is that of its blocks (40_padding.md R92). -/
theorem add_zeroCount_eq_blocks (n : Nat) : n + 9 + zeroCount n = 64 * ((n + 8) / 64 + 1) := by
  rw [zeroCount]; omega

section
variable {m p : List Byte} (h : pad m = .ok p)
include h

theorem pad_length : p.length = m.length + 9 + zeroCount m.length := by
  obtain ⟨-, rfl⟩ := pad_ok_iff.mp h
  simp only [List.length_append, List.length_replicate, bytesBE_length, List.length_singleton]
  omega

theorem pad_length_eq_blocks : p.length = 64 * ((m.length + 8) / 64 + 1) :=
  (pad_length h).trans (add_zeroCount_eq_blocks _)

/-! ### The parts of a padded message (40_padding.md R93, R98) -/

theorem pad_take_message : p.take m.length = m := by
  obtain ⟨-, rfl⟩ := pad_ok_iff.mp h
  simp

theorem pad_getD_padByte : p.getD m.length 0 = 0x80 := by
  obtain ⟨-, rfl⟩ := pad_ok_iff.mp h
  simp

theorem pad_drop_padByte :
    p.drop (m.length + 1) = List.replicate (zeroCount m.length) 0x00 ++ bytesBE (8 * m.length) 8 := by
  obtain ⟨-, rfl⟩ := pad_ok_iff.mp h
  rw [List.append_assoc, List.drop_left' (by simp)]

/-- Zero bytes alone lie between the pad byte and the length field. -/
theorem pad_drop_zeros {k : Nat} (hk : k ≤ zeroCount m.length) : p.drop (m.length + 1 + k) =
    List.replicate (zeroCount m.length - k) 0x00 ++ bytesBE (8 * m.length) 8 := by
  rw [← List.drop_drop, pad_drop_padByte h, List.drop_append_of_le_length (by simpa using hk), List.drop_replicate]

theorem pad_drop_lengthField : p.drop (p.length - 8) = bytesBE (8 * m.length) 8 := by
  rw [pad_length h, show m.length + 9 + zeroCount m.length - 8 = m.length + 1 + zeroCount m.length by omega,
    pad_drop_zeros h le_rfl, Nat.sub_self, List.replicate_zero, List.nil_append]

end

/-- Settles O48: the zero bytes are counted by `zeroCount`, which is the least such number. -/
theorem padFollowsItsRule : Obligations.PadFollowsItsRule := by
  unfold Obligations.PadFollowsItsRule
  intro m hm
  have hpad := pad_ok_iff.mpr ⟨hm, rfl⟩
  have hblocks := pad_length_eq_blocks hpad
  refine ⟨zeroCount m.length, bytesBE (8 * m.length) 8, _, hpad, rfl, add_zeroCount_mod _,
    fun k => add_mod_ne_of_lt_zeroCount, bytesBE_length _ _, fun i => bytesBE_getD, zeroCount_of_le, zeroCount_of_ge,
    pad_length hpad, ?multiple, ?count, ?countByRest⟩
  case multiple => omega
  case count => omega
  case countByRest => split <;> omega

/-- Settles O51: the length field is the last eight bytes, and with the length it gives the message before it. -/
theorem padIsInjective : Obligations.PadIsInjective := by
  unfold Obligations.PadIsInjective
  refine ⟨fun m p h => ⟨pad_drop_lengthField h, pad_take_message h⟩, fun m m' p h h' => ?_⟩
  obtain ⟨hm, -⟩ := pad_ok_iff.mp h
  obtain ⟨hm', -⟩ := pad_ok_iff.mp h'
  have hfield : bytesBE (8 * m.length) 8 = bytesBE (8 * m'.length) 8 :=
    (pad_drop_lengthField h).symm.trans (pad_drop_lengthField h')
  have hlen : 8 * m.length = 8 * m'.length := bytesBE_eight_inj (by omega) (by omega) hfield
  calc m = p.take m.length := (pad_take_message h).symm
    _ = p.take m'.length := by rw [Nat.eq_of_mul_eq_mul_left (by decide) hlen]
    _ = m' := pad_take_message h'

/-! ### The blocks of a padded message (40_padding.md R93, R96) -/

theorem blk_getD (p : List Byte) (n : Nat) {i : Nat} (hi : i < 64) : (blk p n).getD i 0 = p.getD (64 * n + i) 0 := by
  simp only [blk, List.getD_eq_getElem?_getD, List.getElem?_take_of_lt hi, List.getElem?_drop]

theorem blk_drop (p : List Byte) (n k : Nat) : (blk p n).drop k = (p.drop (64 * n + k)).take (64 - k) := by
  rw [blk, List.drop_take, List.drop_drop]

theorem blk_last {p : List Byte} {n : Nat} (h : p.length = 64 * (n + 1)) : blk p n = p.drop (64 * n) :=
  List.take_of_length_le (by rw [List.length_drop]; omega)

/-- Settles O49: the last block begins before the pad byte when there is room for the length field behind it, and else
among the zero bytes. -/
theorem lastBlockLayout : Obligations.LastBlockLayout := by
  unfold Obligations.LastBlockLayout
  intro m p h
  obtain ⟨hm, -⟩ := pad_ok_iff.mp h
  have hlen := pad_length_eq_blocks h
  have hlast := blk_last hlen
  have hfield : (blk p ((m.length + 8) / 64)).drop 56 = bytesBE (8 * m.length) 8 := by
    rw [hlast, List.drop_drop, ← pad_drop_lengthField h, hlen]
    rfl
  obtain ⟨hhigh, hlow⟩ := blockWord_bytesBE (v := 8 * m.length) (by omega)
  rw [← hfield] at hhigh hlow
  refine ⟨(m.length + 8) / 64, hlen, hfield, ?word14, ?word15, ?padByte, fun hr => by omega,
    fun hr => ⟨by omega, ?zerosOfLast, ?zerosBehindPadByte⟩⟩
  case word14 => rw [← hhigh, blockWord_drop _ 14 0]
  case word15 => rw [← hlow, blockWord_drop _ 14 1]
  case padByte =>
    rw [blk_getD _ _ (Nat.mod_lt _ (by decide)), Nat.div_add_mod, pad_getD_padByte h]
  case zerosOfLast =>
    have hzero := zeroCount_of_ge hr
    rw [hlast, show 64 * ((m.length + 8) / 64) = m.length + 1 + (63 - m.length % 64) by omega,
      pad_drop_zeros h (by omega), show zeroCount m.length - (63 - m.length % 64) = 56 by omega]
  case zerosBehindPadByte =>
    have hzero := zeroCount_of_ge hr
    rw [blk_drop, show 64 * (m.length / 64) + (m.length % 64 + 1) = m.length + 1 by omega, pad_drop_padByte h,
      List.take_append_of_le_length (by rw [List.length_replicate]; omega), List.take_replicate,
      show min (64 - (m.length % 64 + 1)) (zeroCount m.length) = 63 - m.length % 64 by omega]

end Sys2Proof.Machine
end

section
/-! The word functions bit by bit (41_compression.md R101 to R104): rotation, majority, choice, `P0` and `P1`. -/

namespace Sys2Proof.Machine

/-! ### Rotation (41_compression.md R101) -/

/-- The bits of a rotated word are the bits of the word, `n` places up and round. -/
theorem getLsbD_rotl32 (x : Word) {n i : Nat} (hn : n ≤ 31) (hi : i < 32) :
    (rotl32 x n).getLsbD i = x.getLsbD ((i + 32 - n) % 32) := by
  rw [rotl32_eq_rotateLeft x (by omega), BitVec.getLsbD_rotateLeft, Nat.mod_eq_of_lt (by omega)]
  by_cases hlow : i < n
  · rw [decide_eq_true hlow, cond_true, Nat.mod_eq_of_lt (by omega)]
    congr 1
    omega
  · rw [decide_eq_false hlow, cond_false, decide_eq_true hi, Bool.true_and]
    congr 1
    omega

/-- A word is a rotated one when its bits are those that rotation brings. -/
theorem eq_rotl32_of_getLsbD {x y : Word} {n : Nat} (hn : n ≤ 31)
    (h : ∀ i, i < 32 → y.getLsbD i = x.getLsbD ((i + 32 - n) % 32)) : y = rotl32 x n :=
  BitVec.eq_of_getLsbD_eq fun i hi => by rw [h i hi, getLsbD_rotl32 x hn hi]

section
variable (x y : Word) {n : Nat} (hn : n ≤ 31)
include hn

theorem rotl32_xor : rotl32 (x ^^^ y) n = rotl32 x n ^^^ rotl32 y n :=
  (eq_rotl32_of_getLsbD hn fun i hi => by simp only [BitVec.getLsbD_xor, getLsbD_rotl32 _ hn hi]).symm

theorem rotl32_and : rotl32 (x &&& y) n = rotl32 x n &&& rotl32 y n :=
  (eq_rotl32_of_getLsbD hn fun i hi => by simp only [BitVec.getLsbD_and, getLsbD_rotl32 _ hn hi]).symm

theorem rotl32_or : rotl32 (x ||| y) n = rotl32 x n ||| rotl32 y n :=
  (eq_rotl32_of_getLsbD hn fun i hi => by simp only [BitVec.getLsbD_or, getLsbD_rotl32 _ hn hi]).symm

theorem rotl32_not : rotl32 (~~~x) n = ~~~ rotl32 x n :=
  (eq_rotl32_of_getLsbD hn fun i hi => by
    have hmod : (i + 32 - n) % 32 < 32 := Nat.mod_lt _ (by decide)
    simp only [BitVec.getLsbD_not, getLsbD_rotl32 _ hn hi, hi, hmod]).symm

theorem rotl32_zero : rotl32 0 n = 0 :=
  (eq_rotl32_of_getLsbD hn fun _ _ => by simp only [BitVec.getLsbD_zero, BitVec.ofNat_eq_ofNat]).symm

theorem rotl32_allOnes : rotl32 0xFFFFFFFF n = 0xFFFFFFFF := by
  rw [show (0xFFFFFFFF : Word) = ~~~ 0 from rfl, rotl32_not _ hn, rotl32_zero hn]

end

theorem rotl32_rotl32 (x : Word) {a b : Nat} (ha : a ≤ 31) (hb : b ≤ 31) :
    rotl32 (rotl32 x a) b = rotl32 x ((a + b) % 32) :=
  eq_rotl32_of_getLsbD (by omega) fun i hi => by
    rw [getLsbD_rotl32 _ hb hi, getLsbD_rotl32 _ ha (Nat.mod_lt _ (by decide))]
    congr 1
    omega

/-- Settles O37, from the bits of a rotated word; the carry of two top bits is lost by a sum that is then rotated and
not by the sum of the rotated words. -/
theorem rotationLaws : Obligations.RotationLaws := by
  unfold Obligations.RotationLaws
  refine ⟨fun x n i hn hi => getLsbD_rotl32 x hn hi, fun x y n hn => ?_, fun x a b ha hb => rotl32_rotl32 x ha hb,
    fun n hn => ⟨rotl32_zero hn, rotl32_allOnes hn⟩, 0x80000000, 0x80000000, 1, by decide⟩
  exact ⟨rotl32_xor x y hn, rotl32_and x y hn, rotl32_or x y hn, rotl32_not x hn⟩

/-! ### Majority and choice (41_compression.md R102, R103) -/

theorem getLsbD_ff (x y z : Word) (i : Nat) : (ff x y z).getLsbD i =
    decide (2 ≤ (x.getLsbD i).toNat + (y.getLsbD i).toNat + (z.getLsbD i).toNat) := by
  have hmajority : ∀ a b c : Bool, (a && b || a && c || b && c) = decide (2 ≤ a.toNat + b.toNat + c.toNat) := by decide
  simp only [ff, BitVec.getLsbD_or, BitVec.getLsbD_and, hmajority]

theorem ff_comm_left (x y z : Word) : ff x y z = ff y x z := by
  rw [ff, ff, BitVec.and_comm x y, BitVec.or_assoc, BitVec.or_assoc, BitVec.or_comm (x &&& z)]

theorem ff_comm_right (x y z : Word) : ff x y z = ff x z y := by
  rw [ff, ff, BitVec.and_comm y z, BitVec.or_comm (x &&& y)]

theorem getLsbD_gg (x y z : Word) {i : Nat} (hi : i < 32) :
    (gg x y z).getLsbD i = if x.getLsbD i then y.getLsbD i else z.getLsbD i := by
  have hchoice : ∀ a b c : Bool, (a && b || !a && c) = if a then b else c := by decide
  simp only [gg, BitVec.getLsbD_or, BitVec.getLsbD_and, BitVec.getLsbD_not, decide_eq_true hi, Bool.true_and, hchoice]

theorem gg_allOnes (y z : Word) : gg 0xFFFFFFFF y z = y := by
  rw [gg, show (0xFFFFFFFF : Word) = BitVec.allOnes 32 from rfl, BitVec.allOnes_and, BitVec.not_allOnes,
    BitVec.zero_and, BitVec.or_zero]

theorem gg_zero (y z : Word) : gg 0 y z = z := by
  rw [gg, show (0 : Word) = 0#32 from rfl, BitVec.zero_and, BitVec.zero_or, BitVec.not_zero, BitVec.allOnes_and]

theorem ff_allOnes (y z : Word) : ff 0xFFFFFFFF y z = y ||| z := by
  have habsorb : ∀ a b : Bool, (a || b || a && b) = (a || b) := by decide
  refine BitVec.eq_of_getLsbD_eq fun i _ => ?_
  rw [ff, show (0xFFFFFFFF : Word) = BitVec.allOnes 32 from rfl, BitVec.allOnes_and, BitVec.allOnes_and]
  simp only [BitVec.getLsbD_or, BitVec.getLsbD_and, habsorb]

theorem ff_zero (y z : Word) : ff 0 y z = y &&& z := by
  rw [ff, show (0 : Word) = 0#32 from rfl, BitVec.zero_and, BitVec.zero_and, BitVec.zero_or, BitVec.zero_or]

/-- Settles O38, from the bits of `FF` and `GG`; `GG(0, 1, 1) = 1` and `GG(1, 0, 1) = 0`. -/
theorem majorityAndChoice : Obligations.MajorityAndChoice := by
  unfold Obligations.MajorityAndChoice
  refine ⟨getLsbD_ff, fun x y z => ⟨ff_comm_left x y z, ff_comm_right x y z⟩, fun x y z i => getLsbD_gg x y z,
    ⟨0, 1, 1, by decide⟩, fun x y z => ⟨rfl, rfl⟩, fun y z => ?_⟩
  exact ⟨gg_allOnes y z, gg_zero y z, ff_allOnes y z, ff_zero y z⟩

/-! ### The permutations (41_compression.md R104) -/

theorem p0_eq_rotateLeft (x : Word) : p0 x = x ^^^ x.rotateLeft 9 ^^^ x.rotateLeft 17 := by
  rw [p0, rotl32_eq_rotateLeft x (by decide), rotl32_eq_rotateLeft x (by decide)]

theorem p1_eq_rotateLeft (x : Word) : p1 x = x ^^^ x.rotateLeft 15 ^^^ x.rotateLeft 23 := by
  rw [p1, rotl32_eq_rotateLeft x (by decide), rotl32_eq_rotateLeft x (by decide)]

theorem p0_xor (x y : Word) : p0 (x ^^^ y) = p0 x ^^^ p0 y := by
  simp (disch := decide) only [p0, rotl32_xor]
  ac_rfl

theorem p1_xor (x y : Word) : p1 (x ^^^ y) = p1 x ^^^ p1 y := by
  simp (disch := decide) only [p1, rotl32_xor]
  ac_rfl

/-- Settles O39: rotation is linear, and all zeros and all ones are fixed by evaluation. -/
theorem permutationsAreLinear : Obligations.PermutationsAreLinear := by
  unfold Obligations.PermutationsAreLinear
  exact ⟨fun x => ⟨p0_eq_rotateLeft x, p1_eq_rotateLeft x⟩, fun x y => ⟨p0_xor x y, p1_xor x y⟩, rfl, rfl, rfl, rfl⟩

end Sys2Proof.Machine
end

section
/-! Block load and the schedule (41_compression.md R105 to R107, 20_memory.md R51). -/

namespace Sys2Proof.Machine

/-! ### LOADBLK (41_compression.md R105) -/

theorem memRead_of_readByte {s : State} {b : Nat → Byte} {n : Nat} (h : ∀ a, a < n → readByte .buf s a = .ok (b a)) :
    memRead .buf s 0 n = .ok ((List.range n).map b) := by
  rw [memRead_ok]
  refine ⟨by simp, fun k hk => ?_⟩
  simpa using h k (by simpa using hk)

theorem getElem_putBlock (blk : List Byte) (w : Vector Word 68) {i : Nat} (h : i < 68) :
    (putBlock blk w)[i] = if i < 16 then blockWord blk i else w[i] := by
  simp [putBlock]

theorem doLoadBlk_of_memRead {s : State} {b : List Byte} (h : memRead .buf s 0 64 = .ok b) :
    doLoadBlk s = .ok { s with w := putBlock b s.w, r := s.v } := by
  simp only [doLoadBlk, h]

theorem getD_map_range {α : Type} (f : Nat → α) (d : α) {n i : Nat} (h : i < n) :
    ((List.range n).map f).getD i d = f i := by
  simp [List.getD_eq_getElem?_getD, h]

/-- Settles O40, from the big-endian number of four bytes. -/
theorem loadBlkReadsBigEndianWords : Obligations.LoadBlkReadsBigEndianWords := by
  unfold Obligations.LoadBlkReadsBigEndianWords
  intro s b h
  refine ⟨_, doLoadBlk_of_memRead (memRead_of_readByte h), rfl, fun i hi => ?_, fun i hi h16 => ?_⟩
  · simp only [getElem_putBlock, if_pos hi, blockWord, be32_toNat]
    simp (disch := omega) only [getD_map_range]
  · simp only [getElem_putBlock, if_neg (Nat.not_lt.mpr h16)]

/-! ### EXPAND(j) (41_compression.md R106) -/

theorem at32_of_lt {n : Nat} (w : Vector Word n) {i : Nat} (h : i < n) : at32 w i = w[i] := by simp [at32, h]

theorem expandWord_at32 (w : Vector Word 68) {j : Nat} (h1 : 16 ≤ j) (h2 : j ≤ 67) : expandWord (at32 w) j =
    p1 (w[j - 16] ^^^ w[j - 9] ^^^ p0 (w[j - 15] ^^^ w[j - 1])) ^^^ p0 (w[j - 14] ^^^ w[j - 2]) := by
  simp (disch := omega) only [expandWord, at32_of_lt]

/-! ### `Expand` (41_compression.md R107) -/

theorem getD_expandSteps_succ (ws : List Word) {n i : Nat} (h : i < ws.length + n) :
    (expandSteps ws (n + 1)).getD i 0 = (expandSteps ws n).getD i 0 := by
  rw [expandSteps_succ, expandNext, List.getD_append _ _ _ _ (by rwa [expandSteps_length])]

/-- A word once written stays as the later steps append to it. -/
theorem getD_expandSteps_of_le (ws : List Word) {m n i : Nat} (hmn : m ≤ n) (h : i < ws.length + m) :
    (expandSteps ws n).getD i 0 = (expandSteps ws m).getD i 0 := by
  induction n, hmn using Nat.le_induction with
  | base => rfl
  | succ n hmn ih => rw [getD_expandSteps_succ ws (by omega), ih]

theorem getD_expand_of_lt {ws : List Word} (hlen : ws.length = 16) {i : Nat} (h : i < 16) :
    (expand ws).getD i 0 = ws.getD i 0 :=
  getD_expandSteps_of_le ws (Nat.zero_le 52) (by omega)

/-- The recurrence holds in the finished schedule, for its earlier words are final when it is applied. -/
theorem getD_expand {ws : List Word} (hlen : ws.length = 16) {j : Nat} (h1 : 16 ≤ j) (h2 : j ≤ 67) :
    (expand ws).getD j 0 = expandWord (fun i => (expand ws).getD i 0) j := by
  obtain ⟨n, rfl⟩ := Nat.exists_eq_add_of_le h1
  have hn : (expandSteps ws n).length = 16 + n := by rw [expandSteps_length, hlen]
  calc (expand ws).getD (16 + n) 0
    _ = (expandSteps ws (n + 1)).getD (16 + n) 0 := getD_expandSteps_of_le ws (by omega) (by omega)
    _ = expandWord (fun i => (expandSteps ws n).getD i 0) (16 + n) := by
      rw [expandSteps_succ, expandNext, List.getD_append_right _ _ _ _ hn.le, hn, Nat.sub_self, List.getD_cons_zero]
    _ = expandWord (fun i => (expand ws).getD i 0) (16 + n) :=
      expandWord_congr h1 fun i hi => (getD_expandSteps_of_le ws (by omega) (by omega)).symm

/-! ### `Expand` is linear (41_compression.md R107) -/

theorem expandWord_xor (f g : Nat → Word) (j : Nat) :
    expandWord (fun i => f i ^^^ g i) j = expandWord f j ^^^ expandWord g j := by
  simp only [expandWord, p0_xor, p1_xor]
  ac_rfl

/-- Two lists of words of the same length, word by word. -/
def xorList (ws vs : List Word) : List Word := List.zipWith (fun x y => x ^^^ y) ws vs

theorem getD_xorList {ws vs : List Word} (h : ws.length = vs.length) (i : Nat) :
    (xorList ws vs).getD i 0 = ws.getD i 0 ^^^ vs.getD i 0 := by
  by_cases hi : i < ws.length
  · simp [xorList, List.getD_eq_getElem?_getD, hi, h ▸ hi]
  · have hlen : (xorList ws vs).length ≤ i := by simp [xorList]; omega
    rw [List.getD_eq_default _ _ hlen, List.getD_eq_default _ _ (by omega), List.getD_eq_default _ _ (by omega)]
    rfl

theorem expandNext_xorList {ws vs : List Word} (h : ws.length = vs.length) :
    expandNext (xorList ws vs) = xorList (expandNext ws) (expandNext vs) := by
  have hlen : (xorList ws vs).length = vs.length := by simp [xorList, h]
  simp only [expandNext, getD_xorList h, expandWord_xor, hlen, h]
  simp only [xorList]
  rw [List.zipWith_append h]
  rfl

theorem expandSteps_xorList {ws vs : List Word} (h : ws.length = vs.length) (n : Nat) :
    expandSteps (xorList ws vs) n = xorList (expandSteps ws n) (expandSteps vs n) := by
  induction n with
  | zero => rfl
  | succ n ih =>
    have hlen : (expandSteps ws n).length = (expandSteps vs n).length := by simp only [expandSteps_length, h]
    rw [expandSteps_succ, ih, expandNext_xorList hlen, expandSteps_succ, expandSteps_succ]

/-- Settles O41: the recurrence for the words in range, and a step of `Expand` at a time. -/
theorem expandFollowsTheRecurrence : Obligations.ExpandFollowsTheRecurrence := by
  unfold Obligations.ExpandFollowsTheRecurrence
  refine ⟨fun s j h1 h2 => ⟨_, rfl, rfl, ?_, fun i hi hne => ?_⟩, fun ws vs hws hvs => ⟨?_, ?_, ?_, ?_⟩⟩
  · rw [← expandWord_at32 s.w h1 h2]
    simp
  · simp [Ne.symm hne]
  · rw [expand_eq, expandSteps_length, hws]
  · exact fun i hi => getD_expand_of_lt hws hi
  · exact fun j h1 h2 => getD_expand hws h1 h2
  · exact expandSteps_xorList (hws.trans hvs.symm) 52

end Sys2Proof.Machine
end

section
/-! The round, the feed-forward and `Compress` (41_compression.md R110 to R119). -/

namespace Sys2Proof.Machine

/-! ### The round (41_compression.md R110 to R114) -/

theorem ss1_eq_rotateLeft (rc : Word) (r : Words8) :
    ss1 rc r = (r[0].rotateLeft 12 + r[4] + r[5] + rc).rotateLeft 7 := by
  rw [ss1, rotl32_eq_rotateLeft _ (by decide), rotl32_eq_rotateLeft _ (by decide)]

theorem ss2_eq_rotateLeft (rc : Word) (r : Words8) : ss2 rc r = ss1 rc r ^^^ r[0].rotateLeft 12 := by
  rw [ss2, rotl32_eq_rotateLeft _ (by decide)]

/-- Settles O42: the model's temporaries, with their rotations those of the library. -/
theorem roundFollowsTheFormulas : Obligations.RoundFollowsTheFormulas := by
  unfold Obligations.RoundFollowsTheFormulas
  intro c s j h
  refine ⟨ss1 c.rc[j] s.r, ss2 c.rc[j] s.r, tt1 c.rc[j] s.w[j] s.r, tt2 c.rc[j] s.w[j + 4] s.r, _, _, _, _, _, _, _,
    rfl, rfl, rfl, rfl, rfl, rfl, rfl, ss1_eq_rotateLeft _ _, ss2_eq_rotateLeft _ _, rfl, rfl, ?_⟩
  rw [doRound, roundAt, at32_of_lt c.rc (by omega), at32_of_lt s.w (by omega), at32_of_lt s.w (by omega), roundFn,
    p0_eq_rotateLeft, rotl32_eq_rotateLeft _ (by decide)]

/-! ### FEED and `Compress` (41_compression.md R116, R118) -/

theorem getElem_xor8 (v r : Words8) {i : Nat} (h : i < 8) : (xor8 v r)[i] = v[i] ^^^ r[i] := by simp [xor8]

theorem compress_congr_rc {c c' : Config} (h : c.rc = c'.rc) (v : Words8) (b : List Byte) :
    compress c v b = compress c' v b := by
  simp only [compress, rounds, roundsUpTo, roundAt, h]

/-- Settles O44: `RC` is the one field of the configuration that a round reads. -/
theorem feedForwardIsExclusiveOr : Obligations.FeedForwardIsExclusiveOr := by
  unfold Obligations.FeedForwardIsExclusiveOr
  exact ⟨fun s => ⟨_, rfl, rfl, fun i h => getElem_xor8 s.v s.r h⟩, fun c v b i h => getElem_xor8 v _ h,
    fun c c' v b h => compress_congr_rc h v b⟩

/-! ### The zero block (41_compression.md R119) -/

theorem getD_replicate_zero (n i : Nat) : (List.replicate n (0 : Word)).getD i 0 = 0 := by
  rw [List.getD_eq_getElem?_getD, List.getElem?_getD_replicate_default_eq]

theorem expandWord_zero (j : Nat) : expandWord (fun _ => 0) j = 0 := by
  simp only [expandWord]
  rfl

theorem expandSteps_zero (m n : Nat) : expandSteps (List.replicate m 0) n = List.replicate (m + n) 0 := by
  induction n with
  | zero => rfl
  | succ n ih =>
    rw [expandSteps_succ, ih, expandNext]
    simp only [getD_replicate_zero, expandWord_zero, ← List.replicate_succ', Nat.add_assoc]

theorem roundFn_zero : roundFn 0 0 0 (Vector.replicate 8 0) = Vector.replicate 8 0 := rfl

theorem roundsUpTo_zero {c : Config} (h : c.rc = Vector.replicate 64 0) {n : Nat} (hn : n ≤ 64) :
    roundsUpTo c (fun _ => 0) n (Vector.replicate 8 0) = Vector.replicate 8 0 := by
  induction n with
  | zero => rfl
  | succ n ih =>
    have hrc : at32 c.rc n = 0 := by rw [at32_of_lt c.rc hn]; simp [h]
    rw [roundsUpTo_succ, ih (by omega), roundAt, hrc, roundFn_zero]

theorem xor8_self (v : Words8) : xor8 v v = Vector.replicate 8 0 :=
  Vector.ext fun i hi => by rw [getElem_xor8 v v hi, BitVec.xor_self, Vector.getElem_replicate]; rfl

/-- Settles O47: zero words expand to zero words and every round keeps zero registers. -/
theorem zeroBlockIsAFixedPoint : Obligations.ZeroBlockIsAFixedPoint := by
  unfold Obligations.ZeroBlockIsAFixedPoint
  intro c h
  have hwords : blockWords (List.replicate 64 0x00) = List.replicate 16 0 := rfl
  simp only [compress, hwords, expand_eq, expandSteps_zero, getD_replicate_zero, rounds]
  rw [roundsUpTo_zero h (le_refl 64), xor8_self]

end Sys2Proof.Machine
end

section
/-! The procedure `COMPRESS` and the sequencer (41_compression.md R105, R106, R120, R121): what the procedure leaves in
`V`, `W` and `A..H`, and the 118 micro-steps that do its work. -/

namespace Sys2Proof.Machine

/-! ### The procedure `COMPRESS` (41_compression.md R121) -/

theorem at32_eq_getD_toList {n : Nat} (w : Vector Word n) : at32 w = fun i => w.toList.getD i 0 := by
  funext i
  simp [at32, List.getD_eq_getElem?_getD]

theorem toList_eq_of_at32 {n : Nat} {w : Vector Word n} {ws : List Word} (hlen : ws.length = n)
    (h : ∀ i, i < n → at32 w i = ws.getD i 0) : w.toList = ws :=
  List.ext_getElem (by simp [hlen]) fun i hw hws => by
    simpa [at32_of_lt w (hlen ▸ hws), hws] using h i (hlen ▸ hws)

theorem compress_eq_of_toList {w : Vector Word 68} {b : List Byte} (h : w.toList = expand (blockWords b)) (c : Config)
    (v : Words8) : compress c v b = xor8 v (rounds c (at32 w) v) := by
  rw [compress, at32_eq_getD_toList, h]

/-- Everything the procedure does when `BUF` reads as a block. -/
theorem doCompress_of_memRead (c : Config) {s : State} {b : List Byte} (h : memRead .buf s 0 64 = .ok b) :
    ∃ w : Vector Word 68, w.toList = expand (blockWords b) ∧ doCompress c s =
      .ok { s with v := compress c s.v b, w := w, r := rounds c (at32 w) s.v, phase := .idle, j := 0 } := by
  have hread : memRead .buf { s with phase := .loadblk } 0 64 = .ok b := (memRead_congr rfl rfl _ _ _).trans h
  obtain ⟨w, hloop, hw⟩ := expandLoop_eq { s with phase := .expand, w := putBlock b s.w, r := s.v }
  have hsched : w.toList = expand (blockWords b) := toList_eq_of_at32 (expand_length b) <|
    hw (blockWords b) (blockWords_length b) fun i hi => at32_putBlock b s.w hi
  refine ⟨w, hsched, ?_⟩
  simp only [doCompress, doLoadBlk_of_memRead hread, hloop, roundLoop_eq, doFeed, compress_eq_of_toList hsched]

/-- Settles O45: the loops on the state leave the schedule and the registers of the pure functions. -/
theorem compressProcedureComputesCompress : Obligations.CompressProcedureComputesCompress := by
  unfold Obligations.CompressProcedureComputesCompress
  intro c s b h
  obtain ⟨w, hsched, hrun⟩ := doCompress_of_memRead c h
  exact ⟨_, hrun, rfl, hsched, rfl⟩

/-! ### One micro-step in each phase (10_state.md R31) -/

theorem microStep_idle (c : Config) {s : State} (h : s.phase = .idle) : microStep c s = .ok s := by
  simp only [microStep, h]

theorem microStep_loadblk (c : Config) {s t : State} (h : s.phase = .loadblk) (ht : doLoadBlk s = .ok t) :
    microStep c s = .ok { t with phase := .expand, j := 16 } := by
  simp only [microStep, h, ht]

theorem microStep_expand (c : Config) (s : State) {n : Nat} (hlo : 16 ≤ n) (hhi : n < 67) :
    microStep c { s with phase := .expand, j := BitVec.ofNat 7 n } =
      .ok { doExpand n (setJ n s) with phase := .expand, j := BitVec.ofNat 7 (n + 1) } := by
  have hn : (BitVec.ofNat 7 n).toNat = n := by rw [BitVec.toNat_ofNat]; omega
  simp only [microStep, hn]
  rw [if_pos (by omega), if_neg (by omega), BitVec.ofNat_add]
  rfl

theorem microStep_expand_last (c : Config) (s : State) :
    microStep c { s with phase := .expand, j := 67 } = .ok { doExpand 67 (setJ 67 s) with phase := .round, j := 0 } :=
  rfl

theorem microStep_round (c : Config) (s : State) {n : Nat} (h : n < 63) :
    microStep c { s with phase := .round, j := BitVec.ofNat 7 n } =
      .ok { doRound c n (setJ n s) with phase := .round, j := BitVec.ofNat 7 (n + 1) } := by
  have hn : (BitVec.ofNat 7 n).toNat = n := by rw [BitVec.toNat_ofNat]; omega
  simp only [microStep, hn]
  rw [if_pos (by omega), if_neg (by omega), BitVec.ofNat_add]
  rfl

theorem microStep_round_last (c : Config) (s : State) :
    microStep c { s with phase := .round, j := 63 } = .ok { doRound c 63 (setJ 63 s) with phase := .feed, j := 63 } :=
  rfl

theorem microStep_feed (c : Config) {s : State} (h : s.phase = .feed) :
    microStep c s = .ok { doFeed s with phase := .idle, j := 0 } := by
  simp only [microStep, h]

/-! ### The micro-steps of a loop -/

theorem microSteps_succ {c : Config} {s t : State} (h : microStep c s = .ok t) (n : Nat) :
    microSteps c (n + 1) s = microSteps c n t := by
  simp only [microSteps, h]

theorem microSteps_one {c : Config} {s t : State} (h : microStep c s = .ok t) : microSteps c 1 s = .ok t :=
  microSteps_succ h 0

theorem microSteps_add {c : Config} {m : Nat} {s t : State} (h : microSteps c m s = .ok t) (n : Nat) :
    microSteps c (m + n) s = microSteps c n t := by
  induction m generalizing s with
  | zero => cases h; rw [Nat.zero_add]
  | succ m ih =>
    rw [Nat.add_right_comm]
    simp only [microSteps] at h ⊢
    split at h
    · cases h
    · exact ih h

/-- The first `n` expansions of the loop. -/
def expandLoopUpTo (n : Nat) (s : State) : State := (List.range' 16 n).foldl (fun s j => doExpand j (setJ j s)) s

/-- The first `n` rounds of the loop. -/
def roundLoopUpTo (c : Config) (n : Nat) (s : State) : State :=
  (List.range n).foldl (fun s j => doRound c j (setJ j s)) s

theorem expandLoopUpTo_succ (n : Nat) (s : State) :
    expandLoopUpTo (n + 1) s = doExpand (16 + n) (setJ (16 + n) (expandLoopUpTo n s)) := by
  simp [expandLoopUpTo, List.range'_concat]

theorem roundLoopUpTo_succ (c : Config) (n : Nat) (s : State) :
    roundLoopUpTo c (n + 1) s = doRound c n (setJ n (roundLoopUpTo c n s)) := by
  simp [roundLoopUpTo, List.range_succ]

theorem microSteps_expandLoopUpTo (c : Config) (s : State) {n : Nat} (h : n ≤ 51) :
    microSteps c n { s with phase := .expand, j := 16 } =
      .ok { expandLoopUpTo n s with phase := .expand, j := BitVec.ofNat 7 (16 + n) } := by
  induction n with
  | zero => rfl
  | succ n ih =>
    rw [microSteps_add (ih (by omega)), expandLoopUpTo_succ]
    exact microSteps_one (microStep_expand c _ (by omega) (by omega))

theorem microSteps_expandLoop (c : Config) (s : State) :
    microSteps c 52 { s with phase := .expand, j := 16 } = .ok { expandLoop s with phase := .round, j := 0 } := by
  rw [microSteps_add (microSteps_expandLoopUpTo c s (le_refl 51)) 1, show expandLoop s = expandLoopUpTo 52 s from rfl,
    expandLoopUpTo_succ]
  exact microSteps_one (microStep_expand_last c _)

theorem microSteps_roundLoopUpTo (c : Config) (s : State) {n : Nat} (h : n ≤ 63) :
    microSteps c n { s with phase := .round, j := 0 } =
      .ok { roundLoopUpTo c n s with phase := .round, j := BitVec.ofNat 7 n } := by
  induction n with
  | zero => rfl
  | succ n ih =>
    rw [microSteps_add (ih (by omega)), roundLoopUpTo_succ]
    exact microSteps_one (microStep_round c _ (by omega))

theorem microSteps_roundLoop (c : Config) (s : State) :
    microSteps c 64 { s with phase := .round, j := 0 } = .ok { roundLoop c s with phase := .feed, j := 63 } := by
  rw [microSteps_add (microSteps_roundLoopUpTo c s (le_refl 63)) 1,
    show roundLoop c s = roundLoopUpTo c 64 s from rfl, roundLoopUpTo_succ]
  exact microSteps_one (microStep_round_last c _)

/-! ### The whole sequence (41_compression.md R120) -/

/-- The two loops and FEED, one after the other. -/
theorem microSteps_from_expand (c : Config) (s : State) :
    microSteps c 117 { s with phase := .expand, j := 16 } =
      .ok { doFeed { roundLoop c { expandLoop s with phase := .round } with phase := .feed } with
        phase := .idle, j := 0 } :=
  calc microSteps c 117 { s with phase := .expand, j := 16 }
    _ = microSteps c 65 { expandLoop s with phase := .round, j := 0 } := microSteps_add (microSteps_expandLoop c s) 65
    _ = microSteps c 1 { roundLoop c { expandLoop s with phase := .round } with phase := .feed, j := 63 } :=
      microSteps_add (microSteps_roundLoop c { expandLoop s with phase := .round }) 1
    _ = _ := microSteps_one (microStep_feed c rfl)

theorem microSteps_eq_doCompress (c : Config) {s : State} {b : List Byte} (h : memRead .buf s 0 64 = .ok b) :
    microSteps c 118 (startCompress s) = doCompress c s := by
  have hstart : memRead .buf (startCompress s) 0 64 = .ok b := (memRead_congr rfl rfl _ _ _).trans h
  have hproc : memRead .buf { s with phase := .loadblk } 0 64 = .ok b := (memRead_congr rfl rfl _ _ _).trans h
  rw [microSteps_succ (microStep_loadblk c rfl (doLoadBlk_of_memRead hstart))]
  simp only [doCompress, doLoadBlk_of_memRead hproc]
  exact microSteps_from_expand c { s with w := putBlock b s.w, r := s.v, phase := .expand }

/-- How many micro-steps the sequencer has before it: each phase's own, then those of the phases after it. -/
def State.remaining (s : State) : Nat :=
  match s.phase with
  | .idle => 0
  | .loadblk => 1 + 52 + 64 + 1
  | .expand => (68 - s.j.toNat) + 64 + 1
  | .round => (64 - s.j.toNat) + 1
  | .feed => 1

/-- Every micro-step of a busy sequencer takes one off. -/
theorem remaining_microStep {c : Config} {s t : State} (h : microStep c s = .ok t) :
    t.remaining = s.remaining - 1 := by
  unfold microStep at h
  cases hphase : s.phase with simp only [hphase] at h
  | idle => cases h; simp [State.remaining, hphase]
  | feed => cases h; simp [State.remaining, hphase]
  | loadblk =>
    split at h
    · cases h
    · cases h; simp [State.remaining, hphase]
  | expand =>
    split at h
    · next hj =>
      split at h
      · next hlast => cases h; simp [State.remaining, hphase, hlast]
      · cases h; simp [State.remaining, hphase]; omega
    · cases h
  | round =>
    split at h
    · next hj =>
      split at h
      · next hlast => cases h; simp [State.remaining, hphase, hlast]
      · cases h; simp [State.remaining, hphase]; omega
    · cases h

theorem remaining_microSteps {c : Config} {k : Nat} {s t : State} (h : microSteps c k s = .ok t) :
    t.remaining = s.remaining - k := by
  induction k generalizing s with
  | zero => cases h; rfl
  | succ k ih =>
    simp only [microSteps] at h
    split at h
    · cases h
    · next u hu => rw [ih h, remaining_microStep hu, Nat.sub_sub, Nat.add_comm]

theorem cmdReady_eq_false_of_remaining {s : State} (h : s.remaining ≠ 0) : cmdReady s = false :=
  decide_eq_false fun hidle => h (by simp only [State.remaining, hidle])

/-- Settles O46: the loops of the procedure micro-step by micro-step, and the count of those that remain. -/
theorem microStepsDoTheProcedure : Obligations.MicroStepsDoTheProcedure := by
  unfold Obligations.MicroStepsDoTheProcedure
  intro c s b h
  have hrun := microSteps_eq_doCompress c h
  refine ⟨hrun, fun k t hk ht => cmdReady_eq_false_of_remaining ?_, fun t ht => ?_⟩
  · have hrem : t.remaining = 118 - k := remaining_microSteps ht
    omega
  · have hidle : t.phase = .idle := by rw [doCompress_frame (hrun.symm.trans ht)]
    exact ⟨decide_eq_true hidle, microStep_idle c hidle⟩

end Sys2Proof.Machine
end

section
/-! `CompressAll`, `Serialize` and the digest space (42_output_and_hash.md R130, R131, R135). -/

namespace Sys2Proof.Machine

/-- Settles O52: the first block is compressed before the rest. -/
theorem compressAllFoldsTheBlocks : Obligations.CompressAllFoldsTheBlocks := by
  unfold Obligations.CompressAllFoldsTheBlocks
  refine fun c v => ⟨rfl, fun b rest hb _ => ?_⟩
  rw [compressAll_append c v rest (by rw [hb]), compressAll_block c v hb]

/-! ### The bytes of the chaining state (42_output_and_hash.md R130) -/

/-- Byte `4i + k` of the digest space is byte `k` of word `i` (20_memory.md R53). -/
theorem dig_word (v : Words8) {i k : Nat} (hi : i < 8) (hk : k < 4) :
    dig v ⟨4 * i + k, by omega⟩ = byteBE v[i].toNat 4 k := by
  have hdiv : (4 * i + k) / 4 = i := by omega
  have hmod : (4 * i + k) % 4 = k := by omega
  simp only [dig, hdiv, hmod]

theorem byteBE_word (x : Word) (k : Nat) : byteBE x.toNat 4 k = (x >>> (8 * (3 - k))).setWidth 8 := by
  apply BitVec.eq_of_toNat_eq
  rw [byteBE_toNat, BitVec.toNat_setWidth, BitVec.toNat_ushiftRight, Nat.shiftRight_eq_div_pow]

/-- The four bytes of a word, most significant first, give it back (20_memory.md R51). -/
theorem be32_byteBE (x : Word) :
    be32 (byteBE x.toNat 4 0) (byteBE x.toNat 4 1) (byteBE x.toNat 4 2) (byteBE x.toNat 4 3) = x := by
  apply BitVec.eq_of_toNat_eq
  have hx := x.isLt
  simp only [be32_toNat, byteBE_toNat]
  omega

/-- The digest space determines the chaining state: each word is the number of its four bytes. -/
theorem dig_injective : Function.Injective dig := by
  intro u v h
  refine Vector.ext fun i hi => ?_
  have hbyte : ∀ k, k < 4 → byteBE u[i].toNat 4 k = byteBE v[i].toNat 4 k := fun k hk => by
    rw [← dig_word u hi hk, ← dig_word v hi hk, h]
  rw [← be32_byteBE u[i], ← be32_byteBE v[i], hbyte 0 (by decide), hbyte 1 (by decide), hbyte 2 (by decide),
    hbyte 3 (by decide)]

/-- `Serialize` reads the digest space address by address (42_output_and_hash.md R131). -/
theorem serialize_getElem? (v : Words8) (a : Fin 32) : (serialize v)[a.val]? = some (dig v a) := by
  simp [serialize_eq_map_dig]

theorem serialize_injective : Function.Injective serialize := by
  intro u v h
  refine dig_injective (funext fun a => Option.some_injective _ ?_)
  rw [← serialize_getElem?, ← serialize_getElem?, h]

/-- Settles O53: the bytes of `Serialize` are those of the digest space, and four of them give a word back. -/
theorem serializeIsBigEndian : Obligations.SerializeIsBigEndian := by
  unfold Obligations.SerializeIsBigEndian
  refine fun v => ⟨serialize_length v, fun i k hi hk => ?_, serialize_getElem? v, fun u h => serialize_injective h⟩
  rw [← byteBE_word, ← dig_word v hi hk]
  exact serialize_getElem? v ⟨4 * i + k, by omega⟩

/-! ### The digest space while it is readable (42_output_and_hash.md R131) -/

theorem memRead_dig_one (s : State) {a : Nat} (ha : a < 32) : memRead .dig s a 1 = .ok [dig s.v ⟨a, ha⟩] := by
  simp only [memRead, readByte, dif_pos ha]

theorem memRead_dig_eq_iff {s t : State} :
    (∀ a, a ≤ 31 → memRead .dig s a 1 = memRead .dig t a 1) ↔ s.v = t.v := by
  constructor
  · refine fun h => dig_injective (funext fun a => ?_)
    have ha := h a.val (by omega)
    rw [memRead_dig_one s a.isLt, memRead_dig_one t a.isLt] at ha
    simpa using ha
  · intro h a ha
    rw [memRead_dig_one s (by omega), memRead_dig_one t (by omega), h]

/-- Without a digest RDD delivers nothing (43_commands.md R145). -/
theorem exec_rdd_dout {s t : State} {k : Nat} (hd : s.dv = false) (h : exec (.rdd k) s = .next t) :
    t.dout = s.dout := by
  cases hf : faulted s with
  | true => rw [← Host.Outcome.next.inj ((if_pos hf).symm.trans h)]
  | false =>
    rw [exec_rdd_of_absorbing k hf hd] at h
    rw [← Host.Outcome.next.inj h, raise_dout]

/-- While the digest is readable no word but INIT's touches it (42_output_and_hash.md R131). -/
theorem execWord_of_dv {w : CmdWord} {s t : State} (hd : s.dv = true) (hw : w ≠ 0x0100)
    (h : execWord w s = .next t) : t.v = s.v ∧ t.dv = true := by
  cases execInput_cases (m := .word w) h with
  | kept _ _ _ e => rw [e]; exact ⟨rfl, hd⟩
  | init _ hi _ => exact absurd (encode_of_decode hi).symm hw
  | rds _ _ e => rw [e]; exact ⟨rfl, hd⟩
  | rdd _ _ _ _ _ e => rw [e]; exact ⟨rfl, hd⟩
  | absorb _ _ _ _ hd' _ _ => exact absurd (hd.symm.trans hd') nofun
  | final _ _ _ hd' _ => exact absurd (hd.symm.trans hd') nofun

/-- Settles O54, from the bytes of `Serialize` and the effect of each command. -/
theorem readableDigestIsStable : Obligations.ReadableDigestIsStable := by
  unfold Obligations.ReadableDigestIsStable
  refine ⟨fun s a ha => ?_, fun s t => memRead_dig_eq_iff, fun s a hd t => exec_rdd_dout hd,
    fun w s t => execWord_of_dv⟩
  exact ⟨_, memRead_dig_one s (by omega), serialize_getElem? s.v ⟨a, by omega⟩⟩

end Sys2Proof.Machine
end

section
/-! Whole messages by command words (42_output_and_hash.md R136, 40_padding.md R95). -/

namespace Sys2Proof.Machine

/-- The word of a command runs the command. -/
theorem execWord_encode {i : Instr} (h : i.wellFormed = true) (s : State) : execWord (encode i) s = exec i s := by
  rw [execWord, decode_encode h]

theorem runWords_cons {w : CmdWord} {s t : State} (h : execWord w s = .next t) (ws : List CmdWord) :
    runWords (w :: ws) s = runWords ws t := by
  simp only [runWords, h]

/-! ### Words that write `DOUT` alone -/

/-- The word completes, whatever `DOUT` holds, and writes no other element. -/
def WritesDoutAlone (s : State) (w : CmdWord) : Prop :=
  ∀ b, ∃ b', execWord w { s with dout := b } = .next { s with dout := b' }

theorem writesDoutAlone_nop (s : State) : WritesDoutAlone s 0x0000 := fun b => ⟨b, rfl⟩

theorem writesDoutAlone_rds (s : State) : WritesDoutAlone s 0x0500 := fun _ => ⟨status s, rfl⟩

/-- RDD delivers a byte of a readable digest (43_commands.md R145). -/
theorem execWord_rdd {s : State} (he : s.err = Err.clear) (hd : s.dv = true) {a : Nat} (ha : a ≤ 31) :
    execWord (0x0400 + BitVec.ofNat 16 a) s = .next { s with dout := dig s.v ⟨a, by omega⟩ } := by
  have hwf : (Instr.rdd a).wellFormed = true := decide_eq_true ha
  calc execWord (encode (.rdd a)) s
    _ = exec (.rdd a) s := execWord_encode hwf s
    _ = toOutcome (readDigest a s) := (unlessFaulted_of_not_faulted (faulted_eq_false.mpr he)).trans (if_pos hd)
    _ = _ := by rw [readDigest_eq (by omega), toOutcome]

theorem writesDoutAlone_rdd {s : State} (he : s.err = Err.clear) (hd : s.dv = true) {a : Nat} (ha : a ≤ 31) :
    WritesDoutAlone s (0x0400 + BitVec.ofNat 16 a) := fun b =>
  ⟨_, execWord_rdd (s := { s with dout := b }) he hd ha⟩

/-- Such words at the head of a run leave the state to the rest of it. -/
theorem runWords_append_of_writesDoutAlone {s : State} {us : List CmdWord} (h : ∀ w ∈ us, WritesDoutAlone s w)
    (vs : List CmdWord) : ∃ b, runWords (us ++ vs) s = runWords vs { s with dout := b } := by
  have hrun : ∀ b, ∃ b', runWords (us ++ vs) { s with dout := b } = runWords vs { s with dout := b' } := by
    induction us with
    | nil => exact fun b => ⟨b, rfl⟩
    | cons w us ih =>
      intro b
      rw [List.forall_mem_cons] at h
      obtain ⟨hw, hus⟩ := h
      obtain ⟨b1, hb1⟩ := hw b
      obtain ⟨b2, hb2⟩ := ih hus b1
      exact ⟨b2, (runWords_cons hb1 _).trans hb2⟩
  exact hrun s.dout

/-- A run of such words alone. -/
theorem runWords_of_writesDoutAlone {s : State} {ws : List CmdWord} (h : ∀ w ∈ ws, WritesDoutAlone s w) :
    ∃ b, runWords ws s = .next { s with dout := b } := by
  obtain ⟨b, hb⟩ := runWords_append_of_writesDoutAlone h []
  rw [List.append_nil] at hb
  exact ⟨b, hb⟩

/-! ### Runs with NOP and RDS words left out -/

/-- A word that is neither NOP nor RDS. -/
def neitherNopNorRds (w : CmdWord) : Bool := decide (w ≠ 0x0000 ∧ w ≠ 0x0500)

theorem writesDoutAlone_of_nop_or_rds {w : CmdWord} (h : ¬ neitherNopNorRds w = true) (s : State) :
    WritesDoutAlone s w := by
  have hw : w = 0x0000 ∨ w = 0x0500 := by
    rw [neitherNopNorRds, decide_eq_true_eq, not_and_or, not_not, not_not] at h
    exact h
  rcases hw with rfl | rfl
  · exact writesDoutAlone_nop s
  · exact writesDoutAlone_rds s

/-- A run without other words. -/
theorem runWords_of_filter_nil {ws : List CmdWord} (h : ws.filter neitherNopNorRds = []) (s : State) :
    ∃ b, runWords ws s = .next { s with dout := b } :=
  runWords_of_writesDoutAlone fun w hw => writesDoutAlone_of_nop_or_rds (List.filter_eq_nil_iff.mp h w hw) s

/-- A run up to and with its first other word. -/
theorem runWords_of_filter_cons {ws rest : List CmdWord} {w : CmdWord}
    (h : ws.filter neitherNopNorRds = w :: rest) (s : State) :
    ∃ vs b, vs.filter neitherNopNorRds = rest ∧
      ∀ t, execWord w { s with dout := b } = .next t → runWords ws s = runWords vs t := by
  obtain ⟨us, vs, rfl, hus, -, hvs⟩ := List.filter_eq_cons_iff.mp h
  obtain ⟨b, hb⟩ := runWords_append_of_writesDoutAlone
    (fun x hx => writesDoutAlone_of_nop_or_rds (hus x hx) s) (w :: vs)
  exact ⟨vs, b, hvs, fun t ht => hb.trans (runWords_cons ht vs)⟩

/-! ### A whole message (42_output_and_hash.md R136) -/

theorem Absorbed.setDout {c : Config} {m : List Byte} {s : State} (h : Absorbed c m s) (b : Byte) :
    Absorbed c m { s with dout := b } :=
  Pending.absorbed ⟨h.len, h.bufLen, h.v, h.pending.buf⟩ h.dv h.err

theorem Finalised.setDout {c : Config} {m : List Byte} {s : State} (h : Finalised c m s) (b : Byte) :
    Finalised c m { s with dout := b } := { h with }

/-- The rest of a message and FINAL, from a state that has absorbed its beginning. -/
theorem Absorbed.runWords_finalised {m : List Byte} {ws : List CmdWord} {m₀ : List Byte} {s : State}
    (h : Absorbed Config.hw m₀ s) (hlen : (m₀ ++ m).length < 2 ^ 61)
    (hws : ws.filter neitherNopNorRds = m.map (fun d => encode (.absorb d)) ++ [encode .final]) :
    ∃ t, runWords ws s = .next t ∧ Finalised Config.hw (m₀ ++ m) t := by
  induction m generalizing ws m₀ s with
  | nil =>
    obtain ⟨vs, b, hvs, hrun⟩ := runWords_of_filter_cons hws s
    obtain ⟨t, ht, hfin, -⟩ := finalGivesTheHash m₀ _ (h.setDout b)
    obtain ⟨b', hb'⟩ := runWords_of_filter_nil hvs t
    rw [List.append_nil]
    exact ⟨_, (hrun t ((execWord_encode rfl _).trans ht)).trans hb', hfin.setDout b'⟩
  | cons d m ih =>
    obtain ⟨-, -, hextend⟩ := absorbExtendsTheMessage
    obtain ⟨vs, b, hvs, hrun⟩ := runWords_of_filter_cons hws s
    have hnext : m₀.length + 1 < 2 ^ 61 := by rw [List.length_append, List.length_cons] at hlen; omega
    obtain ⟨t, ht, habs, -⟩ := hextend m₀ d _ (h.setDout b) hnext
    rw [hrun t ((execWord_encode rfl _).trans ht), List.append_cons]
    exact ih habs (List.append_cons m₀ d m ▸ hlen) hvs

/-- A whole message, from any state. -/
theorem runWords_finalised {m : List Byte} {ws : List CmdWord} (hm : m.length < 2 ^ 61)
    (hws : ws.filter neitherNopNorRds =
      encode .init :: (m.map (fun d => encode (.absorb d)) ++ [encode .final])) (s : State) :
    ∃ t, runWords ws s = .next t ∧ Finalised Config.hw m t := by
  obtain ⟨vs, b, hvs, hrun⟩ := runWords_of_filter_cons hws s
  rw [hrun _ (execWord_encode rfl _)]
  exact ((cleanEntry_beginMessage _ _).pending.absorbed rfl rfl).runWords_finalised hm hvs

/-- Settles O35: INIT begins the empty message, each ABSORB extends it, FINAL makes its digest, and the words among and
behind them write `DOUT` alone. -/
theorem commandLayerComputesHash : Obligations.CommandLayerComputesHash := by
  unfold Obligations.CommandLayerComputesHash
  intro m ws s hm hws
  obtain ⟨t, ht, hfin⟩ := runWords_finalised hm hws s
  obtain ⟨p, hp, hv⟩ := hfin.v
  refine ⟨t, p, _, ht, hfin.err, hfin.dv, hp, hv, hfin.dig, fun rs hrs => ?_⟩
  have hquiet : ∀ w ∈ rs, WritesDoutAlone t w := by
    intro w hw
    rcases hrs w hw with rfl | rfl | ⟨a, ha, rfl⟩
    · exact writesDoutAlone_nop t
    · exact writesDoutAlone_rds t
    · exact writesDoutAlone_rdd hfin.err hfin.dv ha
  obtain ⟨b, hb⟩ := runWords_of_writesDoutAlone hquiet
  have hfin' := hfin.setDout b
  refine ⟨_, hb, hfin'.err, hfin'.dv, rfl, fun a ha => ⟨_, execWord_rdd hfin'.err hfin'.dv ha, ?_⟩⟩
  rw [← serialize_eq_map_dig]
  exact serialize_getElem? t.v ⟨a, by omega⟩

/-! ### An overlong message (40_padding.md R95) -/

theorem exec_absorb_of_limit {s : State} (d : Byte) (hf : faulted s = false) (hd : s.dv = false)
    (hl : s.len = lenMax) : exec (.absorb d) s = .next (raise .invalidInput s) :=
  (unlessFaulted_of_not_faulted hf).trans ((if_neg (ne_true_of_eq_false hd)).trans (if_pos hl))

/-- A faulted core answers RDS and INIT alone (60_exceptions.md R164). -/
theorem execWord_of_faulted {w : CmdWord} {s t : State} (hf : faulted s = true) (hw : w ≠ 0x0100)
    (h : execWord w s = .next t) : t = s ∨ t = { s with dout := status s } := by
  cases execWord_cases h with
  | nop _ e => exact .inl e
  | init hi _ => exact absurd (encode_of_decode hi).symm hw
  | rds _ e => exact .inr e
  | ignored _ _ e => exact .inl e
  | _ => exact absurd ‹faulted s = false› (ne_false_of_eq_true hf)

/-- Until an INIT a faulted core stays as it is, and shows its status if anything. -/
theorem runWords_of_faulted {ws : List CmdWord} {s t : State} (hf : faulted s = true) (hws : ∀ w ∈ ws, w ≠ 0x0100)
    (h : runWords ws s = .next t) : t = s ∨ t = { s with dout := status s } := by
  induction ws generalizing s with
  | nil => exact .inl (Host.Outcome.next.inj h).symm
  | cons w ws ih =>
    rw [List.forall_mem_cons] at hws
    obtain ⟨hw, hws⟩ := hws
    simp only [runWords] at h
    split at h
    · next u hu =>
      rcases execWord_of_faulted hf hw hu with rfl | rfl
      · exact ih hf hws h
      · exact .inr (or_self_iff.mp (ih (s := { s with dout := status s }) hf hws h))
    · cases h
    · cases h

theorem Absorbed.len_eq_lenMax {c : Config} {m : List Byte} {s : State} (h : Absorbed c m s)
    (hm : m.length = 2 ^ 61 - 1) : s.len = lenMax :=
  BitVec.eq_of_toNat_eq (h.len.trans (by rw [hm]; rfl))

/-- Settles O36: `LEN` is at its limit, `Pad` fails, and the faulted core shows nothing but its status. -/
theorem overlongMessageHasNoDigest : Obligations.OverlongMessageHasNoDigest := by
  unfold Obligations.OverlongMessageHasNoDigest
  intro m d s h hm
  refine ⟨exec_absorb_of_limit d (faulted_eq_false.mpr h.err) h.dv (h.len_eq_lenMax hm),
    hashMessage_error_iff.mpr (pad_error_iff.mpr ⟨?_, rfl⟩), fun ws t hws ht => ?_⟩
  · rw [List.length_append, List.length_singleton]; omega
  · rw [h.err] at ht
    have hshown : statusByte s.dv { Err.clear with len := true } = 0x02 := by rw [h.dv]; decide
    rcases runWords_of_faulted rfl hws ht with rfl | rfl
    · exact ⟨h.dv, rfl, .inl rfl⟩
    · exact ⟨h.dv, rfl, .inr hshown⟩

end Sys2Proof.Machine
end

section
/-! The step and the host's later moves (43_commands.md R142, 70_reset_and_hazards.md R189, R190): no command reads the
list of moves, so a command does the same in front of any list. -/

namespace Sys2Proof.Machine

/-- The state with another list of the host's moves (log entry 7). -/
def State.withInputs (l : List HostInput) (s : State) : State := { s with inputs := l }

@[simp] theorem State.withInputs_bufLen (l : List HostInput) (s : State) : (s.withInputs l).bufLen = s.bufLen := rfl
@[simp] theorem State.withInputs_len (l : List HostInput) (s : State) : (s.withInputs l).len = s.len := rfl

/-- A function of the next state, the stops kept. -/
def mapNext (f : State → State) : Host.Outcome State Fault Refusal → Host.Outcome State Fault Refusal
  | .next t => .next (f t)
  | .fault e => .fault e
  | .refused e => .refused e

section
variable (l : List HostInput)

/-! ### The operations of the meanings -/

theorem memRead_withInputs (sp : Space) (s : State) (a n : Nat) :
    memRead sp (s.withInputs l) a n = memRead sp s a n :=
  memRead_congr (s := s.withInputs l) (t := s) rfl rfl sp a n

theorem memWrite_withInputs (s : State) (a : Nat) (bs : List Byte) :
    memWrite (s.withInputs l) a bs = (memWrite s a bs).map (State.withInputs l) := by
  induction bs generalizing s a with
  | nil => rfl
  | cons b bs ih =>
    simp only [memWrite, storeByte]
    by_cases ha : a < 64
    · simp only [if_pos ha]
      exact ih { s with buf := Memory.write s.buf a b } (a + 1)
    · simp only [if_neg ha]
      rfl

theorem doCompress_of_memRead_error (c : Config) {s : State} {f : Fault} (h : memRead .buf s 0 64 = .error f) :
    doCompress c s = .error f := by
  have hread : memRead .buf { s with phase := .loadblk } 0 64 = .error f := (memRead_congr rfl rfl _ _ _).trans h
  simp only [doCompress, doLoadBlk, hread]

theorem doCompress_withInputs (c : Config) (s : State) :
    doCompress c (s.withInputs l) = (doCompress c s).map (State.withInputs l) := by
  have hread := memRead_withInputs l .buf s 0 64
  cases h : memRead .buf s 0 64 with
  | error f => rw [doCompress_of_memRead_error c h, doCompress_of_memRead_error c (hread.trans h)]; rfl
  | ok b =>
    obtain ⟨w, hw, hrun⟩ := doCompress_of_memRead c h
    obtain ⟨w', hw', hrun'⟩ := doCompress_of_memRead c (hread.trans h)
    obtain rfl : w' = w := Vector.toList_inj.mp (hw'.trans hw.symm)
    rw [hrun, hrun']
    rfl

theorem appendByte_withInputs (c : Config) (d : Byte) (s : State) :
    appendByte c d (s.withInputs l) = (appendByte c d s).map (State.withInputs l) := by
  simp only [appendByte, State.withInputs_bufLen, memWrite_withInputs]
  cases memWrite s s.bufLen.toNat [d] with
  | error f => rfl
  | ok s1 =>
    have hcompress (b : BitVec 7) (n : BitVec 64) : doCompress c { s1.withInputs l with bufLen := b, len := n } = _ :=
      doCompress_withInputs l c { s1 with bufLen := b, len := n }
    simp only [Except.map, State.withInputs_bufLen, State.withInputs_len, hcompress]
    by_cases h64 : s1.bufLen + 1 = 64
    · simp only [if_pos h64]
      cases doCompress c { s1 with bufLen := s1.bufLen + 1, len := s1.len + 8 } <;> rfl
    · simp only [if_neg h64]
      rfl

theorem closeFirstBlock_withInputs (c : Config) (n : Nat) (s : State) :
    closeFirstBlock c n (s.withInputs l) = (closeFirstBlock c n s).map (Prod.map (State.withInputs l) id) := by
  simp only [closeFirstBlock, memWrite_withInputs]
  by_cases h56 : n > 56
  · simp only [if_pos h56]
    cases memWrite s n (List.replicate (64 - n) 0x00) with
    | error f => rfl
    | ok s1 =>
      simp only [Except.map, doCompress_withInputs]
      cases doCompress c s1 <;> rfl
  · simp only [if_neg h56]
    rfl

theorem closeLastBlock_withInputs (c : Config) (n : Nat) (s : State) :
    closeLastBlock c n (s.withInputs l) = (closeLastBlock c n s).map (State.withInputs l) := by
  simp only [closeLastBlock, memWrite_withInputs]
  cases memWrite s n (List.replicate (56 - n) 0x00) with
  | error f => rfl
  | ok s1 =>
    simp only [Except.map, State.withInputs_len, memWrite_withInputs]
    cases memWrite s1 56 (lengthField s1.len) with
    | error f => rfl
    | ok s2 => exact doCompress_withInputs l c s2

theorem finishMessage_withInputs (c : Config) (s : State) :
    finishMessage c (s.withInputs l) = (finishMessage c s).map (State.withInputs l) := by
  simp only [finishMessage, State.withInputs_bufLen, memWrite_withInputs]
  cases memWrite s s.bufLen.toNat [padByte] with
  | error f => rfl
  | ok s1 =>
    simp only [Except.map, closeFirstBlock_withInputs]
    cases closeFirstBlock c (s.bufLen.toNat + 1) s1 with
    | error f => rfl
    | ok p =>
      simp only [Prod.map, id, closeLastBlock_withInputs]
      cases closeLastBlock c p.2 p.1 <;> rfl

theorem readDigest_withInputs (k : Nat) (s : State) :
    readDigest k (s.withInputs l) = (readDigest k s).map (State.withInputs l) := by
  have hbyte : readByte .dig (s.withInputs l) k = readByte .dig s k := rfl
  rw [readDigest, readDigest, hbyte]
  cases readByte .dig s k <;> rfl

/-! ### The commands -/

theorem toOutcome_map (f : State → State) (x : Except Fault State) : toOutcome (x.map f) = mapNext f (toOutcome x) := by
  cases x <;> rfl

theorem unlessFaulted_withInputs {s : State} {x y : Host.Outcome State Fault Refusal}
    (h : y = mapNext (State.withInputs l) x) :
    unlessFaulted (s.withInputs l) y = mapNext (State.withInputs l) (unlessFaulted s x) := by
  cases hf : faulted s with
  | true => rw [unlessFaulted, unlessFaulted, if_pos hf, if_pos (show faulted (s.withInputs l) = true from hf)]; rfl
  | false => rw [unlessFaulted_of_not_faulted hf, ← h]; exact unlessFaulted_of_not_faulted hf

theorem exec_withInputs (i : Instr) (s : State) :
    exec i (s.withInputs l) = mapNext (State.withInputs l) (exec i s) := by
  cases i with
  | nop => rfl
  | init => rfl
  | rds => rfl
  | absorb d =>
    refine unlessFaulted_withInputs l ?_
    rw [appendByte_withInputs, toOutcome_map, apply_ite (mapNext _), apply_ite (mapNext _)]
    rfl
  | final =>
    refine unlessFaulted_withInputs l ?_
    rw [finishMessage_withInputs, toOutcome_map, apply_ite (mapNext _)]
    rfl
  | rdd k =>
    refine unlessFaulted_withInputs l ?_
    rw [readDigest_withInputs, toOutcome_map, apply_ite (mapNext _)]
    rfl

theorem execWord_withInputs (w : CmdWord) (s : State) :
    execWord w (s.withInputs l) = mapNext (State.withInputs l) (execWord w s) := by
  rw [execWord, execWord]
  cases decode w with
  | ok i => exact exec_withInputs l i s
  | error e => exact unlessFaulted_withInputs l rfl

end

/-! ### Runs -/

/-- A command leaves the host's later moves alone. -/
theorem execWord_inputs {w : CmdWord} {s t : State} (h : execWord w s = .next t) : t.inputs = s.inputs := by
  have hself : execWord w s = mapNext (State.withInputs s.inputs) (execWord w s) :=
    execWord_withInputs s.inputs w s
  rw [h, mapNext, Host.Outcome.next.injEq] at hself
  rw [hself]
  rfl

/-- Steps on offered words do the run of those words (70_reset_and_hazards.md R190). -/
theorem run_eq_runWords (ws : List CmdWord) (rest : List HostInput) (s : State) :
    Host.Core.run Sys2Proof.core ws.length (s.withInputs (ws.map HostInput.word ++ rest)) =
      runWords ws (s.withInputs rest) := by
  induction ws generalizing s with
  | nil => rfl
  | cons w ws ih =>
    have hstep : Sys2Proof.core.step (s.withInputs ((w :: ws).map HostInput.word ++ rest)) =
        mapNext (State.withInputs (ws.map HostInput.word ++ rest)) (execWord w s) :=
      execWord_withInputs _ w s
    simp only [List.length_cons, Host.Core.run, runWords, hstep, execWord_withInputs]
    cases execWord w s with
    | next t => exact ih t
    | fault f => rfl
    | refused f => rfl

/-- Settles O9, by induction on the words offered: a command does the same in front of any list of later moves. -/
theorem stepServesTheHost : Obligations.StepServesTheHost := by
  unfold Obligations.StepServesTheHost
  exact ⟨fun s w rest e hs hw => (step_of_inputs hs).trans (execWord_of_decode_error hw _), fun s => step_idle,
    fun w s t => execWord_inputs, run_eq_runWords⟩

end Sys2Proof.Machine
end

section
/-! A block in `BUF` compressed by ABSORB and FINAL, with everything it leaves (43_commands.md R143, R144,
41_compression.md R120). -/

namespace Sys2Proof.Machine

/-! ### A block written and compressed -/

/-- `t` is what `COMPRESS` of the block `b` leaves of `s`: `b` stands in `BUF`, `W` and `A..H` are `b`'s, and nothing else
has changed (41_compression.md R121). -/
structure BlockDone (c : Config) (s : State) (b : List Byte) (t : State) : Prop where
  frame : t = { s with v := compress c s.v b, w := t.w, r := t.r, buf := t.buf, phase := .idle, j := 0 }
  w : t.w.toList = expand (blockWords b)
  r : t.r = rounds c (at32 t.w) s.v
  buf : memRead .buf t 0 64 = .ok b

theorem BlockDone.v {c : Config} {s t : State} {b : List Byte} (h : BlockDone c s b t) : t.v = compress c s.v b := by
  rw [h.frame]

theorem BlockDone.len {c : Config} {s t : State} {b : List Byte} (h : BlockDone c s b t) : t.len = s.len := by
  rw [h.frame]

/-- What stood in `BUF` before its bytes were written has no part in the block. -/
theorem BlockDone.of_buf {c : Config} {s t : State} {m : Memory} {b : List Byte}
    (h : BlockDone c { s with buf := m } b t) : BlockDone c s b t :=
  ⟨h.frame, h.w, h.r, h.buf⟩

/-- Two blocks, one after the other. -/
theorem BlockDone.frame_of_two {c : Config} {s u t : State} {b b' : List Byte} (h : BlockDone c s b u)
    (h' : BlockDone c u b' t) :
    t = { s with v := compress c (compress c s.v b) b', w := t.w, r := t.r, buf := t.buf, phase := .idle, j := 0 } := by
  have ht := h'.frame
  rw [h.frame] at ht
  exact ht

theorem doCompress_of_begins (c : Config) {s : State} {b : List Byte} (h : Memory.Begins s.buf b)
    (hl : b.length = 64) : ∃ t, doCompress c s = .ok t ∧ BlockDone c s b t := by
  have hread : memRead .buf s 0 64 = .ok b := (memRead_iff_begins (le_refl 64)).mpr ⟨hl, h⟩
  obtain ⟨w, hw, hrun⟩ := doCompress_of_memRead c hread
  exact ⟨_, hrun, rfl, hw, rfl, (memRead_iff_begins (le_refl 64)).mpr ⟨hl, h⟩⟩

/-! ### ABSORB (43_commands.md R143) -/

/-- Below 63 the byte is stored and the two counts advance. -/
theorem appendByte_of_room (c : Config) (d : Byte) {s : State} (h : s.bufLen.toNat < 63) :
    appendByte c d s = .ok { s with buf := Memory.writeList s.buf s.bufLen.toNat [d], bufLen := s.bufLen + 1,
                                    len := s.len + 8 } := by
  have h64 : s.bufLen + 1 ≠ 64 := by bv_omega
  have hwrite := memWrite_eq s s.bufLen.toNat [d] (by rw [List.length_singleton]; omega)
  simp only [appendByte, hwrite, if_neg h64]

/-- At 63 the byte fills the block, which is compressed. -/
theorem appendByte_of_last (c : Config) (d : Byte) {s : State} {bs : List Byte} (h63 : s.bufLen.toNat = 63)
    (h : memRead .buf s 0 63 = .ok bs) :
    ∃ t, appendByte c d s = .ok { t with bufLen := 0 } ∧
      BlockDone c { s with bufLen := s.bufLen + 1, len := s.len + 8 } (bs ++ [d]) t := by
  obtain ⟨hl, hbegins⟩ := (memRead_iff_begins (by decide)).mp h
  have hfull : (bs ++ [d]).length = 64 := by rw [List.length_append, hl]; rfl
  obtain ⟨m, hwrite, hm⟩ := memWrite_of_begins (cs := [d]) hbegins (by rw [← List.length_append]; exact hfull.le)
  obtain ⟨t, ht, hdone⟩ := doCompress_of_begins c
    (s := { s with buf := m, bufLen := s.bufLen + 1, len := s.len + 8 }) hm hfull
  have h64 : s.bufLen + 1 = 64 := by bv_omega
  rw [hl, ← h63] at hwrite
  exact ⟨t, by simp only [appendByte, hwrite, if_pos h64, ht],
    BlockDone.of_buf (s := { s with bufLen := s.bufLen + 1, len := s.len + 8 }) hdone⟩

/-- Settles O14: the byte is stored at `BUFLEN`, and at 63 the full block is compressed. -/
theorem absorbFollowsItsRule : Obligations.AbsorbFollowsItsRule := by
  unfold Obligations.AbsorbFollowsItsRule
  refine fun d s => ⟨fun hf => if_pos hf, fun hf hd => exec_absorb_of_dv d hf hd,
    fun hf hd hl => exec_absorb_of_limit d hf hd hl, fun hf hd hl hroom => ?_, fun bs hf hd hl h63 hbs => ?_⟩
  · have ht := appendByte_of_room Config.hw d hroom
    have hread := appendByte_readByte ht
    refine ⟨_, by rw [exec_absorb_of_absorbing d hf hd hl, ht, toOutcome], rfl, ?_, fun a ha => ?_⟩
    · rw [hread, if_pos rfl]
    · rw [hread, if_neg ha]
  · obtain ⟨t, ht, hdone⟩ := appendByte_of_last Config.hw d h63 hbs
    have hread := appendByte_readByte ht
    rw [h63] at hread
    refine ⟨{ t with bufLen := 0 }, by rw [exec_absorb_of_absorbing d hf hd hl, ht, toOutcome],
      congrArg (fun x : State => { x with bufLen := 0 }) hdone.frame, hdone.w, hdone.r, ?_, fun a ha => ?_⟩
    · rw [hread, if_pos rfl]
    · rw [hread, if_neg ha]

/-! ### FINAL (43_commands.md R144) -/

/-- FINAL's first of two blocks: zero bytes up to 63. -/
theorem closeFirstBlock_blockDone (c : Config) {s : State} {bs : List Byte} (h : Memory.Begins s.buf bs)
    (hlo : 56 < bs.length) (hhi : bs.length ≤ 64) :
    ∃ t, closeFirstBlock c bs.length s = .ok (t, 0) ∧
      BlockDone c s (bs ++ List.replicate (64 - bs.length) 0x00) t := by
  have hfull : (bs ++ List.replicate (64 - bs.length) (0x00 : Byte)).length = 64 := by simp; omega
  obtain ⟨m, hwrite, hm⟩ := memWrite_of_begins (cs := List.replicate (64 - bs.length) 0x00) h
    (by rw [← List.length_append]; exact hfull.le)
  obtain ⟨t, ht, hdone⟩ := doCompress_of_begins c (s := { s with buf := m }) hm hfull
  exact ⟨t, by simp only [closeFirstBlock, if_pos hlo, hwrite, ht], hdone.of_buf⟩

/-- FINAL's last block: zero bytes up to 55 and the length field. -/
theorem closeLastBlock_blockDone (c : Config) {s : State} {bs : List Byte} (h : Memory.Begins s.buf bs)
    (hl : bs.length ≤ 56) :
    ∃ t, closeLastBlock c bs.length s = .ok t ∧
      BlockDone c s (bs ++ List.replicate (56 - bs.length) 0x00 ++ lengthField s.len) t := by
  have hzero : (bs ++ List.replicate (56 - bs.length) (0x00 : Byte)).length = 56 := by simp; omega
  have hfull : (bs ++ List.replicate (56 - bs.length) (0x00 : Byte) ++ lengthField s.len).length = 64 := by
    rw [List.length_append, hzero, lengthField_length]
  obtain ⟨m, hwrite, hm⟩ := memWrite_of_begins (cs := List.replicate (56 - bs.length) 0x00) h
    (by rw [← List.length_append, hzero]; decide)
  obtain ⟨m', hwrite', hm'⟩ := memWrite_of_begins (s := { s with buf := m }) (cs := lengthField s.len) hm
    (by rw [← List.length_append]; exact hfull.le)
  obtain ⟨t, ht, hdone⟩ := doCompress_of_begins c (s := { s with buf := m' }) hm' hfull
  rw [hzero] at hwrite'
  exact ⟨t, by simp only [closeLastBlock, hwrite, hwrite', ht], hdone.of_buf⟩

/-- FINAL in one block, when the length field fits behind the pad byte. -/
theorem finishMessage_one_block (c : Config) {s : State} {bs : List Byte} (hn : s.bufLen.toNat ≤ 55)
    (h : memRead .buf s 0 s.bufLen.toNat = .ok bs) :
    ∃ t, finishMessage c s = .ok { t with bufLen := 0, dv := true } ∧
      BlockDone c s (bs ++ [0x80] ++ List.replicate (55 - bs.length) 0x00 ++ bytesBE s.len.toNat 8) t := by
  obtain ⟨hl, hbegins⟩ := (memRead_iff_begins (by omega)).mp h
  have hpad : (bs ++ [padByte]).length = bs.length + 1 := List.length_append
  obtain ⟨m, hwrite, hm⟩ := memWrite_of_begins (cs := [padByte]) hbegins (by rw [← List.length_append]; omega)
  obtain ⟨t, ht, hdone⟩ := closeLastBlock_blockDone c (s := { s with buf := m }) hm (by omega)
  have hfirst : closeFirstBlock c (bs.length + 1) { s with buf := m } = .ok ({ s with buf := m }, bs.length + 1) := by
    rw [closeFirstBlock, if_neg (by omega)]
  rw [hpad] at ht hdone
  rw [show 56 - (bs.length + 1) = 55 - bs.length by omega] at hdone
  exact ⟨t, by simp only [finishMessage, ← hl, hwrite, hfirst, ht], hdone.of_buf⟩

/-- FINAL in two blocks, when the length field does not fit. -/
theorem finishMessage_two_blocks (c : Config) {s : State} {bs : List Byte} (hlo : 56 ≤ s.bufLen.toNat)
    (hhi : s.bufLen.toNat ≤ 63) (h : memRead .buf s 0 s.bufLen.toNat = .ok bs) :
    ∃ u t, finishMessage c s = .ok { t with bufLen := 0, dv := true } ∧
      BlockDone c s (bs ++ [0x80] ++ List.replicate (63 - bs.length) 0x00) u ∧
      BlockDone c u (List.replicate 56 0x00 ++ bytesBE s.len.toNat 8) t := by
  obtain ⟨hl, hbegins⟩ := (memRead_iff_begins (by omega)).mp h
  have hpad : (bs ++ [padByte]).length = bs.length + 1 := List.length_append
  obtain ⟨m, hwrite, hm⟩ := memWrite_of_begins (cs := [padByte]) hbegins (by rw [← List.length_append]; omega)
  obtain ⟨u, hu, hfirst⟩ := closeFirstBlock_blockDone c (s := { s with buf := m }) hm (by omega) (by omega)
  obtain ⟨t, ht, hlast⟩ := closeLastBlock_blockDone c (Memory.begins_nil u.buf) (by decide)
  rw [hpad] at hu hfirst
  rw [show 64 - (bs.length + 1) = 63 - bs.length by omega] at hfirst
  rw [hfirst.len] at hlast
  exact ⟨u, t, by simp only [finishMessage, ← hl, hwrite, hu, List.length_nil ▸ ht], hfirst.of_buf, hlast⟩

/-- Settles O15: the bytes held are closed in one block or in two. -/
theorem finalFollowsItsRule : Obligations.FinalFollowsItsRule := by
  unfold Obligations.FinalFollowsItsRule
  refine fun s => ⟨fun hf => if_pos hf, exec_final_of_dv, fun bs hf hd hn hbs => ?_, fun bs hf hd hlo hhi hbs => ?_⟩
  · obtain ⟨t, ht, hdone⟩ := finishMessage_one_block Config.hw hn hbs
    exact ⟨{ t with bufLen := 0, dv := true }, _, rfl, by rw [exec_final_of_absorbing hf hd, ht, toOutcome],
      congrArg (fun x : State => { x with bufLen := 0, dv := true }) hdone.frame, hdone.w, hdone.r,
      (memRead_congr rfl rfl _ _ _).trans hdone.buf⟩
  · obtain ⟨u, t, ht, hfirst, hlast⟩ := finishMessage_two_blocks Config.hw hlo hhi hbs
    exact ⟨{ t with bufLen := 0, dv := true }, _, _, rfl, rfl,
      by rw [exec_final_of_absorbing hf hd, ht, toOutcome],
      congrArg (fun x : State => { x with bufLen := 0, dv := true }) (hfirst.frame_of_two hlast), hlast.w,
      hfirst.v ▸ hlast.r, (memRead_congr rfl rfl _ _ _).trans hlast.buf⟩

end Sys2Proof.Machine
end

section
/-! NOP, INIT, RDD and RDS (43_commands.md R140, R141, R145, R146). -/

namespace Sys2Proof.Machine

/-- A number in one of the illegal ranges is an illegal word (30_encoding.md R78). -/
theorem exists_decode_ofNat_error {n : Nat}
    (h : (0x0001 ≤ n ∧ n ≤ 0x00FF) ∨ (0x0420 ≤ n ∧ n ≤ 0x04FF)) : ∃ e, decode (BitVec.ofNat 16 n) = .error e := by
  obtain ⟨hranges, -⟩ := illegalWordsRaiseIllegalCommand
  rw [hranges, BitVec.toNat_ofNat, Nat.mod_eq_of_lt (by omega)]
  omega

/-- Settles O12: NOP is the identity, and the words behind it take no operand. -/
theorem nopChangesNothing : Obligations.NopChangesNothing := by
  unfold Obligations.NopChangesNothing
  exact ⟨fun s => rfl, fun s => rfl, fun n hlo hhi => exists_decode_ofNat_error (.inl ⟨hlo, hhi⟩)⟩

/-! ### INIT (43_commands.md R141) -/

/-- A faulted core is left faulted by every word but INIT's (60_exceptions.md R166). -/
theorem faulted_of_execWord {w : CmdWord} {s t : State} (hf : faulted s = true) (hw : w ≠ 0x0100)
    (h : execWord w s = .next t) : faulted t = true := by
  rcases execWord_of_faulted hf hw h with rfl | rfl <;> exact hf

/-- The status of a new message is the zero byte that `DOUT` holds already (10_state.md R33). -/
theorem exec_rds_beginMessage (c : Config) (s : State) : exec .rds (beginMessage c s) = .next (beginMessage c s) := by
  have hstatus : statusByte false Err.clear = 0x00 := by decide
  show Host.Outcome.next { beginMessage c s with dout := statusByte false Err.clear } = _
  rw [hstatus]
  rfl

/-- Settles O13: `beginMessage` gives the state, which has absorbed the empty message. -/
theorem initBeginsANewMessage : Obligations.InitBeginsANewMessage := by
  unfold Obligations.InitBeginsANewMessage
  refine ⟨fun w s t hf h ht => ?_, fun s => ?_⟩
  · by_contra hw
    exact ne_true_of_eq_false ht (faulted_of_execWord hf hw h)
  · have habs : Absorbed Config.hw [] (beginMessage Config.hw s) :=
      (cleanEntry_beginMessage Config.hw s).pending.absorbed rfl rfl
    obtain ⟨u, hu, hfin, -⟩ := finalGivesTheHash [] _ habs
    exact ⟨beginMessage Config.hw s, rfl, rfl, rfl, exec_rds_beginMessage _ s, u, hu, hfin⟩

/-! ### RDD (43_commands.md R145) -/

theorem exec_rdd_of_dv {s : State} {k : Nat} (hf : faulted s = false) (hd : s.dv = true) (hk : k < 32) :
    exec (.rdd k) s = .next { s with dout := dig s.v ⟨k, hk⟩ } :=
  calc exec (.rdd k) s
    _ = toOutcome (readDigest k s) := (unlessFaulted_of_not_faulted hf).trans (if_pos hd)
    _ = _ := by rw [readDigest_eq hk, toOutcome]

/-- `DOUT` has no part in what RDD delivers. -/
theorem exec_rdd_setDout {s : State} {k : Nat} (hf : faulted s = false) (hd : s.dv = true) (hk : k < 32) (b : Byte) :
    exec (.rdd k) { s with dout := b } = exec (.rdd k) s :=
  (exec_rdd_of_dv (s := { s with dout := b }) hf hd hk).trans (exec_rdd_of_dv hf hd hk).symm

/-- Settles O16: RDD reads `V` and writes `DOUT` alone, so a read leaves what the next one reads. -/
theorem rddFollowsItsRule : Obligations.RddFollowsItsRule := by
  unfold Obligations.RddFollowsItsRule
  refine ⟨fun k s => ⟨fun hf => if_pos hf, exec_rdd_of_absorbing k, fun hk hf hd => ?_⟩,
    fun i j s t hi hj hf hd ht => ?_, fun n hlo hhi => exists_decode_ofNat_error (.inr ⟨hlo, hhi⟩)⟩
  · rw [exec_rdd_of_dv hf hd (by omega), dig, byteBE_word]
  · rw [exec_rdd_of_dv hf hd (by omega)] at ht
    obtain rfl := Host.Outcome.next.inj ht
    exact exec_rdd_setDout hf hd (by omega) _

/-! ### RDS (43_commands.md R146) -/

theorem getLsbD_flagBit (b : Bool) (k : Nat) : (flagBit b).getLsbD k = (decide (k = 0) && b) := by
  cases b <;> simp [flagBit]

/-- The status byte bit by bit (10_state.md R33). -/
theorem getLsbD_statusByte (dv : Bool) (e : Err) (k : Nat) : (statusByte dv e).getLsbD k =
    (decide (k = 0) && dv || decide (k = 1) && e.len || decide (k = 2) && e.cmd || decide (k = 3) && e.seq) := by
  simp only [statusByte, BitVec.getLsbD_or, BitVec.getLsbD_shiftLeft, getLsbD_flagBit]
  match k with
  | 0 | 1 | 2 | 3 => simp
  | k + 4 => simp

/-- The values the invariants leave: at most one fault, and no digest of a message that is too long (10_state.md R35). -/
theorem statusByte_mem_values : ∀ dv len cmd seq : Bool, Err.atMostOne ⟨len, cmd, seq⟩ = true →
    (len = true → dv = false) →
    statusByte dv ⟨len, cmd, seq⟩ ∈ ([0x00, 0x01, 0x02, 0x04, 0x05, 0x08, 0x09] : List Byte) := by
  decide

/-- Settles O17, bit by bit. -/
theorem rdsReadsTheStatusByte : Obligations.RdsReadsTheStatusByte := by
  unfold Obligations.RdsReadsTheStatusByte
  refine ⟨fun s => ⟨status s, rfl, ?_⟩, fun s h => statusByte_mem_values _ _ _ _ h.err_one h.err_len⟩
  simp only [status, getLsbD_statusByte]
  refine ⟨by simp, by simp, by simp, by simp, fun k hk => ?_⟩
  simp [show k ≠ 0 by omega, show k ≠ 1 by omega, show k ≠ 2 by omega, show k ≠ 3 by omega]

end Sys2Proof.Machine
end

section
/-! Faults (60_exceptions.md R163 to R166): a command newly sets the bit of its one cause and writes nothing else, a
faulted core ignores every word but those of INIT, NOP and RDS, and INIT and reset alone clear a bit. -/

namespace Sys2Proof.Machine

/-! ### The `ERR` bit of a cause (60_exceptions.md R160, R161, R162) -/

/-- The `ERR` bit that a cause sets. -/
def Err.bit (e : Err) : Cause → Bool
  | .invalidInput => e.len
  | .illegalCommand => e.cmd
  | .seqError => e.seq

/-- A cause sets its own bit and no other. -/
theorem Err.bit_set (e : Err) (x y : Cause) : (e.set x).bit y = (decide (x = y) || e.bit y) := by
  cases x <;> cases y <;> rfl

@[simp] theorem Err.bit_clear (x : Cause) : Err.clear.bit x = false := by
  cases x <;> rfl

theorem Err.atMostOne_set_clear (x : Cause) : (Err.clear.set x).atMostOne = true := by
  cases x <;> rfl

/-! ### What a command does to `ERR` -/

theorem execWord_of_decode_ok {w : CmdWord} {i : Instr} (h : decode w = .ok i) (s : State) :
    execWord w s = exec i s := by
  simp only [execWord, h]

/-- Everything a command word can do to `ERR`: INIT clears it, a fault raised outside the faulted state is the whole
effect of its command, and any other effect leaves it as it is (60_exceptions.md R163). -/
theorem execWord_err {w : CmdWord} {s t : State} (h : execWord w s = .next t) :
    (decode w = .ok .init ∧ t.err = Err.clear) ∨ t.err = s.err ∨ (faulted s = false ∧ ∃ x, t = raise x s) := by
  cases execWord_cases h with
  | init hw e => exact .inl ⟨hw, by rw [e, beginMessage_err]⟩
  | nop _ e | rds _ e | ignored _ _ e | rdd _ _ _ _ e => exact .inr (.inl (by rw [e]))
  | absorb _ _ _ _ _ e => obtain ⟨-, herr, -⟩ := appendByte_fields e; exact .inr (.inl herr)
  | final _ _ _ e => obtain ⟨-, herr, -⟩ := finishMessage_fields e; exact .inr (.inl herr)
  | illegal _ hf _ e | absorbLate _ hf _ _ e | absorbLong _ hf _ _ _ e | finalLate hf _ _ e | rddEarly _ hf _ _ e =>
    exact .inr (.inr ⟨hf, _, e⟩)

/-- A command after which a bit is newly set has raised that bit's cause. -/
theorem eq_raise_of_newly_set {w : CmdWord} {s t : State} (h : execWord w s = .next t) (x : Cause)
    (hx : s.err.bit x = false ∧ t.err.bit x = true) : t = raise x s := by
  obtain ⟨hs, ht⟩ := hx
  rcases execWord_err h with ⟨-, e⟩ | e | ⟨-, y, rfl⟩
  · rw [e, Err.bit_clear] at ht; cases ht
  · rw [e, hs] at ht; cases ht
  · rw [raise_err, Err.bit_set, hs, Bool.or_false, decide_eq_true_eq] at ht
    rw [ht]

/-- Settles O19: the bit that is newly set is that of the one cause raised. -/
theorem faultsArePrecise : Obligations.FaultsArePrecise := by
  unfold Obligations.FaultsArePrecise
  intro w s t h
  have hx := eq_raise_of_newly_set h
  exact ⟨hx .invalidInput, hx .illegalCommand, hx .seqError⟩

/-! ### One outcome per command (60_exceptions.md R165) -/

/-- A faulted core ignores every word but those of INIT, NOP and RDS (60_exceptions.md R164). -/
theorem execWord_ignored {w : CmdWord} {s : State} (hf : faulted s = true)
    (hw : decode w ≠ .ok .nop ∧ decode w ≠ .ok .init ∧ decode w ≠ .ok .rds) : execWord w s = .next s := by
  obtain ⟨hnop, hinit, hrds⟩ := hw
  cases hd : decode w with
  | error e => exact (execWord_of_decode_error hd s).trans (if_pos hf)
  | ok i =>
    rw [execWord_of_decode_ok hd]
    cases i with
    | nop => exact absurd hd hnop
    | init => exact absurd hd hinit
    | rds => exact absurd hd hrds
    | absorb _ | final | rdd _ => exact if_pos hf

theorem execWord_illegal {w : CmdWord} {e : Reject} {s : State} (hf : faulted s = false) (hw : decode w = .error e) :
    execWord w s = .next (raise .illegalCommand s) :=
  (execWord_of_decode_error hw s).trans (unlessFaulted_of_not_faulted hf)

/-- A command that meets no condition of a fault leaves `ERR` as it is (60_exceptions.md R165, last point). -/
theorem exec_err_of_no_fault {i : Instr} {s t : State} (hf : faulted s = false)
    (hi : (s.dv = false ∧ (∃ d, i = .absorb d) ∧ s.len ≠ lenMax) ∨ (s.dv = false ∧ i = .final) ∨
      (s.dv = true ∧ ∃ k, k < 32 ∧ i = .rdd k)) (h : exec i s = .next t) : t.err = s.err := by
  rcases hi with ⟨hd, ⟨d, rfl⟩, hl⟩ | ⟨hd, rfl⟩ | ⟨hd, k, hk, rfl⟩
  · rw [exec_absorb_of_absorbing d hf hd hl] at h
    obtain ⟨-, herr, -⟩ := appendByte_fields (toOutcome_next.mp h)
    exact herr
  · rw [exec_final_of_absorbing hf hd] at h
    obtain ⟨-, herr, -⟩ := finishMessage_fields (toOutcome_next.mp h)
    exact herr
  · rw [exec_rdd_of_dv hf hd hk] at h
    rw [← Host.Outcome.next.inj h]

/-- Settles O18, point by point. -/
theorem oneOutcomeByPriority : Obligations.OneOutcomeByPriority := by
  unfold Obligations.OneOutcomeByPriority
  intro w s
  refine ⟨fun hw => execWord_of_decode_ok hw s, fun hw => execWord_of_decode_ok hw s,
    fun hw => execWord_of_decode_ok hw s, fun hw => ⟨fun hf => execWord_ignored hf hw, fun hf =>
      ⟨fun ⟨e, he⟩ => execWord_illegal hf he, fun i hi => ?_⟩⟩⟩
  rw [execWord_of_decode_ok hi]
  refine ⟨?wrongDv, ?atLimit, ?absorb, ?final, ?rdd, ?noFault⟩
  case wrongDv =>
    rintro (⟨hd, ⟨d, rfl⟩ | rfl⟩ | ⟨hd, k, rfl⟩)
    · exact exec_absorb_of_dv d hf hd
    · exact exec_final_of_dv hf hd
    · exact exec_rdd_of_absorbing k hf hd
  case atLimit =>
    rintro ⟨hd, ⟨d, rfl⟩, hl⟩
    exact exec_absorb_of_limit d hf hd hl
  case absorb =>
    rintro d hd rfl hl
    exact exec_absorb_of_absorbing d hf hd hl
  case final =>
    rintro hd rfl
    exact exec_final_of_absorbing hf hd
  case rdd =>
    rintro k hd rfl
    have hk := lt_of_decode_rdd hi
    exact ⟨dig s.v ⟨k, hk⟩, dif_pos hk, exec_rdd_of_dv hf hd hk⟩
  case noFault =>
    intro hready t ht
    refine exec_err_of_no_fault hf (hready.imp_right (.imp_right fun ⟨hd, k, hk⟩ => ⟨hd, k, ?_, hk⟩)) ht
    exact lt_of_decode_rdd (hk ▸ hi)

/-! ### The faulted state (60_exceptions.md R164) -/

/-- A fault is raised only while no bit is set, so there is never a second one. -/
theorem execWord_keeps_atMostOne {w : CmdWord} {s t : State} (hs : s.err.atMostOne = true)
    (h : execWord w s = .next t) : t.err.atMostOne = true := by
  rcases execWord_err h with ⟨-, e⟩ | e | ⟨hf, x, rfl⟩
  · rw [e]; rfl
  · rw [e, hs]
  · rw [raise_err, faulted_eq_false.mp hf, Err.atMostOne_set_clear]

theorem decode_init_word : decode 0x0100 = .ok .init := decode_encode (i := .init) rfl

/-- Settles O20: a faulted core runs NOP and RDS alone until an INIT. -/
theorem faultedCoreIgnoresCommands : Obligations.FaultedCoreIgnoresCommands := by
  unfold Obligations.FaultedCoreIgnoresCommands
  refine ⟨fun w s hf hinit hnop hrds => execWord_ignored hf ⟨hnop, hinit, hrds⟩,
    fun w s t => execWord_keeps_atMostOne, fun ws s t hf hws h => ?_⟩
  have hne : ∀ w ∈ ws, w ≠ 0x0100 := by
    rintro w hw rfl
    exact hws _ hw decode_init_word
  rcases runWords_of_faulted hf hne h with rfl | rfl
  · exact ⟨rfl, rfl, .inl rfl⟩
  · exact ⟨rfl, rfl, .inr rfl⟩

/-! ### Leaving the faulted state (60_exceptions.md R166) -/

/-- A bit once set stays set over every move but INIT and reset (10_state.md R28). -/
theorem execInput_keeps_bit {m : HostInput} {s t : State} (h : execInput m s = .next t) (hreset : m ≠ .reset)
    (hinit : m ≠ .word 0x0100) (x : Cause) (hx : s.err.bit x = true) : t.err.bit x = true := by
  cases m with
  | reset => exact absurd rfl hreset
  | word w =>
    rcases execWord_err h with ⟨hw, -⟩ | e | ⟨-, y, rfl⟩
    · exact absurd (word_of_decode hw) hinit
    · rw [e, hx]
    · rw [raise_err, Err.bit_set, hx, Bool.or_true]

theorem absorbed_beginMessage (c : Config) (s : State) : Absorbed c [] (beginMessage c s) :=
  (cleanEntry_beginMessage c s).pending.absorbed rfl rfl

theorem absorbed_takeReset (s : State) : Absorbed Config.hw [] (takeReset s) :=
  (pending_nil rfl rfl rfl).absorbed rfl rfl

/-- Settles O21: no other move clears a bit, and both of these begin the empty message. -/
theorem onlyInitAndResetClearFaults : Obligations.OnlyInitAndResetClearFaults := by
  unfold Obligations.OnlyInitAndResetClearFaults
  refine ⟨fun m s t h hreset hinit => ?_, fun m s hm => ?_⟩
  · have hx := execInput_keeps_bit h hreset hinit
    exact ⟨hx .invalidInput, hx .illegalCommand, hx .seqError⟩
  · rcases hm with rfl | rfl
    · exact ⟨takeReset s, rfl, rfl, absorbed_takeReset s⟩
    · exact ⟨beginMessage Config.hw s, execWord_of_decode_ok decode_init_word s, rfl, absorbed_beginMessage _ s⟩

end Sys2Proof.Machine
end

section
/-! The reset input (70_reset_and_hazards.md R180, R181): it answers the reset state, and INIT the same specified
elements. -/

namespace Sys2Proof.Machine

/-- A step whose move is the reset input answers the reset state, and the later moves stay offered. -/
theorem step_of_reset {s : State} {rest : List HostInput} (h : s.inputs = .reset :: rest) :
    step s = .next (takeReset { s with inputs := rest }) := by
  rw [step_of_inputs h]
  rfl

theorem cleanEntry_takeReset (s : State) : CleanEntry Config.hw (takeReset s) where
  v := cleanEntry_reset.v
  bufLen := cleanEntry_reset.bufLen
  len := cleanEntry_reset.len
  dv := cleanEntry_reset.dv
  err := cleanEntry_reset.err
  dout := cleanEntry_reset.dout
  phase := cleanEntry_reset.phase
  j := cleanEntry_reset.j

theorem cleanEntry_of_exec_init {s u : State} (h : exec .init s = .next u) : CleanEntry Config.hw u := by
  cases h
  exact cleanEntry_beginMessage _ s

/-- `CleanEntry` leaves no choice for a specified element. -/
theorem CleanEntry.specified_eq {c : Config} {t u : State} (ht : CleanEntry c t) (hu : CleanEntry c u) :
    u.v = t.v ∧ u.bufLen = t.bufLen ∧ u.len = t.len ∧ u.dv = t.dv ∧ u.err = t.err ∧ u.dout = t.dout ∧
      u.phase = t.phase ∧ u.j = t.j :=
  ⟨hu.v.trans ht.v.symm, hu.bufLen.trans ht.bufLen.symm, hu.len.trans ht.len.symm, hu.dv.trans ht.dv.symm,
    hu.err.trans ht.err.symm, hu.dout.trans ht.dout.symm, hu.phase.trans ht.phase.symm, hu.j.trans ht.j.symm⟩

/-- Settles O10: the reset state and the state after INIT both meet `CleanEntry`, so they agree. -/
theorem resetInputGivesTheResetState : Obligations.ResetInputGivesTheResetState := by
  unfold Obligations.ResetInputGivesTheResetState
  intro s rest h
  have ht : CleanEntry Config.hw (takeReset { s with inputs := rest }) := cleanEntry_takeReset _
  exact ⟨_, step_of_reset h, ht.v, ht.bufLen, ht.len, ht.dv, ht.err, ht.dout, ht.phase, ht.j, takeReset_inputs _,
    fun _ _ hu => ht.specified_eq (cleanEntry_of_exec_init hu)⟩

end Sys2Proof.Machine
end
